-- ==== Sys2Proof/Word.lean ====
section
/-! DEFINITION. The widths of the block: bytes, 16-bit registers, line levels, identifiers (R10, R11, R66). -/

namespace Sys2Proof

/-- One byte: a host register, a buffer location, a byte on the wire (R60, R67). -/
abbrev Byte := BitVec 8

/-- A 16-bit register (`COUNT`, `RETRY`; R23, R27). -/
abbrev Half := BitVec 16

/-- A line level or protocol bit: `true` is 1 (high), `false` is 0 (low) (R30, R92). -/
abbrev Level := Bool

/-- A device identifier: "an exact 8-byte (64-bit) sequence", byte 0 the family code, byte 7 the checksum (R66). -/
abbrev Identifier := Vector Byte 8

/-- `zext_8` of one bit (R10). -/
def zextBit (b : Level) : Byte := (BitVec.ofBool b).setWidth 8

end Sys2Proof
end

