-- ==== Sys2Proof/Syntax.lean ====
section
/-! DEFINITION. The host commands, one constructor for each row of the opcode table (R96). -/

namespace Sys2Proof

/-- A command the host can start by a write to `CMD`. The flags are those of the command byte (R91, R92); the other operands
are the values of `ARG`, `PTR`, `ROM` and `BUF` when the command starts (R90). -/
inductive Instr where
  /-- `WRITE_BIT`, format B: `h` is `holdDriveAfter`, `v` the bit sent (R121). -/
  | writeBit (h v : Bool)
  /-- `READ_BIT` (R123). -/
  | readBit
  /-- `RESET`, also spelt `SELECT_NONE` (R141, R175). -/
  | reset
  /-- `WRITE_BYTE`, format P: `p` is `pullupAfter` (R143). -/
  | writeByte (p : Bool)
  /-- `READ_BYTE` (R146). -/
  | readByte
  /-- `WRITE_BYTES` (R148). -/
  | writeBytes
  /-- `READ_BYTES` (R150). -/
  | readBytes
  /-- `RELEASE_PULLUP` (R152). -/
  | releasePullup
  /-- `ROM_SINGLE` (R171). -/
  | romSingle
  /-- `ROM_MATCH` (R172). -/
  | romMatch
  /-- `ROM_SKIP` (R173). -/
  | romSkip
  /-- `OD_MATCH`, reserved (R177). -/
  | odMatch
  /-- `OD_SKIP`, reserved (R176). -/
  | odSkip
  /-- `CRC8_CHECK` (R188). -/
  | crc8Check
  /-- `CRC8_ROM` (R189). -/
  | crc8Rom
  /-- `DISCOVER`, format D: `s` says whether a sink is attached, `a` is `alarmSearch` (R202). -/
  | discover (s a : Bool)
deriving DecidableEq, Repr

end Sys2Proof
end

