-- ==== Sys2Proof/Decode.lean ====
section
/-! DEFINITION. Command bytes to commands and back (R90 to R100). -/

namespace Sys2Proof

/-- One row of R96: a byte `c` is this row's when `c and mask = pattern`; `build` then reads its flag fields. -/
structure OpcodeRow where
  mask : Byte
  pattern : Byte
  build : Byte → Instr

/-- R95: "It compares `c` with the rows ... (`(c and mask) = match`)". -/
def OpcodeRow.holds (r : OpcodeRow) (c : Byte) : Bool := (c &&& r.mask) == r.pattern

/-- The sixteen rows of R96 in its order; the flag fields are those of R91 and R92. -/
def opcodeRows : List OpcodeRow :=
  [ ⟨0xFC, 0x10, fun c => .writeBit (c.getLsbD 1) (c.getLsbD 0)⟩,
    ⟨0xFF, 0x20, fun _ => .readBit⟩,
    ⟨0xFF, 0x30, fun _ => .reset⟩,
    ⟨0xFE, 0x40, fun c => .writeByte (c.getLsbD 0)⟩,
    ⟨0xFF, 0x50, fun _ => .readByte⟩,
    ⟨0xFF, 0x60, fun _ => .writeBytes⟩,
    ⟨0xFF, 0x70, fun _ => .readBytes⟩,
    ⟨0xFF, 0x80, fun _ => .releasePullup⟩,
    ⟨0xFF, 0x90, fun _ => .romSingle⟩,
    ⟨0xFF, 0x91, fun _ => .romMatch⟩,
    ⟨0xFF, 0x92, fun _ => .romSkip⟩,
    ⟨0xFF, 0x95, fun _ => .odMatch⟩,
    ⟨0xFF, 0x96, fun _ => .odSkip⟩,
    ⟨0xFF, 0xA0, fun _ => .crc8Check⟩,
    ⟨0xFF, 0xA1, fun _ => .crc8Rom⟩,
    ⟨0xFC, 0xB0, fun c => .discover (c.getLsbD 1) (c.getLsbD 0)⟩ ]

/-- Why a byte encodes no command. -/
inductive DecodeReject where
  /-- `NO_SUCH_COMMAND`: the byte matches no row of R96 (R97). Safe: the block refuses it with code 1. -/
  | noSuchCommand (c : Byte)
deriving DecidableEq, Repr

/-- The decoder, total on the 256 bytes (R95). A command is one byte, whatever follows it (R90, R100). -/
def decode (c : Byte) : Except DecodeReject Instr :=
  match opcodeRows.find? (·.holds c) with
  | some r => .ok (r.build c)
  | none => .error (.noSuchCommand c)

/-- The command read from a table word: rows of this hardware have eight bits (R90), so another length reads nothing. -/
def decodeTableWord (nbits w : Nat) : Option Instr :=
  if nbits = 8 ∧ w < 256 then
    match decode (BitVec.ofNat 8 w) with
    | .ok i => some i
    | .error _ => none
  else none

/-- A one-bit flag field at bit `k` of the command byte (R91). -/
def flagAt (k : Nat) (b : Bool) : Byte := if b then 1#8 <<< k else 0

/-- The encoder: the byte of R96 for each command, its flags in the places of R91. -/
def encode : Instr → Byte
  | .writeBit h v => 0x10 ||| flagAt 1 h ||| flagAt 0 v
  | .readBit => 0x20
  | .reset => 0x30
  | .writeByte p => 0x40 ||| flagAt 0 p
  | .readByte => 0x50
  | .writeBytes => 0x60
  | .readBytes => 0x70
  | .releasePullup => 0x80
  | .romSingle => 0x90
  | .romMatch => 0x91
  | .romSkip => 0x92
  | .odMatch => 0x95
  | .odSkip => 0x96
  | .crc8Check => 0xA0
  | .crc8Rom => 0xA1
  | .discover s a => 0xB0 ||| flagAt 1 s ||| flagAt 0 a

/-- The two rows R96 calls "reserved, refused". -/
def reserved : Instr → Bool
  | .odMatch => true
  | .odSkip => true
  | .writeBit _ _ => false
  | .readBit => false
  | .reset => false
  | .writeByte _ => false
  | .readByte => false
  | .writeBytes => false
  | .readBytes => false
  | .releasePullup => false
  | .romSingle => false
  | .romMatch => false
  | .romSkip => false
  | .crc8Check => false
  | .crc8Rom => false
  | .discover _ _ => false

end Sys2Proof
end

