-- ==== Sys2Proof/Config.lean ====
section
/-! DEFINITION. What is fixed when the block is built (R8), and the values the spec leaves open for good. -/

namespace Sys2Proof

/-- The configuration record of R8, with its defaults. `BUF_SIZE` and `HAS_OD` are fixed for this hardware and stand below
as constants. All `T_*` are microseconds and are only ever arguments of `Delay` events (R290). -/
structure Config where
  /-- `RETRY`: the bound of the idle wait (R9, R27, D14). -/
  retry : Half := 200
  /-- `HAS_ENUM` (R26, D27). -/
  hasEnum : Bool := true
  /-- `HAS_APU` (D17). -/
  hasApu : Bool := false
  /-- `HAS_PU_PIN` (D17). -/
  hasPuPin : Bool := false
  tW1Low : Nat := 10
  tW1Rel : Nat := 55
  tW0Low : Nat := 65
  tW0Rel : Nat := 5
  tRLow : Nat := 5
  tRWait : Nat := 10
  tRRest : Nat := 55
  tPoll : Nat := 5
  tRstLow : Nat := 480
  tRstWait : Nat := 60
  tRstRec : Nat := 420
deriving DecidableEq, Repr

/-- `APU = HAS_APU and HAS_PU_PIN`: pull-up requests use the external FET (R8). -/
def Config.apu (c : Config) : Bool := c.hasApu && c.hasPuPin

/-- `BUF_SIZE`, fixed 128 for this hardware (R8, R28, D6). -/
def bufSize : Nat := 128

/-- `HAS_OD`, fixed false: overdrive timing is "explicitly unimplemented" (R8, D18). -/
def hasOverdrive : Bool := false

/-- FREE VALUE. The level the bus shows at the n-th `ReadPin` of a run in the free environment: "it may pick either level at
every call" (R34, D30). No body, so nothing can be proved of a value of it (Log 4). -/
opaque Config.freeLevel : Nat → Level

/-- FREE VALUE. The byte at a host address of `BUF` that nothing has written since reset: "an unspecified byte" (R62, U6).
A function of the address, because reading twice with no write between "returns the same byte" (R62; Log 7). -/
opaque Config.unwrittenByte : Nat → Byte

end Sys2Proof
end

