-- ==== Sys2Proof/Machine/Bits.lean ====
section
/-! DEFINITION. Bit fields of bytes and identifiers (R10, R11). -/

namespace Sys2Proof

/-- `x[i] <- b`, the other bits kept (R10, R145, R211). -/
def setBitOf (x : Byte) (i : Nat) (b : Level) : Byte :=
  if b then x ||| (1#8 <<< i) else x &&& ~~~(1#8 <<< i)

/-- The bits of a byte in the order they go on the wire, least significant first (R67). -/
def wireBits (x : Byte) : List Level := [0, 1, 2, 3, 4, 5, 6, 7].map x.getLsbD

/-- The byte whose bits arrived in this order, the first one bit 0 (R67). -/
def byteOfWire (bs : List Level) : Byte := bs.reverse.foldl (fun x b => (x <<< 1) ||| (if b then 1 else 0)) 0

/-- Bit `k` of an identifier is `id[k div 8][k mod 8]` (R11). -/
def idBit (id : Identifier) (k : Nat) : Level := (id.getD (k / 8) 0).getLsbD (k % 8)

/-- `setbit(k, v)`: "the other 63 bits keep their values" (R211). -/
def setIdBit (id : Identifier) (k : Nat) (b : Level) : Identifier :=
  id.setIfInBounds (k / 8) (setBitOf (id.getD (k / 8) 0) (k % 8) b)

/-- The all-zero identifier, what the buffer holds at the start of a pass (R201). -/
def zeroId : Identifier := Vector.replicate 8 0

/-- Bits 0 to 63 of an identifier, in order (R11). -/
def idBits (id : Identifier) : List Level := (List.range 64).map (idBit id)

end Sys2Proof
end

