-- ==== Sys2Proof/Machine/Environment.lean ====
section
/-! DEFINITION. The bus outside the block, which answers every `ReadPin` (R34), and the three reference environments of
95_test_vectors section 2. It is an input of the model, no part of the block (R4, R39; Log 4, Log 5). -/

namespace Sys2Proof.Machine

/-- The three places a `ReadPin` is issued from (95_test_vectors section 2): the poll loop and the presence sample of R140,
and the slot sample of R122. -/
inductive SampleKind where
  | poll
  | presence
  | slot
deriving DecidableEq, Repr

/-- Where a device stands within one identifier bit of a search: about to send the bit, its complement, or to receive the
chosen bit (R200). -/
inductive SearchPhase where
  | bit
  | complement
  | direction
deriving DecidableEq, Repr

/-- What a device of `DeviceBus` is doing (95_test_vectors section 2). -/
inductive DeviceState where
  /-- Ignores everything until the next reset at which it is present. -/
  | off
  /-- Receiving the command byte; `got` are the bits so far, the first one first. -/
  | listen (got : List Level)
  /-- Taking part in a search at identifier bit `k`. -/
  | search (k : Nat) (phase : SearchPhase)
deriving DecidableEq, Repr

/-- A slave device of `DeviceBus`. -/
structure Device where
  id : Identifier
  alarmed : Bool
  state : DeviceState := .off
deriving DecidableEq, Repr

/-- `DeviceBus(devs, vanish)`; `resets` counts the bus resets that reached their presence sample. -/
structure DeviceBus where
  devs : List Device
  vanish : Option Nat := none
  resets : Nat := 0
deriving DecidableEq, Repr

/-- Who answers `ReadPin`. -/
inductive Env where
  /-- Any answers at all: the n-th is the free value `Config.freeLevel n` (R34, D30). -/
  | free
  /-- `Script(L, dflt)`: the levels still to be answered, then `dflt` for ever. -/
  | script (levels : List Level) (dflt : Level)
  /-- `Loopback`: the bits written and not yet read back, oldest first. -/
  | loopback (bits : List Level)
  /-- `DeviceBus`: devices that behave in a search as R200 says and do nothing else. -/
  | deviceBus (bus : DeviceBus)
deriving DecidableEq, Repr

/-- "The devices are present at reset `j` iff `vanish = none` or `j < V`". -/
def DeviceBus.present (b : DeviceBus) : Bool :=
  match b.vanish with
  | none => true
  | some v => b.resets < v

/-- What a device sends in a read slot, if it sends at all: its bit, then the complement (R200). -/
def Device.contribution (d : Device) : Option Level :=
  match d.state with
  | .search k .bit => some (idBit d.id k)
  | .search k .complement => some (!idBit d.id k)
  | .search _ .direction => none
  | .listen _ => none
  | .off => none

/-- A device after a read slot. -/
def Device.afterRead (d : Device) : Device :=
  match d.state with
  | .search k .bit => { d with state := .search k .complement }
  | .search k .complement => { d with state := .search k .direction }
  | .search _ .direction => d
  | .listen _ => d
  | .off => d

/-- A device that has the whole command byte: 0xF0 starts a search, 0xEC one of alarmed devices, any other byte silences it. -/
def Device.command (d : Device) (x : Byte) : DeviceState :=
  if x == 0xF0 || (x == 0xEC && d.alarmed) then .search 0 .bit else .off

/-- A device after the write slot `W(v)` (R200): "only devices whose own bit matches the written value continue". -/
def Device.afterWrite (v : Level) (d : Device) : Device :=
  match d.state with
  | .listen got =>
    if got.length < 7 then { d with state := .listen (got ++ [v]) }
    else { d with state := d.command (byteOfWire (got ++ [v])) }
  | .search k .direction =>
    if v == idBit d.id k then
      (if k + 1 < 64 then { d with state := .search (k + 1) .bit } else { d with state := .off })
    else { d with state := .off }
  | .search _ .bit => d
  | .search _ .complement => d
  | .off => d

/-- The line in a read slot: the AND of what the taking-part devices send, 1 when none does (R34, R200). -/
def DeviceBus.slotLevel (b : DeviceBus) : Level := (b.devs.filterMap Device.contribution).all id

/-- The bus after the presence sample of a reset. -/
def DeviceBus.afterPresence (b : DeviceBus) : DeviceBus :=
  { b with
    devs := b.devs.map (fun d => { d with state := if b.present then .listen [] else .off })
    resets := b.resets + 1 }

/-- The level answered to a `ReadPin` of this kind, the `n`-th of the run. -/
def Env.answer (k : SampleKind) (n : Nat) (e : Env) : Level :=
  match e with
  | .free => Config.freeLevel n
  | .script levels dflt => levels.headD dflt
  | .loopback bits =>
    match k with
    | .slot => bits.headD true
    | .poll => true
    | .presence => true
  | .deviceBus b =>
    match k with
    | .slot => b.slotLevel
    | .poll => true
    | .presence => !(b.present && !b.devs.isEmpty)

/-- The environment after it has answered a `ReadPin` of this kind. -/
def Env.afterRead (k : SampleKind) (e : Env) : Env :=
  match e with
  | .free => .free
  | .script levels dflt => .script levels.tail dflt
  | .loopback bits =>
    match k with
    | .slot => .loopback bits.tail
    | .poll => .loopback bits
    | .presence => .loopback bits
  | .deviceBus b =>
    match k with
    | .slot => .deviceBus { b with devs := b.devs.map Device.afterRead }
    | .poll => .deviceBus b
    | .presence => .deviceBus b.afterPresence

/-- The environment after the block has completed a write slot of `v`: the slot-level event `W(v)` of R125 (Log 5). -/
def Env.afterWrite (v : Level) (e : Env) : Env :=
  match e with
  | .free => .free
  | .script levels dflt => .script levels dflt
  | .loopback bits => .loopback (bits ++ [v])
  | .deviceBus b => .deviceBus { b with devs := b.devs.map (Device.afterWrite v) }

/-- The environment after these write slots, in order. -/
def Env.afterWrites (vs : List Level) (e : Env) : Env := vs.foldl (fun e v => e.afterWrite v) e

end Sys2Proof.Machine
end

