-- ==== Sys2Proof/Machine/State.lean ====
section
/-! DEFINITION. The state of the block (R20), what a run needs beside it (R39), and the state after reset (R38, R270). -/

namespace Sys2Proof.Machine

/-- No step of this machine ends in a fault: "An accepted command never aborts, traps, hangs" (R240), a refused one is a next
state (R246), and what 93 calls a `fault` is a mark that stops nothing (R285). So there is no constructor (Log 17). -/
inductive Fault where
deriving DecidableEq, Repr

/-- Why `exec` has no meaning for a command. (A command the BLOCK refuses is a next state, R246, not this.) -/
inductive Refusal where
  /-- Raised by an arm of `exec` whose command is not modelled yet; safe. No arm raises it now. -/
  | notModelled (mnemonic : String)
deriving DecidableEq, Repr

/-- `MODE`: whether the data pin is released or an output (R29). -/
inductive PinMode where
  | floating
  | driven
deriving DecidableEq, Repr

/-- The port events of R30. -/
inductive PortEvent where
  | setFloating
  | setDriven
  | driveLow
  | driveHigh
  | readPin (l : Level)
  | delay (us : Nat)
  | enterCritical
  | exitCritical
  | pullupOn
  | pullupOff
  /-- An identifier leaves by the sink (R31). -/
  | report (id : Identifier)
deriving DecidableEq, Repr

/-- The frame record of one active `search(d)` call: "its depth and whether it is a collision frame waiting for its 0 branch
to return" (R32). -/
structure Frame where
  depth : Nat
  waiting : Bool
deriving DecidableEq, Repr

/-- The Enumeration State of R32. -/
structure Enumeration where
  /-- `ENUMID[0..7]`. -/
  id : Identifier
  /-- `DEPTH`, the argument of the most recently entered `search(d)` (conflict C9). -/
  depth : Nat
  /-- `ECOUNT`, unbounded (R23, D20). -/
  count : Nat
  /-- `SCMD`, 0xF0 or 0xEC. -/
  scmd : Byte
  /-- One record per active call, innermost first. -/
  frames : List Frame
deriving DecidableEq, Repr

/-- One register access of the host (R62, R63). -/
inductive HostAccess where
  | read (a : Byte)
  | write (a v : Byte)
deriving DecidableEq, Repr

/-- Memory: the bytes of `BUF` that have been written, by host address, strictly rising. An unlisted address holds no value
(R38: "a model must treat the content as unwritten"). -/
abbrev Memory := List Host.Cell

/-- The canonical form: addresses strictly rising, and only addresses of `BUF` (R28, R61). No entry can equal what an unlisted
address reads as, which is no value. -/
abbrev Memory.wf (m : Memory) : Prop :=
  m.Pairwise (fun c d => c.1 < d.1) ∧ ∀ c ∈ m, 0x80 ≤ c.1 ∧ c.1 < 0x100

structure State where
  /-- `Config`, never changed (R8; Log 3). -/
  cfg : Config
  /-- `CMD`, the last byte written to it, also when it was refused (R24). -/
  cmd : Byte
  /-- `ARG` (R21). -/
  arg : Byte
  /-- `PTR` (R21). -/
  ptr : Byte
  /-- `RESULT` (R21). -/
  result : Byte
  /-- `COUNT` (R23). -/
  count : Half
  /-- `STATUS.REFUSED` (R25). -/
  refused : Bool
  /-- `STATUS.RCODE` (R25, R247). -/
  rcode : BitVec 3
  /-- `ROM[0..7]` (R22). -/
  rom : Identifier
  /-- `BUF` (R28). -/
  mem : Memory
  /-- `MODE` (R29). -/
  mode : PinMode
  /-- `OUT`, the level the data pin drives when it is an output (R29). -/
  out : Level
  /-- `CRIT`: preemption of the host is suppressed (R29). -/
  crit : Bool
  /-- `PU`: the active-pullup control pin is asserted (R29). -/
  pu : Bool
  /-- The Enumeration State, which "exists only while a `DISCOVER` command runs" (R20, R32). -/
  enum : Option Enumeration
  /-- The record of port events, oldest first (R13, R39; Log 9). -/
  trace : List PortEvent
  /-- The environment (R34; Log 4). -/
  env : Env
  /-- The model's own: how many `ReadPin`s there have been, the argument of the free level (Log 4). -/
  pinReads : Nat
  /-- The host's accesses still to come (R103; Log 1). -/
  hostIn : List HostAccess
  /-- The bytes the host's reads have returned, oldest first (R62; Log 9). -/
  hostOut : List Byte
  /-- The model's own: which `ROM[i]` the host has written since reset (R38; Log 6). -/
  romWritten : Vector Bool 8
  /-- The sticky fault mark `HoldViolation` of R285. -/
  holdViolation : Bool
  /-- The sticky fault mark of U6: a `ROM[i]` or `BUF[i]` was read before any write (Log 7). -/
  unwrittenRead : Bool
deriving DecidableEq, Repr

/-- The state after hardware reset (R38, R270). `ROM` is the model's choice (Log 6); the environment is free (Log 4) and no
host access is waiting (Log 2). -/
def State.reset : State where
  cfg := {}
  cmd := 0x00
  arg := 0x00
  ptr := 0x00
  result := 0x00
  count := 0x0000
  refused := false
  rcode := 0
  rom := zeroId
  mem := []
  mode := .floating
  out := false
  crit := false
  pu := false
  enum := none
  trace := []
  env := .free
  pinReads := 0
  hostIn := []
  hostOut := []
  romWritten := Vector.replicate 8 false
  holdViolation := false
  unwrittenRead := false

end Sys2Proof.Machine
end

