-- ==== Sys2Proof/Machine/Ops.lean ====
section
/-! DEFINITION. The named operations over memory, registers and pins: `MemRead` and `MemWrite` (R12), the port primitives
(R30), accepting and refusing a command (R95, R246), and access to the Enumeration State (R32, R211). -/

namespace Sys2Proof.Machine

/-! ### Memory -/

/-- The byte a memory lists at an address. -/
def Memory.lookup (m : Memory) (a : Nat) : Option Byte := (m.find? (fun c => c.1 == a)).map (·.2)

/-- Store a byte, keeping the addresses rising. -/
def Memory.store (m : Memory) (a : Nat) (x : Byte) : Memory :=
  match m with
  | [] => [(a, x)]
  | c :: rest =>
    if a < c.1 then (a, x) :: c :: rest
    else if a = c.1 then (a, x) :: rest
    else c :: Memory.store rest a x

/-- The host address of `ROM[i]` (R22). -/
def romAddr (i : Nat) : Nat := 0x08 + i

/-- The host address of `BUF[i]` (R28). -/
def bufAddr (i : Nat) : Nat := 0x80 + i

/-- Is this the address of a `ROM[i]` (R61)? -/
def isRom (a : Nat) : Bool := 0x08 ≤ a && a ≤ 0x0F

/-- Is this the address of a `BUF[i]` (R61)? -/
def isBuf (a : Nat) : Bool := 0x80 ≤ a && a ≤ 0xFF

/-- The byte `MemRead(a, 1)` gives, `a` the address of a `ROM[i]` or `BUF[i]` (R12). A `BUF` byte nothing has written is a free
value (R62; Log 7). -/
def peek (a : Nat) (s : State) : Byte :=
  if isRom a then s.rom.getD (a - 0x08) 0
  else (s.mem.lookup a).getD (Config.unwrittenByte a)

/-- Has nothing written this `ROM[i]` or `BUF[i]` since reset (R38)? -/
def unwritten (a : Nat) (s : State) : Bool :=
  (isRom a && !s.romWritten.getD (a - 0x08) true) || (isBuf a && (s.mem.lookup a).isNone)

/-- What a read of address `a` leaves: nothing but the mark of U6. -/
def touch (a : Nat) (s : State) : State := { s with unwrittenRead := s.unwrittenRead || unwritten a s }

/-- `MemWrite(a, 1, x)` to a `BUF[i]` (R12, R149). -/
def pokeBuf (a : Nat) (x : Byte) (s : State) : State := { s with mem := s.mem.store a x }

/-- The host's write to a `ROM[i]` (R63). -/
def pokeRom (a : Nat) (x : Byte) (s : State) : State :=
  { s with
    rom := s.rom.setIfInBounds (a - 0x08) x
    romWritten := s.romWritten.setIfInBounds (a - 0x08) true }

/-! ### Port primitives (R30) -/

/-- Append an event to the trace (R13). -/
def emit (e : PortEvent) (s : State) : State := { s with trace := s.trace ++ [e] }

def setFloating (s : State) : State := { emit .setFloating s with mode := .floating }
def setDriven (s : State) : State := { emit .setDriven s with mode := .driven }
def driveLow (s : State) : State := { emit .driveLow s with out := false }
def driveHigh (s : State) : State := { emit .driveHigh s with out := true }
def enterCritical (s : State) : State := { emit .enterCritical s with crit := true }
def exitCritical (s : State) : State := { emit .exitCritical s with crit := false }
def pullupOn (s : State) : State := { emit .pullupOn s with pu := true }
def pullupOff (s : State) : State := { emit .pullupOff s with pu := false }

/-- `Delay(n)`: no effect on the block's state. -/
def delay (n : Nat) (s : State) : State := emit (.delay n) s

/-- `Report(id)`: carries the identifier out and has no other effect (R31). -/
def report (id : Identifier) (s : State) : State := emit (.report id) s

/-- `PullLow()`: `DriveLow(); SetDriven()` (R13, D11). -/
def pullLow (s : State) : State := setDriven (driveLow s)

/-- The level the environment gives to the next `ReadPin` (R34). -/
def pinLevel (k : SampleKind) (s : State) : Level := s.env.answer k s.pinReads

/-- What `ReadPin()` leaves: the event, and the environment one answer further. Its result is `pinLevel` of the state before. -/
def readPin (k : SampleKind) (s : State) : State :=
  { emit (.readPin (pinLevel k s)) s with
    env := s.env.afterRead k
    pinReads := s.pinReads + 1 }

/-- Tell the environment that a write slot of `v` is over (R125; Log 5). No state of the block changes. -/
def slotWritten (v : Level) (s : State) : State := { s with env := s.env.afterWrite v }

/-! ### Accepting and refusing (R95, R246) -/

/-- `NO_SUCH_COMMAND` (R247). -/
def codeNoSuchCommand : BitVec 3 := 1
/-- `OVERDRIVE_UNIMPLEMENTED` (R247). -/
def codeOverdrive : BitVec 3 := 2
/-- `BUFFER_RANGE` (R247). -/
def codeBufferRange : BitVec 3 := 3
/-- `NO_ENUMERATOR` (R247). -/
def codeNoEnumerator : BitVec 3 := 4

/-- `raise Refused(code)` (R246): the one thing that stands where a trap would (R251). No port event, no other change. -/
def refuse (code : BitVec 3) (s : State) : State := { s with refused := true, rcode := code }

/-- "If an accepted row matches, `STATUS.REFUSED <- 0`, `STATUS.RCODE <- 0`" (R95). -/
def accept (s : State) : State := { s with refused := false, rcode := 0 }

/-- The line is driven high by the block or its FET (R33 c, R285). -/
def pullupHeld (s : State) : Bool := s.pu || s.mode == .driven

/-- Who answers a bus command started here. "What is not defined is the line" once a command is started in a pull-up hold, and the run
then carries the mark to its end (R285, U1): from there on every answer is a free value, whatever environment it was (Log 8). -/
def lineEnv (s : State) : Env := if s.holdViolation || pullupHeld s then .free else s.env

/-- Accept a command that emits at least one port event and is not `RELEASE_PULLUP`: if a pull-up hold is in force the mark of R285 is
set; while it is, the line is not defined. -/
def acceptBus (s : State) : State :=
  { accept s with
    holdViolation := s.holdViolation || pullupHeld s
    env := lineEnv s }

/-! ### Hardware reset (R270) -/

/-- Hardware reset from any state: every piece of state at its value of R38, no port event. The configuration, the bus outside and the
records of what has happened are no state of the block (R8, R39) and stay; the marks go, because a run begins here (R287; Log 19). -/
def hardwareReset (s : State) : State :=
  { State.reset with
    cfg := s.cfg
    env := s.env
    pinReads := s.pinReads
    trace := s.trace
    hostIn := s.hostIn
    hostOut := s.hostOut }

/-! ### The Enumeration State (R32) -/

/-- The Enumeration State at the start of a pass (R201): buffer zero, count 0, the search byte of R218. -/
def Enumeration.start (alarm : Bool) : Enumeration where
  id := zeroId
  depth := 0
  count := 0
  scmd := if alarm then 0xEC else 0xF0
  frames := []

/-- The Enumeration State of the running pass. Outside a pass there is none and no rule reads one; the value given there is
never used (R32). -/
def enumOf (s : State) : Enumeration := s.enum.getD (Enumeration.start false)

/-- Change the Enumeration State of the running pass. -/
def modEnum (f : Enumeration → Enumeration) (s : State) : State := { s with enum := s.enum.map f }

/-- `getbit(k)` (R211). -/
def getbit (k : Nat) (s : State) : Level := idBit (enumOf s).id k

/-- `setbit(k, v)` (R211). -/
def setbit (k : Nat) (v : Level) (s : State) : State := modEnum (fun e => { e with id := setIdBit e.id k v }) s

/-- `DEPTH <- d`, and a record for the call `search(d)` (R203, R32). -/
def enterSearch (d : Nat) (s : State) : State :=
  modEnum (fun e => { e with depth := d, frames := ⟨d, false⟩ :: e.frames }) s

/-- `search` returns: its record goes, `DEPTH` stays (R32). -/
def leaveSearch (s : State) : State := modEnum (fun e => { e with frames := e.frames.tail }) s

/-- The innermost call is, or is no longer, a collision frame waiting for its 0 branch (R32). -/
def setWaiting (w : Bool) (s : State) : State :=
  modEnum (fun e => { e with frames := e.frames.modifyHead (fun f => { f with waiting := w }) }) s

end Sys2Proof.Machine
end

