-- ==== Sys2Proof/Machine/Flags.lean ====
section
/-! DEFINITION. The read-only views the host reads the flags and the configuration by (R25 to R27, R37, R69). -/

namespace Sys2Proof.Machine

/-- The `DRIVEN` bit of `STATUS` (R25). -/
def drivenBit (m : PinMode) : Bool :=
  match m with
  | .floating => false
  | .driven => true

/-- `STATUS`: `RCODE` in bits 7:5, then `PU`, `OUT`, `DRIVEN`, `CRIT`, `REFUSED` down to bit 0 (R25). -/
def statusByte (s : State) : Byte :=
  s.rcode ++ BitVec.ofBool s.pu ++ BitVec.ofBool s.out ++ BitVec.ofBool (drivenBit s.mode) ++ BitVec.ofBool s.crit
    ++ BitVec.ofBool s.refused

/-- `FEATURES`: bit 0 `ENUM`, bit 1 `APU`, bit 2 `OD`, bits 7:3 zero (R26). -/
def featuresByte (c : Config) : Byte :=
  (0 : BitVec 5) ++ BitVec.ofBool hasOverdrive ++ BitVec.ofBool c.apu ++ BitVec.ofBool c.hasEnum

/-- The half of a 16-bit register at its lower address (R69). -/
def lowByte (x : Half) : Byte := x.extractLsb' 0 8

/-- The half of a 16-bit register at its higher address (R69). -/
def highByte (x : Half) : Byte := x.extractLsb' 8 8

end Sys2Proof.Machine
end

