-- ==== Sys2Proof/Machine/Operands.lean ====
section
/-! DEFINITION. The operands a command takes from the registers when it starts (R90, R93), and their range checks (R71). -/

namespace Sys2Proof.Machine

/-- The data byte of `WRITE_BYTE` (R21, R143). -/
def dataOperand (s : State) : Byte := s.arg

/-- The length `n` of `WRITE_BYTES`, `READ_BYTES`, `CRC8_CHECK`: `ARG` as an unsigned number (R93). -/
def lengthOperand (s : State) : Nat := s.arg.toNat

/-- The buffer offset `p`: `PTR` as an unsigned number (R93). -/
def offsetOperand (s : State) : Nat := s.ptr.toNat

/-- `PTR + ARG > BUF_SIZE`, "computed without wrap-around" (R71, R93). -/
def outOfBuffer (s : State) : Bool := offsetOperand s + lengthOperand s > bufSize

/-- `PTR + ARG + 1 > BUF_SIZE`, for `CRC8_CHECK` (R71, R188). -/
def outOfBufferCheck (s : State) : Bool := offsetOperand s + lengthOperand s + 1 > bufSize

/-- Read `n` bytes at ascending addresses from `a`, each by one access (R70, R71). -/
def readRun (a : Nat) : Nat → State → List Byte × State
  | 0, s => ([], s)
  | n + 1, s =>
    let r := readRun (a + 1) n (touch a s)
    (peek a s :: r.1, r.2)

/-- The `n` bytes at ascending addresses from `a`, as they stand (R71). -/
def peeks (a n : Nat) (s : State) : List Byte := (List.range n).map (fun j => peek (a + j) s)

/-- Has any of the `n` locations from `a` not been written since reset (R38)? -/
def anyUnwritten (a n : Nat) (s : State) : Bool := (List.range n).any (fun j => unwritten (a + j) s)

end Sys2Proof.Machine
end

