-- ==== Sys2Proof/Machine/BitTransport.lean ====
section
/-! DEFINITION. The Bit Transport: `writeBit`, `readBit` (R120, R122) and the commands `WRITE_BIT`, `READ_BIT`. -/

namespace Sys2Proof.Machine

/-- `writeBit(v, h)` (R120). -/
def writeBit (v h : Bool) (s : State) : State :=
  let s := enterCritical s
  let s := pullLow s
  let s := delay (if v then s.cfg.tW1Low else s.cfg.tW0Low) s
  let s := driveHigh s
  let s := delay (if v then s.cfg.tW1Rel else s.cfg.tW0Rel) s
  let s := setFloating s
  slotWritten v (if h then s else exitCritical s)

/-- `readBit()` (R122): the sampled level, unfiltered, and the state after. -/
def readBit (s : State) : Level × State :=
  let s := enterCritical s
  let s := pullLow s
  let s := delay s.cfg.tRLow s
  let s := setFloating s
  let s := delay s.cfg.tRWait s
  let l := pinLevel .slot s
  let s := readPin .slot s
  let s := exitCritical s
  (l, delay s.cfg.tRRest s)

/-- `WRITE_BIT` (R121). -/
def execWriteBit (h v : Bool) (s : State) : Host.Outcome State Fault Refusal :=
  .next (writeBit v h (acceptBus s))

/-- `READ_BIT` (R123). -/
def execReadBit (s : State) : Host.Outcome State Fault Refusal :=
  let r := readBit (acceptBus s)
  .next { r.2 with result := zextBit r.1 }

end Sys2Proof.Machine
end

