-- ==== Sys2Proof/Machine/BusSequencer.lean ====
section
/-! DEFINITION. The Bus Sequencer: bus reset, bytes, buffers, pull-up (R140 to R153) and its six commands. -/

namespace Sys2Proof.Machine

/-- The idle wait of R140: at most `n` samples, a `Delay(T_POLL)` after each low one; true when a sample is high. -/
def pollIdle : Nat → State → Bool × State
  | 0, s => (false, s)
  | n + 1, s =>
    if pinLevel .poll s then (true, readPin .poll s)
    else pollIdle n (delay s.cfg.tPoll (readPin .poll s))

/-- The reset pulse and the presence sample of R140: true when the line was low. -/
def resetPulse (s : State) : Bool × State :=
  let s := enterCritical s
  let s := pullLow s
  let s := delay s.cfg.tRstLow s
  let s := setFloating s
  let s := delay s.cfg.tRstWait s
  let l := pinLevel .presence s
  let s := readPin .presence s
  let s := exitCritical s
  (!l, delay s.cfg.tRstRec s)

/-- `resetAndPresenceDetect()` (R140). -/
def resetAndPresenceDetect (s : State) : Bool × State :=
  let s := setFloating s
  let r := pollIdle s.cfg.retry.toNat s
  if r.1 then resetPulse r.2 else (false, r.2)

/-- `pullupEngage()` (R144). -/
def pullupEngage (s : State) : State :=
  if s.cfg.apu then pullupOn s else setDriven (driveHigh s)

/-- Write slots for these bits, in order, none of them holding. -/
def writeBits : List Level → State → State
  | [], s => s
  | v :: vs, s => writeBits vs (writeBit v false s)

/-- `writeByte(x, p)`: eight slots, bit 0 first; only the last may hold, and the pull-up follows it at once (R142). -/
def writeByte (x : Byte) (p : Bool) (s : State) : State :=
  let s := writeBits ((wireBits x).take 7) s
  let s := writeBit (x.getLsbD 7) p s
  if p then pullupEngage s else s

/-- `x[i] <- readBit()` for these `i`, in order (R145). -/
def readBitsInto : List Nat → Byte → State → Byte × State
  | [], x, s => (x, s)
  | i :: is, x, s =>
    let r := readBit s
    readBitsInto is (setBitOf x i r.1) r.2

/-- `readByte()` (R145). -/
def readByte (s : State) : Byte × State := readBitsInto [0, 1, 2, 3, 4, 5, 6, 7] 0x00 s

/-- Send `n` bytes from ascending addresses, each read at the moment it is needed (R71, R147). No byte requests pull-up (D16). -/
def sendRun (a : Nat) : Nat → State → State
  | 0, s => s
  | n + 1, s => sendRun (a + 1) n (writeByte (peek a s) false (touch a s))

/-- `writeBytes(p, n)` (R147). -/
def writeBytes (p n : Nat) (s : State) : State := sendRun (bufAddr p) n s

/-- `readBytes(p, n)`: "Each byte is stored as soon as its eighth bit is sampled" (R149). -/
def readBytes (p : Nat) : Nat → State → State
  | 0, s => s
  | n + 1, s =>
    let r := readByte s
    readBytes (p + 1) n (pokeBuf (bufAddr p) r.1 r.2)

/-- `releaseActivePullup()`, unconditional (R151). -/
def releaseActivePullup (s : State) : State :=
  exitCritical (setFloating (if s.cfg.apu then pullupOff s else s))

/-- `RESET` (R141). -/
def execReset (s : State) : Host.Outcome State Fault Refusal :=
  let r := resetAndPresenceDetect (acceptBus s)
  .next { r.2 with result := zextBit r.1 }

/-- `WRITE_BYTE` (R143). -/
def execWriteByte (p : Bool) (s : State) : Host.Outcome State Fault Refusal :=
  .next (writeByte (dataOperand s) p (acceptBus s))

/-- `READ_BYTE` (R146). -/
def execReadByte (s : State) : Host.Outcome State Fault Refusal :=
  let r := readByte (acceptBus s)
  .next { r.2 with result := r.1 }

/-- Accept a buffer command: of length 0 it emits no port event, so it sets no mark (R285). -/
def acceptBuffer (s : State) : State := if lengthOperand s = 0 then accept s else acceptBus s

/-- `WRITE_BYTES` (R148). -/
def execWriteBytes (s : State) : Host.Outcome State Fault Refusal :=
  .next (if outOfBuffer s then refuse codeBufferRange s
    else writeBytes (offsetOperand s) (lengthOperand s) (acceptBuffer s))

/-- `READ_BYTES` (R150). -/
def execReadBytes (s : State) : Host.Outcome State Fault Refusal :=
  .next (if outOfBuffer s then refuse codeBufferRange s
    else readBytes (offsetOperand s) (lengthOperand s) (acceptBuffer s))

/-- `RELEASE_PULLUP` (R152): the one bus command that never sets the mark of R285. -/
def execReleasePullup (s : State) : Host.Outcome State Fault Refusal :=
  .next (releaseActivePullup (accept s))

end Sys2Proof.Machine
end

