-- ==== Sys2Proof/Machine/Crc8.lean ====
section
/-! DEFINITION. The CRC-8 Validator (R185 to R192). -/

namespace Sys2Proof.Machine

/-- One round of R185: the test is made on the value before the logical shift. -/
def crcRound (c : Byte) : Byte := if c.getLsbD 0 then (c >>> 1) ^^^ 0x8C else c >>> 1

/-- `n` rounds. -/
def crcRounds : Nat → Byte → Byte
  | 0, c => c
  | n + 1, c => crcRounds n (crcRound c)

/-- `crcStep(c, x)` (R185). -/
def crcStep (c x : Byte) : Byte := crcRounds 8 (c ^^^ x)

/-- `crc8(d, n)` of a byte sequence (R186). -/
def crc8 (d : List Byte) : Byte := d.foldl crcStep 0x00

/-- `crc8Valid(d, n, e)` in the source's form (R187). -/
def crc8Valid (d : List Byte) (e : Byte) : Bool := crcStep (crc8 d) e == 0x00

/-- An identifier is valid iff `crc8Valid(id, 7, id[7])` (R190). -/
def idValid (id : Identifier) : Bool := crc8Valid (id.toList.take 7) (id.getD 7 0)

/-- `CRC8_CHECK`: data `BUF[p..p+n-1]`, expected checksum `BUF[p+n]` (R188). -/
def execCrc8Check (s : State) : Host.Outcome State Fault Refusal :=
  .next (if outOfBufferCheck s then refuse codeBufferRange s
    else
      let e := bufAddr (offsetOperand s + lengthOperand s)
      let r := readRun (bufAddr (offsetOperand s)) (lengthOperand s) (accept s)
      { touch e r.2 with result := zextBit (crc8Valid r.1 (peek e r.2)) })

/-- `CRC8_ROM` (R189). -/
def execCrc8Rom (s : State) : Host.Outcome State Fault Refusal :=
  .next (
    let r := readRun (romAddr 0) 7 (accept s)
    { touch (romAddr 7) r.2 with result := zextBit (crc8Valid r.1 (peek (romAddr 7) r.2)) })

end Sys2Proof.Machine
end

