-- ==== Sys2Proof/Machine/Enumerator.lean ====
section
/-! DEFINITION. The Bus Enumerator: `search`, `discoverDevices` and `DISCOVER` (R200 to R220). -/

namespace Sys2Proof.Machine

/-- Step 6 of R203: report a valid identifier and count it, drop an invalid one silently (R204). -/
def searchTerminal (s : State) : State :=
  if idValid (enumOf s).id then
    modEnum (fun e => { e with count := e.count + 1 }) (report (enumOf s).id s)
  else s

/-- A bit/complement pair (R203 step 1). -/
def readPair (s : State) : (Level × Level) × State :=
  let a := readBit s
  let b := readBit a.2
  ((a.1, b.1), b.2)

/-- The replay of depths `i` to `i+n-1`: read and discard the pair, write the recorded bit (R208). -/
def replay (i : Nat) : Nat → State → State
  | 0, s => s
  | n + 1, s =>
    let s := (readPair s).2
    replay (i + 1) n (writeBit (getbit i s) false s)

/-- Take branch `v` at depth `d`: record the bit and write it (R203 steps 3 to 5). -/
def takeBranch (d : Nat) (v : Level) (s : State) : State := writeBit v false (setbit d v s)

/-- Step 5b and 5c of R203 for a collision at depth `d`, after its bus reset has succeeded: the search byte, the replay, the
pair read again and discarded, the 1 branch's bit (R208, R209). -/
def reenter (d : Nat) (s : State) : State :=
  let s := writeByte (enumOf s).scmd false s
  let s := replay 0 d s
  takeBranch d true (readPair s).2

/-- `search(d)` with `d = 64 - n`, `n` the number of bits still to find (R203). -/
def search : Nat → State → State
  | 0, s => leaveSearch (searchTerminal (enterSearch 64 s))
  | n + 1, s =>
    let d := 63 - n
    let r := readPair (enterSearch d s)
    match r.1 with
    | (true, true) => leaveSearch r.2
    | (false, true) => leaveSearch (search n (takeBranch d false r.2))
    | (true, false) => leaveSearch (search n (takeBranch d true r.2))
    | (false, false) =>
      let s := setWaiting false (search n (takeBranch d false (setWaiting true r.2)))
      let q := resetAndPresenceDetect s
      if q.1 then leaveSearch (search n (reenter d q.2)) else leaveSearch q.2

/-- A pass with a sink attached, the Enumeration State being at its start: the bus reset, the search byte, `search(0)` (R201). -/
def discoverPass (s : State) : State :=
  let r := resetAndPresenceDetect s
  if r.1 then search 64 (writeByte (enumOf r.2).scmd false r.2) else r.2

/-- `discoverDevices(sink, alarm)` (R201): the count, and the state after, in which the Enumeration State has ceased to exist
(R216). Without a sink "no port event at all". -/
def discoverDevices (sink alarm : Bool) (s : State) : Nat × State :=
  if sink then
    let s := discoverPass { s with enum := some (Enumeration.start alarm) }
    ((enumOf s).count, { s with enum := none })
  else (0, s)

/-- `min(n, 0xFFFF)` (R23, D20). -/
def saturate (n : Nat) : Half := BitVec.ofNat 16 (min n 0xFFFF)

/-- `DISCOVER` (R202). Without a sink it emits nothing, so it sets no mark (R285). -/
def execDiscover (sink alarm : Bool) (s : State) : Host.Outcome State Fault Refusal :=
  .next (if s.cfg.hasEnum then
      let r := discoverDevices sink alarm (if sink then acceptBus s else accept s)
      { r.2 with count := saturate r.1 }
    else refuse codeNoEnumerator s)

end Sys2Proof.Machine
end

