-- ==== Sys2Proof/Machine/RomCommands.lean ====
section
/-! DEFINITION. The ROM Command Issuer (R170 to R177). -/

namespace Sys2Proof.Machine

/-- "Every ROM command first runs `resetAndPresenceDetect()` and ignores its result" (R170), then sends its command byte. -/
def romCommand (x : Byte) (s : State) : State := writeByte x false (resetAndPresenceDetect s).2

/-- `ROM_SINGLE` sends 0x33 (R171). -/
def execRomSingle (s : State) : Host.Outcome State Fault Refusal :=
  .next (romCommand 0x33 (acceptBus s))

/-- `ROM_MATCH` sends 0x55 and `ROM[0..7]` (R172). -/
def execRomMatch (s : State) : Host.Outcome State Fault Refusal :=
  .next (sendRun (romAddr 0) 8 (romCommand 0x55 (acceptBus s)))

/-- `ROM_SKIP` sends 0xCC (R173). -/
def execRomSkip (s : State) : Host.Outcome State Fault Refusal :=
  .next (romCommand 0xCC (acceptBus s))

/-- `OD_MATCH`: `raise Refused(2)` (R177). -/
def execOdMatch (s : State) : Host.Outcome State Fault Refusal :=
  .next (refuse codeOverdrive s)

/-- `OD_SKIP`: `raise Refused(2)` (R176). -/
def execOdSkip (s : State) : Host.Outcome State Fault Refusal :=
  .next (refuse codeOverdrive s)

end Sys2Proof.Machine
end

