-- ==== Sys2Proof/Machine/Dispatch.lean ====
section
/-! DEFINITION. One arm per command (R96), each one call of its meaning. -/

namespace Sys2Proof.Machine

def exec (i : Instr) (s : State) : Host.Outcome State Fault Refusal :=
  match i with
  | .writeBit h v => Sys2Proof.Machine.execWriteBit h v s
  | .readBit => Sys2Proof.Machine.execReadBit s
  | .reset => Sys2Proof.Machine.execReset s
  | .writeByte p => Sys2Proof.Machine.execWriteByte p s
  | .readByte => Sys2Proof.Machine.execReadByte s
  | .writeBytes => Sys2Proof.Machine.execWriteBytes s
  | .readBytes => Sys2Proof.Machine.execReadBytes s
  | .releasePullup => Sys2Proof.Machine.execReleasePullup s
  | .romSingle => Sys2Proof.Machine.execRomSingle s
  | .romMatch => Sys2Proof.Machine.execRomMatch s
  | .romSkip => Sys2Proof.Machine.execRomSkip s
  | .odMatch => Sys2Proof.Machine.execOdMatch s
  | .odSkip => Sys2Proof.Machine.execOdSkip s
  | .crc8Check => Sys2Proof.Machine.execCrc8Check s
  | .crc8Rom => Sys2Proof.Machine.execCrc8Rom s
  | .discover sink alarm => Sys2Proof.Machine.execDiscover sink alarm s

end Sys2Proof.Machine
end

