-- ==== Sys2Proof/Machine/HostPort.lean ====
section
/-! DEFINITION. The host's two accesses, `HostRead` and `HostWrite`, over the map of R61 (R62 to R64). -/

namespace Sys2Proof.Machine

/-- The byte at a host address (R61, R62); reserved addresses read 0x00 (R64). -/
def hostByte (a : Byte) (s : State) : Byte :=
  if a = 0x00 then s.cmd
  else if a = 0x01 then s.arg
  else if a = 0x02 then s.ptr
  else if a = 0x03 then statusByte s
  else if a = 0x04 then s.result
  else if a = 0x05 then lowByte s.count
  else if a = 0x06 then highByte s.count
  else if a = 0x07 then featuresByte s.cfg
  else if a = 0x10 then lowByte s.cfg.retry
  else if a = 0x11 then highByte s.cfg.retry
  else if isRom a.toNat || isBuf a.toNat then peek a.toNat s
  else 0x00

/-- `HostRead(a)` (R62): the byte goes to the host; nothing of the block changes, but a read of an unwritten byte is marked
(U6). -/
def hostRead (a : Byte) (s : State) : State :=
  { touch a.toNat s with hostOut := s.hostOut ++ [hostByte a s] }

/-- A host write to any address but `CMD` (R63): the four writable kinds of location take the value, everything else ignores it. -/
def writeRegister (a v : Byte) (s : State) : State :=
  if a = 0x01 then { s with arg := v }
  else if a = 0x02 then { s with ptr := v }
  else if isRom a.toNat then pokeRom a.toNat v s
  else if isBuf a.toNat then pokeBuf a.toNat v s
  else s

/-- The command started by a write of `v` to `CMD`: `CMD <- v`, then the command `v` encodes runs to completion; a byte that
encodes none is refused with code 1 (R24, R63, R95, R97). -/
def runCommand (v : Byte) (s : State) : Host.Outcome State Fault Refusal :=
  match decode v with
  | .ok i => exec i { s with cmd := v }
  | .error _ => .next (refuse codeNoSuchCommand { s with cmd := v })

/-- `HostWrite(a, v)` (R63). -/
def hostWrite (a v : Byte) (s : State) : Host.Outcome State Fault Refusal :=
  if a = 0x00 then runCommand v s else .next (writeRegister a v s)

/-- One access of the host, to completion (R73). -/
def hostAccess (x : HostAccess) (s : State) : Host.Outcome State Fault Refusal :=
  match x with
  | .read a => .next (hostRead a s)
  | .write a v => hostWrite a v s

/-- The next access of the host's list; when none is left the block waits and nothing changes (R7, R103; Log 1). -/
def hostStep (s : State) : Host.Outcome State Fault Refusal :=
  match s.hostIn with
  | [] => .next s
  | x :: rest => hostAccess x { s with hostIn := rest }

end Sys2Proof.Machine
end

