-- ==== Sys2Proof/Machine/Step.lean ====
section
/-! DEFINITION. One step: one access of the host, run to completion (R7, R73, R103). -/

namespace Sys2Proof.Machine

def step (s : State) : Host.Outcome State Fault Refusal := hostStep s

/-- The state in which the next step runs the command byte `w`: the host's next access is a write of it to `CMD` (R36, R63;
Log 2). A command of this hardware has eight bits, whatever `nbits` is (R90). -/
def State.withFetchWord (s : State) (_nbits w : Nat) : State :=
  { s with hostIn := .write 0x00 (BitVec.ofNat 8 w) :: s.hostIn }

end Sys2Proof.Machine
end

