-- ==== Sys2Proof/Machine/EnumeratorLoop.lean ====
section
/-! DEFINITION. The search without recursion (R213): a loop over the pending collision depths. The machine runs the recursive
form of R203; an obligation says that the two agree. -/

namespace Sys2Proof.Machine

/-- `DEPTH <- d` (R213). -/
def setDepth (d : Nat) (s : State) : State := modEnum (fun e => { e with depth := d }) s

/-- "descend from depth d" of R213, `n = 64 - d`. `pend` lists the depths with `PEND[e] = 1`, the largest first. -/
def descend : Nat → List Nat → State → List Nat × State
  | 0, pend, s => (pend, searchTerminal (setDepth 64 s))
  | n + 1, pend, s =>
    let d := 63 - n
    let r := readPair (setDepth d s)
    match r.1 with
    | (true, true) => (pend, r.2)
    | (false, true) => descend n pend (takeBranch d false r.2)
    | (true, false) => descend n pend (takeBranch d true r.2)
    | (false, false) => descend n (d :: pend) (takeBranch d false r.2)

/-- "back up to the innermost collision frame still owing its 1 branch": the depth resumed, if any, and what is still pending. -/
def backUp : List Nat → State → Option (Nat × List Nat) × State
  | [], s => (none, s)
  | e :: pend, s =>
    let q := resetAndPresenceDetect s
    if q.1 then (some (e, pend), reenter e q.2) else backUp pend q.2

/-- The outer loop, at most `fuel` times round. -/
def searchLoop : Nat → Nat → List Nat → State → State
  | 0, _, _, s => s
  | fuel + 1, n, pend, s =>
    let r := descend n pend s
    let q := backUp r.1 r.2
    match q.1 with
    | none => q.2
    | some (e, pend) => searchLoop fuel (63 - e) pend q.2

/-- `searchIter()`. "at most `2^64 - 1` replay resets" (R240) bound the turns of the loop. -/
def searchIter (s : State) : State := searchLoop (2 ^ 64) 64 [] s

end Sys2Proof.Machine
end

