-- ==== Sys2Proof/Machine/Slots.lean ====
section
/-! DEFINITION. The event sequences of the block's building blocks, written out from R120, R122 and R140, and the time they
take (R124, R125, R290, R291). No meaning uses them: they say what traces must look like. -/

namespace Sys2Proof.Machine

/-- The events of `writeBit(v, h)` (R120). -/
def writeSlot (c : Config) (v h : Bool) : List PortEvent :=
  [.enterCritical, .driveLow, .setDriven, .delay (if v then c.tW1Low else c.tW0Low), .driveHigh,
    .delay (if v then c.tW1Rel else c.tW0Rel), .setFloating] ++ (if h then [] else [.exitCritical])

/-- The events of `readBit()` that samples `l` (R122). -/
def readSlot (c : Config) (l : Level) : List PortEvent :=
  [.enterCritical, .driveLow, .setDriven, .delay c.tRLow, .setFloating, .delay c.tRWait, .readPin l, .exitCritical,
    .delay c.tRRest]

/-- The events of `writeByte(x, false)`: eight slots, bit 0 first (R67, R142). -/
def writeByteEvents (c : Config) (x : Byte) : List PortEvent := (wireBits x).flatMap (fun v => writeSlot c v false)

/-- The idle wait of R140 with `j` low samples. -/
def pollEvents (c : Config) (j : Nat) : List PortEvent := (List.replicate j [.readPin false, .delay c.tPoll]).flatten

/-- The reset pulse of R140 whose presence sample reads `l`. -/
def pulseEvents (c : Config) (l : Level) : List PortEvent :=
  [.enterCritical, .driveLow, .setDriven, .delay c.tRstLow, .setFloating, .delay c.tRstWait, .readPin l, .exitCritical,
    .delay c.tRstRec]

/-- `resetAndPresenceDetect()` with idle reached after `j` low samples (R140, R141). -/
def resetEvents (c : Config) (j : Nat) (l : Level) : List PortEvent :=
  .setFloating :: (pollEvents c j ++ .readPin true :: pulseEvents c l)

/-- `resetAndPresenceDetect()` when idle is never reached (R140). -/
def deadResetEvents (c : Config) : List PortEvent := .setFloating :: pollEvents c c.retry.toNat

/-- `es` is what `resetAndPresenceDetect()` emits when it returns `ok`: with `p` the presence sample (0 is a presence pulse), or
idle never reached and false (R140). -/
def isReset (c : Config) (es : List PortEvent) (ok : Bool) : Prop :=
  (∃ j p, j < c.retry.toNat ∧ es = resetEvents c j p ∧ ok = !p) ∨ (es = deadResetEvents c ∧ ok = false)

/-- The microseconds an event takes: the argument of a `Delay` (R30, R290). -/
def eventTime (e : PortEvent) : Nat :=
  match e with
  | .delay n => n
  | .setFloating => 0
  | .setDriven => 0
  | .driveLow => 0
  | .driveHigh => 0
  | .readPin _ => 0
  | .enterCritical => 0
  | .exitCritical => 0
  | .pullupOn => 0
  | .pullupOff => 0
  | .report _ => 0

/-- The sum of the `Delay` arguments of a trace (R124, R291). -/
def busTime (es : List PortEvent) : Nat := (es.map eventTime).sum

/-- The identifiers that left by the sink, in order (R31). -/
def reports (es : List PortEvent) : List Identifier :=
  es.filterMap (fun e => match e with
    | .report id => some id
    | _ => none)

end Sys2Proof.Machine
end

