-- ==== Sys2Proof/Safety.lean ====
section
/-! DEFINITION. Holds, marks, final states and the invariant of a command boundary (R33, R285, R287). -/

namespace Sys2Proof.Machine

/-- R33 (a). -/
abbrev State.idle (s : State) : Prop := s.mode = .floating ∧ s.crit = false ∧ s.pu = false

/-- R33 (b), the state after `WRITE_BIT` with `h = 1`. -/
abbrev State.criticalHold (s : State) : Prop := s.mode = .floating ∧ s.crit = true ∧ s.pu = false

/-- R33 (c), the state after `WRITE_BYTE` with `p = 1`. -/
abbrev State.pullupHold (s : State) : Prop :=
  s.crit = true ∧
    ((s.cfg.apu = true ∧ s.pu = true ∧ s.mode = .floating) ∨
      (s.cfg.apu = false ∧ s.mode = .driven ∧ s.out = true ∧ s.pu = false))

/-- A run that carries no fault mark (R285, U6). -/
abbrev State.clean (s : State) : Prop := s.holdViolation = false ∧ s.unwrittenRead = false

/-- A bus command started here leaves the run without the mark of R285, so that the environment answers it. Every claim about the line or
the devices has this premise; without it the answers are free. -/
abbrev State.lineDefined (s : State) : Prop := s.holdViolation = false ∧ pullupHeld s = false

/-- A final end of a run: no access is left and no hold is in force (R287). -/
abbrev State.final (s : State) : Prop := s.hostIn = [] ∧ s.idle

/-- The 64 identifier bits of `x` come before those of `y`: bit 0 first, 0 before 1 (R214). -/
abbrev idBefore (x y : Identifier) : Prop :=
  ∃ k, k < 64 ∧ (∀ j, j < k → idBit x j = idBit y j) ∧ idBit x k = false ∧ idBit y k = true

/-- The devices that take part in a search: all of them, or in an alarm search those that are alarmed (R200, R218). -/
def participants (alarm : Bool) (b : DeviceBus) : List Identifier :=
  (b.devs.filter (fun d => !alarm || d.alarmed)).map (·.id)

/-- The nominal timing figures of R290. -/
abbrev nominal (c : Config) : Prop :=
  c.tW1Low = 10 ∧ c.tW1Rel = 55 ∧ c.tW0Low = 65 ∧ c.tW0Rel = 5 ∧ c.tRLow = 5 ∧ c.tRWait = 10 ∧ c.tRRest = 55 ∧
    c.tPoll = 5 ∧ c.tRstLow = 480 ∧ c.tRstWait = 60 ∧ c.tRstRec = 420

/-- What holds at every command boundary. -/
structure State.Inv (s : State) : Prop where
  /-- Memory is in its canonical form and holds `BUF` only (R28, R61). -/
  mem_wf : s.mem.wf
  /-- "always 0 when `APU` is false" (R29). -/
  pu_apu : s.pu = true → s.cfg.apu = true
  /-- "1 if the last command written to `CMD` was refused, 0 if it was accepted", with `RCODE` 0 then (R25). -/
  refused_iff : s.refused = true ↔ s.rcode ≠ 0
  /-- "5–7 ... never produced" (R247). -/
  rcode_le : s.rcode.toNat ≤ 4
  /-- The Enumeration State exists only while a `DISCOVER` runs (R20). -/
  enum_none : s.enum = none
  /-- "At a command boundary exactly one of these holds" (R33), unless a hold was misused, which the mark shows (R285). -/
  hold : s.holdViolation = true ∨ s.idle ∨ s.criticalHold ∨ s.pullupHold
  /-- "What is not defined is the line" in a run that carries the mark (R285). -/
  line : s.holdViolation = true → s.env = .free

end Sys2Proof.Machine
end

