-- ==== Sys2Proof/Script.lean ====
section
/-! DEFINITION. Host scripts: the lines and pseudo-instructions of R101 and R102, as a syntax tree (the source fixes no text). -/

namespace Sys2Proof

/-- What stands for an address in a line: a register name of R61, or a number (R101). -/
inductive Place where
  | cmd | arg | ptr | status | result | countLo | countHi | features | retryLo | retryHi
  /-- `ROM0` to `ROM7`. -/
  | rom (i : Nat)
  /-- `BUF+i`. -/
  | buf (i : Nat)
  | num (a : Nat)
deriving DecidableEq, Repr

/-- A line of a host script (R101), the nine pseudo-instructions of R102 among them. -/
inductive HostLine where
  | wr (p : Place) (v : Nat)
  | rd (p : Place)
  | command (i : Instr)
  | send (x : Nat)
  | sendPu (x : Nat)
  | sendn (p n : Nat)
  | recvn (p n : Nat)
  | check (p n : Nat)
  | loadRom (bs : List Nat)
  | selectNone
  | search
  | alarmSearch
deriving DecidableEq, Repr

end Sys2Proof
end

