-- ==== Sys2Proof/WellFormed.lean ====
section
/-! DEFINITION. Which commands and script lines fit their encodings. -/

namespace Sys2Proof

/-- Every command is well formed: each operand in the command byte is a one-bit field (R91), which `Bool` cannot leave, and
every other operand is the value of a register (R90). So there is no check here for a term to fail. -/
def Instr.wellFormed : Instr → Bool
  | .writeBit _ _ => true
  | .readBit => true
  | .reset => true
  | .writeByte _ => true
  | .readByte => true
  | .writeBytes => true
  | .readBytes => true
  | .releasePullup => true
  | .romSingle => true
  | .romMatch => true
  | .romSkip => true
  | .odMatch => true
  | .odSkip => true
  | .crc8Check => true
  | .crc8Rom => true
  | .discover _ _ => true

/-- `ROM0`..`ROM7`, `BUF+0`..`BUF+127`, numbers of one byte (R60, R101). -/
def Place.wellFormed : Place → Bool
  | .rom i => i < 8
  | .buf i => i < 128
  | .num a => a < 256
  | .cmd | .arg | .ptr | .status | .result | .countLo | .countHi | .features | .retryLo | .retryHi => true

/-- Every number of a line fits the byte it is written as; `LOADROM` has eight of them (R101, R102). -/
def HostLine.wellFormed : HostLine → Bool
  | .wr p v => p.wellFormed && v < 256
  | .rd p => p.wellFormed
  | .command i => i.wellFormed
  | .send x => x < 256
  | .sendPu x => x < 256
  | .sendn p n => p < 256 && n < 256
  | .recvn p n => p < 256 && n < 256
  | .check p n => p < 256 && n < 256
  | .loadRom bs => bs.length == 8 && bs.all (· < 256)
  | .selectNone => true
  | .search => true
  | .alarmSearch => true

end Sys2Proof
end

