-- ==== Sys2Proof/Certificates/Slice0/Obligations.lean ====
section
/-! DEFINITION. The statements for the provers, in the order of OBLIGATIONS.json. Each speaks of every state, reachable or not;
an equation `exec i s = .next { s with … }` says both what changes and that nothing else does. -/

open Sys2Proof Sys2Proof.Machine Host

/-! ### Encoding -/

/-- R90 to R96: the decoder reads back what the encoder writes, and a byte it accepts is the encoding of what it reads. -/
def Obligations.DecodeEncodeAgree : Prop :=
  (∀ i : Instr, i.wellFormed = true → decode (encode i) = .ok i ∧ decodeTableWord 8 (encode i).toNat = some i) ∧
    ∀ (c : Byte) (i : Instr), decode c = .ok i → encode i = c

/-- R95: "the rows are disjoint, so at most one matches". -/
def Obligations.OpcodeRowsDisjoint : Prop :=
  opcodeRows.Pairwise (fun r q => ∀ c : Byte, ¬(r.holds c = true ∧ q.holds c = true))

/-- R96: each code of the table is its command, with the flags of R91 in their places; 21 bytes are accepted, 2 reserved by name,
233 encode nothing. -/
def Obligations.OpcodeMapDecodes : Prop :=
  (∀ h v : Bool, decode (0b00010000 + (if h then 2 else 0) + (if v then 1 else 0)) = .ok (.writeBit h v)) ∧
    decode 0b00100000 = .ok .readBit ∧ decode 0b00110000 = .ok .reset ∧
    (∀ p : Bool, decode (0b01000000 + (if p then 1 else 0)) = .ok (.writeByte p)) ∧
    decode 0b01010000 = .ok .readByte ∧ decode 0b01100000 = .ok .writeBytes ∧ decode 0b01110000 = .ok .readBytes ∧
    decode 0b10000000 = .ok .releasePullup ∧ decode 0b10010000 = .ok .romSingle ∧ decode 0b10010001 = .ok .romMatch ∧
    decode 0b10010010 = .ok .romSkip ∧ decode 0b10010101 = .ok .odMatch ∧ decode 0b10010110 = .ok .odSkip ∧
    decode 0b10100000 = .ok .crc8Check ∧ decode 0b10100001 = .ok .crc8Rom ∧
    (∀ s a : Bool, decode (0b10110000 + (if s then 2 else 0) + (if a then 1 else 0)) = .ok (.discover s a)) ∧
    ((List.range 256).countP (fun c => match decode (BitVec.ofNat 8 c) with
      | .ok i => !reserved i
      | .error _ => false) = 21) ∧
    ((List.range 256).countP (fun c => match decode (BitVec.ofNat 8 c) with
      | .ok i => reserved i
      | .error _ => false) = 2) ∧
    ((List.range 256).countP (fun c => match decode (BitVec.ofNat 8 c) with
      | .ok _ => false
      | .error _ => true) = 233)

/-! ### The host port and the step -/

/-- A step runs the decoded command: when the host's next access writes to `CMD` a byte that decodes to `i`, the step is `exec i`
of the state in which `CMD` holds that byte and the access is gone (R24, R63, R95). With nothing left to do the block waits
(the model's choice, Log 1; the list of accesses is Log 2). -/
def Obligations.StepRunsDecodedCommand : Prop :=
  (∀ (s : State) (v : Byte) (i : Instr) (rest : List HostAccess),
    s.hostIn = .write 0x00 v :: rest → decode v = .ok i → step s = exec i { s with hostIn := rest, cmd := v }) ∧
  (∀ (s : State) (n w : Nat) (i : Instr), decode (BitVec.ofNat 8 w) = .ok i →
    step (s.withFetchWord n w) = exec i { s with cmd := BitVec.ofNat 8 w }) ∧
  ∀ s : State, s.hostIn = [] → step s = .next s

/-- R97: a byte that matches no row encodes no command and is refused with code 1; only `CMD`, `REFUSED`, `RCODE` change. The
second part lists the bytes R97 names. -/
def Obligations.UnmatchedByteRefused : Prop :=
  (∀ (s : State) (v : Byte) (rest : List HostAccess),
    s.hostIn = .write 0x00 v :: rest → (∀ r ∈ opcodeRows, r.holds v = false) →
      step s = .next { s with hostIn := rest, cmd := v, refused := true, rcode := 1 }) ∧
  ∀ v : Byte,
    (v = 0x00 ∨ v.extractLsb' 4 4 ∈ [0x0#4, 0xC#4, 0xD#4, 0xE#4, 0xF#4] ∨
      (v.extractLsb' 4 4 ∈ [0x1#4, 0xB#4] ∧ v.extractLsb' 2 2 ≠ 0#2) ∨
      v ∈ [0x93#8, 0x94#8, 0x97#8] ∨ (0x98 ≤ v.toNat ∧ v.toNat ≤ 0x9F) ∨ (0xA2 ≤ v.toNat ∧ v.toNat ≤ 0xAF) ∨
      (v.extractLsb' 4 4 ∈ [0x2#4, 0x3#4, 0x5#4, 0x6#4, 0x7#4, 0x8#4] ∧ v.extractLsb' 0 4 ≠ 0#4)) →
    ∀ r ∈ opcodeRows, r.holds v = false

/-- R61, R62, R64: what a host read returns at each address, and that it changes nothing. (The mark of U6 is the model's own.) -/
def Obligations.HostReadReturnsMappedByte : Prop :=
  ∀ (s : State) (a : Byte) (rest : List HostAccess), s.hostIn = .read a :: rest →
    ∃ b : Byte,
      step s = .next { s with
        hostIn := rest, hostOut := s.hostOut ++ [b], unwrittenRead := s.unwrittenRead || unwritten a.toNat s } ∧
      (a = 0x00 → b = s.cmd) ∧ (a = 0x01 → b = s.arg) ∧ (a = 0x02 → b = s.ptr) ∧ (a = 0x03 → b = statusByte s) ∧
      (a = 0x04 → b = s.result) ∧ (a = 0x05 → b.toNat = s.count.toNat % 256) ∧ (a = 0x06 → b.toNat = s.count.toNat / 256) ∧
      (a = 0x07 → b = featuresByte s.cfg) ∧ (∀ i : Fin 8, a.toNat = 0x08 + i.val → b = s.rom[i]) ∧
      (a = 0x10 → b.toNat = s.cfg.retry.toNat % 256) ∧ (a = 0x11 → b.toNat = s.cfg.retry.toNat / 256) ∧
      (0x12 ≤ a.toNat ∧ a.toNat ≤ 0x7F → b = 0x00) ∧
      (∀ x, 0x80 ≤ a.toNat → s.mem.lookup a.toNat = some x → b = x)

/-- R62: "reading the same address twice with no write between returns the same byte", unwritten bytes too. -/
def Obligations.HostReadRepeats : Prop :=
  ∀ (s : State) (a : Byte) (rest : List HostAccess), s.hostIn = .read a :: .read a :: rest →
    ∃ (t u : State) (b : Byte), step s = .next t ∧ step t = .next u ∧ u.hostOut = s.hostOut ++ [b, b]

/-- R63: what a host write does at each address. A `BUF` write is read back and leaves every other byte alone. -/
def Obligations.HostWriteTakesEffect : Prop :=
  ∀ (s : State) (a v : Byte) (rest : List HostAccess), s.hostIn = .write a v :: rest →
    (a = 0x00 → ∀ i, decode v = .ok i → step s = exec i { s with hostIn := rest, cmd := v }) ∧
    (a = 0x00 → ∀ r, decode v = .error r → step s = .next { s with hostIn := rest, cmd := v, refused := true, rcode := 1 }) ∧
    (a = 0x01 → step s = .next { s with hostIn := rest, arg := v }) ∧
    (a = 0x02 → step s = .next { s with hostIn := rest, ptr := v }) ∧
    (∀ i : Fin 8, a.toNat = 0x08 + i.val → step s = .next { s with
      hostIn := rest, rom := s.rom.set i v, romWritten := s.romWritten.set i true }) ∧
    (0x80 ≤ a.toNat → ∃ t, step s = .next t ∧ t = { s with hostIn := rest, mem := t.mem } ∧
      peek a.toNat t = v ∧ unwritten a.toNat t = false ∧ ∀ b, b ≠ a.toNat → peek b t = peek b s ∧ unwritten b t = unwritten b s) ∧
    ((0x03 ≤ a.toNat ∧ a.toNat ≤ 0x07) ∨ (0x10 ≤ a.toNat ∧ a.toNat ≤ 0x7F) → step s = .next { s with hostIn := rest })

/-- R25, R26: the bits of `STATUS` and `FEATURES`. -/
def Obligations.StatusAndFeaturesBits : Prop :=
  ∀ s : State,
    (statusByte s).getLsbD 0 = s.refused ∧ (statusByte s).getLsbD 1 = s.crit ∧
    ((statusByte s).getLsbD 2 = true ↔ s.mode = .driven) ∧ (statusByte s).getLsbD 3 = s.out ∧
    (statusByte s).getLsbD 4 = s.pu ∧ (statusByte s).extractLsb' 5 3 = s.rcode ∧
    (featuresByte s.cfg).getLsbD 0 = s.cfg.hasEnum ∧ (featuresByte s.cfg).getLsbD 1 = (s.cfg.hasApu && s.cfg.hasPuPin) ∧
    (featuresByte s.cfg).extractLsb' 2 6 = 0

/-! ### Bit Transport -/

/-- R120, R121: `WRITE_BIT` for each `v` and `h`, its events and the state after. -/
def Obligations.WriteBitEffect : Prop :=
  ∀ (h v : Bool) (s : State), exec (.writeBit h v) s = .next { s with
    refused := false, rcode := 0, holdViolation := s.holdViolation || pullupHeld s,
    mode := .floating, out := true, crit := h, env := (lineEnv s).afterWrite v,
    trace := s.trace ++ [.enterCritical, .driveLow, .setDriven, .delay (if v then s.cfg.tW1Low else s.cfg.tW0Low), .driveHigh,
      .delay (if v then s.cfg.tW1Rel else s.cfg.tW0Rel), .setFloating] ++ if h then [] else [.exitCritical] }

/-- R122, R123: `READ_BIT`, whatever level the environment answers. (Environment and sample counter are the model's own, Log 4; the mark
is that of R285.) -/
def Obligations.ReadBitEffect : Prop :=
  ∀ s : State, ∃ l : Level, l = (lineEnv s).answer .slot s.pinReads ∧ exec .readBit s = .next { s with
    refused := false, rcode := 0, holdViolation := s.holdViolation || pullupHeld s,
    result := if l then 0x01 else 0x00, mode := .floating, out := false, crit := false,
    env := (lineEnv s).afterRead .slot, pinReads := s.pinReads + 1,
    trace := s.trace ++ [.enterCritical, .driveLow, .setDriven, .delay s.cfg.tRLow, .setFloating, .delay s.cfg.tRWait, .readPin l,
      .exitCritical, .delay s.cfg.tRRest] }

/-! ### Bus Sequencer -/

/-- R140, R141: `RESET` in any environment. Either some sample `j + 1 <= RETRY` was high, the pulse went out and `RESULT` says
whether the presence sample `p` was low; or `RETRY` samples were low, nothing but the wait happened, and `RESULT` is 0. -/
def Obligations.ResetOutcomes : Prop :=
  ∀ s : State, ∃ t : State, exec .reset s = .next t ∧
    t = { s with
      refused := false, rcode := 0, holdViolation := s.holdViolation || pullupHeld s, result := t.result, mode := .floating,
      out := t.out, crit := t.crit, env := t.env, pinReads := t.pinReads, trace := t.trace } ∧
    ((∃ (j : Nat) (p : Level), j < s.cfg.retry.toNat ∧ t.result = (if p then 0x00 else 0x01) ∧ t.out = false ∧ t.crit = false ∧
        t.trace = s.trace ++ (.setFloating :: (List.replicate j [.readPin false, .delay s.cfg.tPoll]).flatten ++
          [.readPin true, .enterCritical, .driveLow, .setDriven, .delay s.cfg.tRstLow, .setFloating, .delay s.cfg.tRstWait,
            .readPin p, .exitCritical, .delay s.cfg.tRstRec])) ∨
      (t.result = 0x00 ∧ t.out = s.out ∧ t.crit = s.crit ∧
        t.trace = s.trace ++ (.setFloating :: (List.replicate s.cfg.retry.toNat [.readPin false, .delay s.cfg.tPoll]).flatten)))

/-- R141: "a line that goes high on the `j`-th sample costs `j` samples and `j - 1` poll delays", and one that is low for `RETRY`
samples costs those and fails, on the answers of a script. -/
def Obligations.ResetOnScript : Prop :=
  (∀ (s : State) (j : Nat) (p d : Level) (ls : List Level), s.lineDefined → j < s.cfg.retry.toNat →
    s.env = .script (List.replicate j false ++ true :: p :: ls) d →
    exec .reset s = .next { s with
      refused := false, rcode := 0, holdViolation := s.holdViolation || pullupHeld s,
      result := if p then 0x00 else 0x01, mode := .floating, out := false, crit := false, env := .script ls d,
      pinReads := s.pinReads + j + 2, trace := s.trace ++ resetEvents s.cfg j p }) ∧
  ∀ (s : State) (d : Level) (ls : List Level), s.lineDefined → s.env = .script (List.replicate s.cfg.retry.toNat false ++ ls) d →
    exec .reset s = .next { s with
      refused := false, rcode := 0, holdViolation := s.holdViolation || pullupHeld s, result := 0x00, mode := .floating,
      env := .script ls d, pinReads := s.pinReads + s.cfg.retry.toNat, trace := s.trace ++ deadResetEvents s.cfg }

/-- R142, R143, R67: `WRITE_BYTE` sends the bits of `ARG`, bit 0 first, in eight slots that hold nothing, and ends released. -/
def Obligations.WriteByteEffect : Prop :=
  ∀ s : State, exec (.writeByte false) s = .next { s with
    refused := false, rcode := 0, holdViolation := s.holdViolation || pullupHeld s, mode := .floating, out := true, crit := false,
    env := (List.range 8).foldl (fun e i => e.afterWrite (s.arg.getLsbD i)) (lineEnv s),
    trace := s.trace ++ (List.range 8).flatMap (fun i => writeSlot s.cfg (s.arg.getLsbD i) false) }

/-- R142, R144: `WRITE_BYTE PULLUP`. Only the eighth slot holds, and the pull-up follows at once: the FET with the pin floating
when `APU`, a plain driven high otherwise. -/
def Obligations.WriteBytePullupEffect : Prop :=
  ∀ s : State, exec (.writeByte true) s = .next { s with
    refused := false, rcode := 0, holdViolation := s.holdViolation || pullupHeld s,
    mode := if s.cfg.apu then .floating else .driven, out := true, crit := true, pu := if s.cfg.apu then true else s.pu,
    env := (List.range 8).foldl (fun e i => e.afterWrite (s.arg.getLsbD i)) (lineEnv s),
    trace := s.trace ++ (List.range 8).flatMap (fun i => writeSlot s.cfg (s.arg.getLsbD i) (i == 7)) ++
      if s.cfg.apu then [.pullupOn] else [.driveHigh, .setDriven] }

/-- R145, R146: `READ_BYTE` takes eight answers `ls`, whatever they are, and `RESULT` is the byte whose bit `i` is `ls[i]`. (Environment
and sample counter are the model's own, Log 4; the mark is that of R285.) -/
def Obligations.ReadByteEffect : Prop :=
  ∀ s : State, ∃ (ls : List Level) (e : Env), ls.length = 8 ∧ exec .readByte s = .next { s with
    refused := false, rcode := 0, holdViolation := s.holdViolation || pullupHeld s,
    result := BitVec.ofNat 8 ((List.range 8).map (fun i => if ls.getD i false then 2 ^ i else 0)).sum,
    mode := .floating, out := false, crit := false, env := e, pinReads := s.pinReads + 8,
    trace := s.trace ++ ls.flatMap (readSlot s.cfg) }

/-- R145, R67: when the environment answers the bits of a byte, bit 0 first, `READ_BYTE` reads that byte. -/
def Obligations.ReadByteOnScript : Prop :=
  ∀ (s : State) (x : Byte) (ls : List Level) (d : Level), s.lineDefined → s.env = .script ((List.range 8).map x.getLsbD ++ ls) d →
    ∃ t, exec .readByte s = .next t ∧ t.result = x ∧ t.env = .script ls d

/-- S1 item 2 (vector V19): a byte written to a loopback bus is read back. (That the loopback bus learns the bit from the write slot and
not from its first `Delay` is the model's choice, Log 5; the two agree while `T_W1_LOW` and `T_W0_LOW` differ.) -/
def Obligations.LoopbackRoundTrip : Prop :=
  ∀ s : State, s.lineDefined → s.env = .loopback [] →
    ∃ t u, exec (.writeByte false) s = .next t ∧ exec .readByte t = .next u ∧ u.result = s.arg ∧ u.env = .loopback []

/-- R147, R148, R71: `WRITE_BYTES` in range sends `BUF[p..p+n-1]` in ascending order; of length 0 it does nothing at all. -/
def Obligations.WriteBytesEffect : Prop :=
  ∀ s : State, s.ptr.toNat + s.arg.toNat ≤ 128 →
    (s.arg = 0 → exec .writeBytes s = .next { s with refused := false, rcode := 0 }) ∧
    (s.arg ≠ 0 → ∃ e : Env, exec .writeBytes s = .next { s with
      refused := false, rcode := 0, holdViolation := s.holdViolation || pullupHeld s, mode := .floating, out := true,
      crit := false, env := e,
      unwrittenRead := s.unwrittenRead || (List.range s.arg.toNat).any (fun j => unwritten (0x80 + s.ptr.toNat + j) s),
      trace := s.trace ++ (List.range s.arg.toNat).flatMap (fun j => writeByteEvents s.cfg (peek (0x80 + s.ptr.toNat + j) s)) })

/-- R149, R150, R71: `READ_BYTES` in range takes eight answers for each byte and stores the bytes at `BUF[p]`, `BUF[p+1]`, ...;
every other byte reads as before. -/
def Obligations.ReadBytesEffect : Prop :=
  ∀ s : State, s.ptr.toNat + s.arg.toNat ≤ 128 →
    (s.arg = 0 → exec .readBytes s = .next { s with refused := false, rcode := 0 }) ∧
    (s.arg ≠ 0 → ∃ (t : State) (lss : List (List Level)), exec .readBytes s = .next t ∧
      lss.length = s.arg.toNat ∧ (∀ ls ∈ lss, ls.length = 8) ∧
      t = { s with
        refused := false, rcode := 0, holdViolation := s.holdViolation || pullupHeld s, mode := .floating, out := false,
        crit := false, mem := t.mem, env := t.env, pinReads := t.pinReads,
        trace := s.trace ++ lss.flatten.flatMap (readSlot s.cfg) } ∧
      (∀ (j : Nat) (h : j < lss.length), peek (0x80 + s.ptr.toNat + j) t = byteOfWire lss[j] ∧
        unwritten (0x80 + s.ptr.toNat + j) t = false) ∧
      ∀ a, a < 0x80 + s.ptr.toNat ∨ 0x80 + s.ptr.toNat + s.arg.toNat ≤ a →
        peek a t = peek a s ∧ unwritten a t = unwritten a s)

/-- R151, R152: `RELEASE_PULLUP` from any state. Where `PU` is 0 without `APU` (R29, the invariant), the block is idle after it. -/
def Obligations.ReleasePullupEffect : Prop :=
  ∀ s : State, exec .releasePullup s = .next { s with
      refused := false, rcode := 0, mode := .floating, crit := false, pu := if s.cfg.apu then false else s.pu,
      trace := s.trace ++ (if s.cfg.apu then [.pullupOff] else []) ++ [.setFloating, .exitCritical] } ∧
    ((s.pu = true → s.cfg.apu = true) → ∃ t, exec .releasePullup s = .next t ∧ t.idle)

/-! ### ROM commands -/

/-- R170, R171, R173, R174: `ROM_SINGLE` and `ROM_SKIP` do a bus reset, whatever its result, and send their byte; no register is
written. -/
def Obligations.RomSingleAndSkipSend : Prop :=
  ∀ (s : State) (i : Instr) (x : Byte), (i = .romSingle ∧ x = 0x33) ∨ (i = .romSkip ∧ x = 0xCC) →
    ∃ (es : List PortEvent) (ok : Bool) (e : Env) (k : Nat), isReset s.cfg es ok ∧ exec i s = .next { s with
      refused := false, rcode := 0, holdViolation := s.holdViolation || pullupHeld s, mode := .floating, out := true,
      crit := false, env := e, pinReads := k, trace := s.trace ++ es ++ writeByteEvents s.cfg x }

/-- R170, R172: `ROM_MATCH` does the same with 0x55 and then sends `ROM[0]` to `ROM[7]`. -/
def Obligations.RomMatchSends : Prop :=
  ∀ s : State, ∃ (es : List PortEvent) (ok : Bool) (e : Env) (k : Nat), isReset s.cfg es ok ∧ exec .romMatch s = .next { s with
    refused := false, rcode := 0, holdViolation := s.holdViolation || pullupHeld s, mode := .floating, out := true,
    crit := false, env := e, pinReads := k, unwrittenRead := s.unwrittenRead || s.romWritten.toList.any (!·),
    trace := s.trace ++ es ++ writeByteEvents s.cfg 0x55 ++ s.rom.toList.flatMap (writeByteEvents s.cfg) }

/-- R98, R176, R177: the overdrive commands are refused with code 2 and do nothing else. -/
def Obligations.OverdriveRefused : Prop :=
  ∀ s : State, exec .odSkip s = .next { s with refused := true, rcode := 2 } ∧
    exec .odMatch s = .next { s with refused := true, rcode := 2 }

/-! ### CRC-8 -/

/-- R187: the fold of data and checksum is 0 exactly when the checksum is the CRC of the data. -/
def Obligations.CrcValidIffEqual : Prop :=
  ∀ (d : List Byte) (e : Byte), (crc8Valid d e = true ↔ crcStep (crc8 d) e = 0x00) ∧ (crc8Valid d e = true ↔ crc8 d = e)

/-- R191: appending the checksum folds to zero, and every single-bit error in data or checksum is detected. -/
def Obligations.CrcDetectsSingleBitErrors : Prop :=
  (∀ d : List Byte, crc8 (d ++ [crc8 d]) = 0x00) ∧
    ∀ (d : List Byte) (j k : Nat) (h : j < d.length), crc8 d = 0x00 → k < 8 → crc8 (d.set j (d[j] ^^^ (1#8 <<< k))) ≠ 0x00

/-- R192: the all-zero sequence is valid. -/
def Obligations.CrcOfZeros : Prop :=
  (∀ n : Nat, crc8 (List.replicate n 0x00) = 0x00) ∧ idValid zeroId = true

/-- R188: `CRC8_CHECK` in range. -/
def Obligations.Crc8CheckEffect : Prop :=
  ∀ s : State, s.ptr.toNat + s.arg.toNat + 1 ≤ 128 →
    ∃ (d : List Byte) (e : Byte),
      d = (List.range s.arg.toNat).map (fun j => peek (0x80 + s.ptr.toNat + j) s) ∧
      e = peek (0x80 + s.ptr.toNat + s.arg.toNat) s ∧
      exec .crc8Check s = .next { s with
        refused := false, rcode := 0, result := if crc8 d = e then 0x01 else 0x00,
        unwrittenRead := s.unwrittenRead ||
          (List.range (s.arg.toNat + 1)).any (fun j => unwritten (0x80 + s.ptr.toNat + j) s) }

/-- R189, R190: `CRC8_ROM`. -/
def Obligations.Crc8RomEffect : Prop :=
  ∀ s : State, exec .crc8Rom s = .next { s with
    refused := false, rcode := 0, result := if crc8 s.rom.toList = 0x00 then 0x01 else 0x00,
    unwrittenRead := s.unwrittenRead || s.romWritten.toList.any (!·) }

/-! ### Refusals -/

/-- R247: which command is refused with which code; an accepted one leaves 0. (Code 1 is the decoder's: UnmatchedByteRefused.) -/
def Obligations.RefusalCodes : Prop :=
  ∀ (i : Instr) (s t : State), exec i s = .next t →
    (t.refused = true ↔ t.rcode ≠ 0) ∧
    (t.rcode = 2 ↔ i = .odSkip ∨ i = .odMatch) ∧
    (t.rcode = 3 ↔ ((i = .writeBytes ∨ i = .readBytes) ∧ s.ptr.toNat + s.arg.toNat > 128) ∨
      (i = .crc8Check ∧ s.ptr.toNat + s.arg.toNat + 1 > 128)) ∧
    (t.rcode = 4 ↔ (∃ sink alarm, i = .discover sink alarm) ∧ s.cfg.hasEnum = false) ∧
    t.rcode ∈ [0, 2, 3, 4]

/-- R246: a refused command has done nothing but set `REFUSED` and `RCODE`; an accepted one has cleared both. -/
def Obligations.RefusalIsPrecise : Prop :=
  ∀ (i : Instr) (s t : State), exec i s = .next t →
    (t.refused = true ∧ t = { s with refused := true, rcode := t.rcode }) ∨ (t.refused = false ∧ t.rcode = 0)

/-- R71, R148, R150, R188: a range that leaves the buffer is refused with code 3 before any access. -/
def Obligations.BufferRangeRefused : Prop :=
  ∀ s : State,
    (s.ptr.toNat + s.arg.toNat > 128 → exec .writeBytes s = .next { s with refused := true, rcode := 3 } ∧
      exec .readBytes s = .next { s with refused := true, rcode := 3 }) ∧
    (s.ptr.toNat + s.arg.toNat + 1 > 128 → exec .crc8Check s = .next { s with refused := true, rcode := 3 })

/-! ### The enumerator -/

/-- R202, R243: without a sink `DISCOVER` gives 0 with no bus activity; without an enumerator it is refused with code 4. -/
def Obligations.DiscoverWithoutSinkOrEnumerator : Prop :=
  ∀ (s : State) (alarm : Bool),
    (s.cfg.hasEnum = true → exec (.discover false alarm) s = .next { s with refused := false, rcode := 0, count := 0 }) ∧
    (s.cfg.hasEnum = false → ∀ sink, exec (.discover sink alarm) s = .next { s with refused := true, rcode := 4 })

/-- R202, R23, R204, R245: `DISCOVER SINK` in any environment completes. The identifiers `ids` it reports are all valid, and `COUNT`
is their number, saturated; only the pins, `COUNT` and the status change, and the Enumeration State is gone. -/
def Obligations.DiscoverCountsReports : Prop :=
  ∀ (s : State) (alarm : Bool), s.cfg.hasEnum = true →
    ∃ (t : State) (ids : List Identifier), exec (.discover true alarm) s = .next t ∧
      reports t.trace = reports s.trace ++ ids ∧ (∀ id ∈ ids, crc8 id.toList = 0x00) ∧
      t.count.toNat = min ids.length 0xFFFF ∧
      t = { s with
        refused := false, rcode := 0, holdViolation := s.holdViolation || pullupHeld s, count := t.count, mode := .floating,
        out := t.out, crit := t.crit, enum := none, env := t.env, pinReads := t.pinReads, trace := t.trace }

/-- R201: a pass begins with a bus reset; if it fails `COUNT` is 0 and nothing else happened on the bus; if not, the search byte
0xF0 or 0xEC follows. -/
def Obligations.DiscoverBeginsWithReset : Prop :=
  ∀ (s : State) (alarm : Bool), s.cfg.hasEnum = true →
    ∃ (t : State) (es : List PortEvent) (ok : Bool), exec (.discover true alarm) s = .next t ∧ isReset s.cfg es ok ∧
      (ok = false → t.trace = s.trace ++ es ∧ t.count = 0) ∧
      (ok = true → s.trace ++ es ++ writeByteEvents s.cfg (if alarm then 0xEC else 0xF0) <+: t.trace)

/-- R203, R206, R217 with one device (vector V42) on the model's `DeviceBus` (Log 5): the exact events of the pass, and the report if the identifier is valid. -/
def Obligations.DiscoverSingleDevice : Prop :=
  ∀ (s : State) (id : Identifier) (al : Bool) (st : DeviceState), s.lineDefined → s.cfg.hasEnum = true → 0 < s.cfg.retry.toNat →
    s.env = .deviceBus { devs := [{ id := id, alarmed := al, state := st }] } →
    ∃ t, exec (.discover true false) s = .next t ∧
      t.count = (if idValid id then 1 else 0) ∧ t.pinReads = s.pinReads + 130 ∧
      t.trace = s.trace ++ resetEvents s.cfg 0 false ++ writeByteEvents s.cfg 0xF0 ++
        (List.range 64).flatMap (fun k => readSlot s.cfg (idBit id k) ++ readSlot s.cfg (!idBit id k) ++
          writeSlot s.cfg (idBit id k) false) ++
        if idValid id then [.report id] else []

/-- R214, R210, R218, S1 items 5 to 7, on the model's `DeviceBus` (Log 5): on a bus of well-behaved devices with distinct identifiers, `DISCOVER` reports the
identifiers of the devices taking part, each once, in the order of R214, less those whose CRC is wrong; when the devices vanish at
bus reset `V`, only the first `V` paths are walked. -/
def Obligations.DiscoverFindsTheDevices : Prop :=
  ∀ (s : State) (b : DeviceBus) (alarm : Bool) (l : List Identifier), s.lineDefined → s.cfg.hasEnum = true → 0 < s.cfg.retry.toNat →
    s.env = .deviceBus b → l.Perm (participants alarm b) → l.Pairwise idBefore →
    ∃ (t : State) (ids : List Identifier), exec (.discover true alarm) s = .next t ∧
      ids = ((match b.vanish with
        | none => l
        | some v => l.take (v - b.resets)).filter idValid) ∧
      reports t.trace = reports s.trace ++ ids ∧ t.count.toNat = min ids.length 0xFFFF

/-- R217, on the model's `DeviceBus` (Log 5): the cost of a pass over `N >= 1` well-behaved devices of distinct identifiers: `130 N` samples (two for each of `N`
resets, `128 N` read slots), `72 N` write slots (each drives high once), `N` resets (each slot and each reset leaves its critical
section once). -/
def Obligations.DiscoverCost : Prop :=
  ∀ (s : State) (b : DeviceBus) (alarm : Bool) (l : List Identifier), s.lineDefined → s.cfg.hasEnum = true → 0 < s.cfg.retry.toNat →
    s.env = .deviceBus b → b.vanish = none → l.Perm (participants alarm b) → l.Pairwise idBefore → l ≠ [] →
    ∃ (t : State) (es : List PortEvent), exec (.discover true alarm) s = .next t ∧ t.trace = s.trace ++ es ∧
      t.pinReads = s.pinReads + 130 * l.length ∧ es.count .driveHigh = 72 * l.length ∧
      es.count .exitCritical = (1 + 128 + 72) * l.length

/-- R218, R205 (vector V46), on the model's `DeviceBus` (Log 5): devices are present but none is alarmed; an alarm search ends at its first pair. -/
def Obligations.AlarmSearchFindsNobody : Prop :=
  ∀ (s : State) (b : DeviceBus), s.lineDefined → s.cfg.hasEnum = true → 0 < s.cfg.retry.toNat → s.env = .deviceBus b → b.present = true →
    b.devs ≠ [] → (∀ d ∈ b.devs, d.alarmed = false) →
    ∃ t, exec (.discover true true) s = .next t ∧ t.count = 0 ∧
      t.trace = s.trace ++ resetEvents s.cfg 0 false ++ writeByteEvents s.cfg 0xEC ++ readSlot s.cfg true ++ readSlot s.cfg true

/-- R219 (vector V48): the line is low after the first sample (scripted answers, Log 5). -/
def Obligations.StuckLowLineReportsZero : Prop :=
  ∀ s : State, s.lineDefined → s.cfg.hasEnum = true → 0 < s.cfg.retry.toNat → s.env = .script [true] false →
    ∃ t, exec (.discover true false) s = .next t ∧ t.count = 1 ∧
      t.trace = s.trace ++ resetEvents s.cfg 0 false ++ writeByteEvents s.cfg 0xF0 ++
        (List.replicate 64 (readSlot s.cfg false ++ readSlot s.cfg false ++ writeSlot s.cfg false false)).flatten ++
        [.report zeroId] ++ (List.replicate 64 (deadResetEvents s.cfg)).flatten

/-- R204: at depth 64 the identifier is reported and counted if its CRC is right, and dropped without a word if not. -/
def Obligations.SearchEndsAtDepth64 : Prop :=
  ∀ (s : State) (e : Enumeration), s.enum = some e →
    search 0 s = { s with
      trace := s.trace ++ (if crc8 e.id.toList = 0x00 then [.report e.id] else []),
      enum := some { e with depth := 64, count := e.count + (if crc8 e.id.toList = 0x00 then 1 else 0) } }

/-- R203, R205 to R207: below depth 64 the search reads a pair `(a, b)`, in any environment. `(1, 1)` is a dead end: nothing else is
written, recorded or reported. Otherwise the next slot writes the recorded bit: `a` where the pair agrees, 0 on a collision. -/
def Obligations.SearchFollowsThePair : Prop :=
  ∀ (s : State) (e : Enumeration) (d : Nat), d < 64 → s.enum = some e →
    ∃ a b : Level, a = s.env.answer .slot s.pinReads ∧ b = (s.env.afterRead .slot).answer .slot (s.pinReads + 1) ∧
      (a = true → b = true → (search (64 - d) s).trace = s.trace ++ readSlot s.cfg a ++ readSlot s.cfg b ∧
        (search (64 - d) s).enum = some { e with depth := d }) ∧
      (a ≠ b → s.trace ++ readSlot s.cfg a ++ readSlot s.cfg b ++ writeSlot s.cfg a false <+: (search (64 - d) s).trace ∧
        getbit d (search (64 - d) s) = a) ∧
      (a = false → b = false →
        s.trace ++ readSlot s.cfg false ++ readSlot s.cfg false ++ writeSlot s.cfg false false <+: (search (64 - d) s).trace)

/-- R212 (b): `search(d)` changes `ENUMID` at bit `d` and above only. -/
def Obligations.SearchKeepsLowerBits : Prop :=
  ∀ (n k : Nat) (s : State), n ≤ 64 → k < 64 - n → getbit k (search n s) = getbit k s

/-- R213: the form without recursion "emits exactly the trace of rule R203"; it ends in the very same state. (The loop form has fuel 2^64,
the model's choice, Log 15; R240 gives that bound, and the statement says that the fuel is enough.) -/
def Obligations.LoopFormAgrees : Prop :=
  ∀ s : State, searchIter s = search 64 s

/-- R208, R215: the replay writes back the recorded bits, whatever pairs it reads, and records nothing. -/
def Obligations.ReplayWritesRecordedBits : Prop :=
  ∀ (d : Nat) (s : State), ∃ (f g : Nat → Level),
    (replay 0 d s).trace = s.trace ++ (List.range d).flatMap (fun i =>
      readSlot s.cfg (f i) ++ readSlot s.cfg (g i) ++ writeSlot s.cfg (getbit i s) false) ∧
    (replay 0 d s).enum = s.enum

/-! ### The whole machine -/

/-- Every step and every command ends in a next state. That an accepted command runs to its end is R240, and that a refused one has
done nothing is R246; that both are next states of the model, never faults or refusals of it, is the model's choice (Log 17), and so is
that a step with no access left to do is one that changes nothing (Log 1). -/
def Obligations.EveryStepCompletes : Prop :=
  (∀ s : State, ∃ t, step s = .next t) ∧ ∀ (i : Instr) (s : State), ∃ t, exec i s = .next t

/-- R38, R270: the values hardware reset leaves from any state, no event emitted (`ROM` excepted: Log 6 chooses it), and the same of
`State.reset`, whose trace is empty. -/
def Obligations.ResetValues : Prop :=
  (∀ s t : State, t = hardwareReset s ∨ (t = State.reset ∧ s.trace = []) →
    t.cmd = 0x00 ∧ t.arg = 0x00 ∧ t.ptr = 0x00 ∧ t.result = 0x00 ∧ t.count = 0x0000 ∧ t.refused = false ∧ t.rcode = 0 ∧
    t.mode = .floating ∧ t.out = false ∧ t.crit = false ∧ t.pu = false ∧ t.enum = none ∧ t.trace = s.trace ∧ t.idle ∧
    statusByte t = 0x00 ∧ (∀ i < 8, unwritten (0x08 + i) t = true) ∧ ∀ i < 128, unwritten (0x80 + i) t = true) ∧
  ∀ s : State, (hardwareReset s).cfg = s.cfg

/-- The state after reset meets the invariant. -/
def Obligations.ResetMeetsInvariant : Prop := State.reset.Inv

/-- Every step keeps the invariant: memory stays canonical, `PU` needs `APU` (R29), `REFUSED` and `RCODE` agree (R25, R247), no
Enumeration State outlives its command (R20), and the block is idle or in one of the two holds (R33) unless the mark shows a misuse;
with the mark the line is free (R285, Log 8). -/
def Obligations.StepKeepsInvariant : Prop :=
  ∀ s t : State, s.Inv → step s = .next t → t.Inv

/-- R21, R22, R23, R28, R76: no command writes `CMD`, `ARG`, `PTR`, `ROM` or the configuration; only five write `RESULT`, only
`DISCOVER` writes `COUNT`, only `READ_BYTES` writes `BUF`. -/
def Obligations.CommandsWriteOnlyTheirRegisters : Prop :=
  ∀ (i : Instr) (s t : State), exec i s = .next t →
    t.cmd = s.cmd ∧ t.arg = s.arg ∧ t.ptr = s.ptr ∧ t.rom = s.rom ∧ t.romWritten = s.romWritten ∧ t.cfg = s.cfg ∧
    t.hostIn = s.hostIn ∧ t.hostOut = s.hostOut ∧
    (i ∉ [.readBit, .reset, .readByte, .crc8Check, .crc8Rom] → t.result = s.result) ∧
    ((∀ sink alarm, i ≠ .discover sink alarm) → t.count = s.count ∧ t.enum = s.enum) ∧
    (i ≠ .readBytes → ∀ a, peek a t = peek a s ∧ unwritten a t = unwritten a s)

/-- R33 (a): every command but `WRITE_BIT` with `h = 1` and `WRITE_BYTE` with `p = 1` ends idle if it started idle. -/
def Obligations.IdleCommandsEndIdle : Prop :=
  ∀ (i : Instr) (s t : State), exec i s = .next t → s.idle → (∀ v, i ≠ .writeBit true v) → i ≠ .writeByte true → t.idle

/-- R33 (b), (c): what `WRITE_BIT` with `h = 1` and `WRITE_BYTE` with `p = 1` leave when they start without a pull-up hold. -/
def Obligations.HoldingCommandsHold : Prop :=
  ∀ s : State, pullupHeld s = false →
    (∀ v, ∃ t, exec (.writeBit true v) s = .next t ∧ t.criticalHold) ∧ ∃ t, exec (.writeByte true) s = .next t ∧ t.pullupHold

/-- R37: no command consults a flag: "the event sequence of every command is a function of its operands, `Config`, the host registers it
names and the environment's answers only". Two states that differ in the flags and the mark only, with the same environment to answer,
end in states that differ there only; in particular the events are the same. The environment is the same unless just one of the two
runs has misused a hold (`lineEnv`, Log 8); `RELEASE_PULLUP` and the commands that emit no event do not ask it. -/
def Obligations.FlagsAreNotConsulted : Prop :=
  ∀ (i : Instr) (s s' : State) (m : PinMode) (o c p r v : Bool) (q : BitVec 3),
    s' = { s with mode := m, out := o, crit := c, pu := p, refused := r, rcode := q, holdViolation := v } →
    ∃ t u, exec i s = .next t ∧ exec i s' = .next u ∧
      (i = .releasePullup ∨ t.trace = s.trace ∨ lineEnv s' = lineEnv s →
        u = { t with mode := u.mode, out := u.out, crit := u.crit, pu := u.pu, holdViolation := u.holdViolation })

/-- R285: the mark is set exactly when a command other than `RELEASE_PULLUP` that emits a port event starts in a pull-up hold, and
is never cleared. -/
def Obligations.HoldViolationExactly : Prop :=
  ∀ (i : Instr) (s t : State), exec i s = .next t →
    (t.holdViolation = true ↔
      s.holdViolation = true ∨ ((s.pu = true ∨ s.mode = .driven) ∧ i ≠ .releasePullup ∧ t.trace ≠ s.trace))

/-- R13, R39: a step only appends to the trace, keeps the configuration, and never clears a mark. -/
def Obligations.StepOnlyAppendsToTrace : Prop :=
  ∀ s t : State, step s = .next t →
    s.trace <+: t.trace ∧ t.cfg = s.cfg ∧ s.hostOut <+: t.hostOut ∧ s.pinReads ≤ t.pinReads ∧
    (s.holdViolation = true → t.holdViolation = true) ∧ (s.unwrittenRead = true → t.unwrittenRead = true)

/-- R31, R282: identifiers leave by the sink only in a `DISCOVER` with a sink. -/
def Obligations.OnlyDiscoverReports : Prop :=
  ∀ (i : Instr) (s t : State), exec i s = .next t → (∀ alarm, i ≠ .discover true alarm) → reports t.trace = reports s.trace

/-- R250, R286: outside the holding forms a command leaves every critical section it enters: in the events of a command other than
`WRITE_BIT` with `h = 1`, `WRITE_BYTE` with `p = 1` and `RELEASE_PULLUP`, exits are as many as entries. -/
def Obligations.CriticalSectionsBalance : Prop :=
  ∀ (i : Instr) (s t : State), exec i s = .next t → (∀ v, i ≠ .writeBit true v) → i ≠ .writeByte true → i ≠ .releasePullup →
    ∃ es, t.trace = s.trace ++ es ∧ es.count .enterCritical = es.count .exitCritical

/-- R124, R291: the durations of what the commands emit, as sums of `Delay` arguments at the nominal figures. For a bus reset the number
of samples says on which one the line was idle. The last clause is a search transaction of 64 bits, on a bus of one device (the model's
data, Log 5). -/
def Obligations.NominalDurations : Prop :=
  ∀ s : State, nominal s.cfg →
    (∀ h v, ∃ t es, exec (.writeBit h v) s = .next t ∧ t.trace = s.trace ++ es ∧ busTime es = if v then 65 else 70) ∧
    (∃ t es, exec .readBit s = .next t ∧ t.trace = s.trace ++ es ∧ busTime es = 70) ∧
    (∃ t es, exec .reset s = .next t ∧ t.trace = s.trace ++ es ∧
      ((∃ j, j < s.cfg.retry.toNat ∧ t.pinReads = s.pinReads + j + 2 ∧ busTime es = 960 + 5 * j) ∨
        (t.pinReads = s.pinReads + s.cfg.retry.toNat ∧ t.result = 0x00 ∧ busTime es = 5 * s.cfg.retry.toNat))) ∧
    (∀ p, ∃ t es, exec (.writeByte p) s = .next t ∧ t.trace = s.trace ++ es ∧
      busTime es = 70 * 8 - 5 * (List.range 8).countP s.arg.getLsbD) ∧
    (∃ t es, exec .readByte s = .next t ∧ t.trace = s.trace ++ es ∧ busTime es = 560) ∧
    ∀ (id : Identifier) (al : Bool) (st : DeviceState), s.lineDefined → s.cfg.hasEnum = true → 0 < s.cfg.retry.toNat →
      s.env = .deviceBus { devs := [{ id := id, alarmed := al, state := st }] } →
      ∃ t es, exec (.discover true false) s = .next t ∧ t.trace = s.trace ++ es ∧
        busTime es = 960 + 540 + 64 * (140 + 70) - 5 * (List.range 64).countP (idBit id)

/-- R285: in a run that carries the mark nothing is known of the line: after any command that emits a port event, other than
`RELEASE_PULLUP`, and leaves the mark, every later answer is free (`Env.free`). So the claims about line and devices have the premise
`lineDefined`; and a command that ends with no mark started with none, and not in a pull-up hold if it used the bus. -/
def Obligations.MarkedRunHasNoKnownLine : Prop :=
  ∀ (i : Instr) (s t : State), exec i s = .next t →
    (t.holdViolation = true → t.trace ≠ s.trace → i ≠ .releasePullup → t.env = .free) ∧
    (s.env = .free → t.env = .free) ∧
    (t.clean → s.clean ∧ (t.trace ≠ s.trace → i ≠ .releasePullup → s.lineDefined))
end

