-- ==== Sys2Proof/Laws/Bits.lean ====
section
/-! SUPPORT. Bytes and identifiers bit by bit. -/

namespace Sys2Proof

theorem setBitOf_getLsbD (x : Byte) (i j : Nat) (b : Level) (hi : i < 8) :
    (setBitOf x i b).getLsbD j = if j = i then b else x.getLsbD j := by
  have hone : (1#8).getLsbD (j - i) = decide (j - i = 0) := by
    simp [BitVec.getLsbD_one]
  by_cases hj : j < 8
  · cases b <;> by_cases h : j = i <;> simp [setBitOf, h, hi, hj] <;> omega
  · have : j ≠ i := by omega
    cases b <;> simp [setBitOf, this, BitVec.getLsbD_of_ge _ _ (Nat.le_of_not_lt hj)]

theorem byteOfWire_wireBits (x : Byte) : byteOfWire (wireBits x) = x := by
  revert x; decide

theorem wireBits_byteOfWire {bs : List Level} (h : bs.length = 8) : wireBits (byteOfWire bs) = bs := by
  match bs, h with
  | [a, b, c, d, e, f, g, i], _ =>
    cases a <;> cases b <;> cases c <;> cases d <;> cases e <;> cases f <;> cases g <;> cases i <;> decide

@[simp] theorem wireBits_length (x : Byte) : (wireBits x).length = 8 := rfl

theorem wireBits_split (x : Byte) : (wireBits x).take 7 ++ [x.getLsbD 7] = wireBits x := rfl

/-- `setbit` records its bit, and "the other 63 bits keep their values" (R211). -/
theorem idBit_setIdBit (id : Identifier) (k j : Nat) (v : Level) (hk : k < 64) (hj : j < 64) :
    idBit (setIdBit id k v) j = if j = k then v else idBit id j := by
  have h8 : k / 8 < 8 := by omega
  simp only [idBit, setIdBit]
  by_cases h : j / 8 = k / 8
  · have hget : (id.setIfInBounds (k / 8) (setBitOf (id.getD (k / 8) 0) (k % 8) v)).getD (j / 8) 0
        = setBitOf (id.getD (k / 8) 0) (k % 8) v := by
      simp [Vector.getD, h, h8]
    rw [hget, setBitOf_getLsbD _ _ _ _ (Nat.mod_lt _ (by omega))]
    by_cases hjk : j = k
    · simp [hjk]
    · have : j % 8 ≠ k % 8 := by omega
      simp [hjk, this, h]
  · have hjk : j ≠ k := by rintro rfl; exact h rfl
    have hj8 : j / 8 < 8 := by omega
    have hget : (id.setIfInBounds (k / 8) (setBitOf (id.getD (k / 8) 0) (k % 8) v)).getD (j / 8) 0 = id.getD (j / 8) 0 := by
      simp [Vector.getD, hj8, Ne.symm h]
    rw [hget, if_neg hjk]

/-- An identifier is its 64 bits. -/
theorem id_ext {x y : Identifier} (h : ∀ k < 64, idBit x k = idBit y k) : x = y := by
  refine Vector.ext fun i hi => ?_
  refine BitVec.eq_of_getLsbD_eq fun j hj => ?_
  have := h (8 * i + j) (by omega)
  have hd : (8 * i + j) / 8 = i := by omega
  have hm : (8 * i + j) % 8 = j := by omega
  simpa [idBit, hd, hm, Vector.getD, hi] using this

@[simp] theorem idBit_zeroId (k : Nat) : idBit zeroId k = false := by
  by_cases h : k / 8 < 8 <;> simp [idBit, zeroId, Vector.getD, h]

end Sys2Proof
end

