-- ==== Sys2Proof/Laws/State.lean ====
section
/-! SUPPORT. What each primitive update does to each field of State: one lemma each, true by unfolding. -/

namespace Sys2Proof.Machine

@[simp] theorem emit_cfg (e : PortEvent) (s : State) : (emit e s).cfg = s.cfg := rfl
@[simp] theorem emit_cmd (e : PortEvent) (s : State) : (emit e s).cmd = s.cmd := rfl
@[simp] theorem emit_arg (e : PortEvent) (s : State) : (emit e s).arg = s.arg := rfl
@[simp] theorem emit_ptr (e : PortEvent) (s : State) : (emit e s).ptr = s.ptr := rfl
@[simp] theorem emit_result (e : PortEvent) (s : State) : (emit e s).result = s.result := rfl
@[simp] theorem emit_count (e : PortEvent) (s : State) : (emit e s).count = s.count := rfl
@[simp] theorem emit_refused (e : PortEvent) (s : State) : (emit e s).refused = s.refused := rfl
@[simp] theorem emit_rcode (e : PortEvent) (s : State) : (emit e s).rcode = s.rcode := rfl
@[simp] theorem emit_rom (e : PortEvent) (s : State) : (emit e s).rom = s.rom := rfl
@[simp] theorem emit_mem (e : PortEvent) (s : State) : (emit e s).mem = s.mem := rfl
@[simp] theorem emit_mode (e : PortEvent) (s : State) : (emit e s).mode = s.mode := rfl
@[simp] theorem emit_out (e : PortEvent) (s : State) : (emit e s).out = s.out := rfl
@[simp] theorem emit_crit (e : PortEvent) (s : State) : (emit e s).crit = s.crit := rfl
@[simp] theorem emit_pu (e : PortEvent) (s : State) : (emit e s).pu = s.pu := rfl
@[simp] theorem emit_enum (e : PortEvent) (s : State) : (emit e s).enum = s.enum := rfl
@[simp] theorem emit_trace (e : PortEvent) (s : State) : (emit e s).trace = s.trace ++ [e] := rfl
@[simp] theorem emit_env (e : PortEvent) (s : State) : (emit e s).env = s.env := rfl
@[simp] theorem emit_pinReads (e : PortEvent) (s : State) : (emit e s).pinReads = s.pinReads := rfl
@[simp] theorem emit_hostIn (e : PortEvent) (s : State) : (emit e s).hostIn = s.hostIn := rfl
@[simp] theorem emit_hostOut (e : PortEvent) (s : State) : (emit e s).hostOut = s.hostOut := rfl
@[simp] theorem emit_romWritten (e : PortEvent) (s : State) : (emit e s).romWritten = s.romWritten := rfl
@[simp] theorem emit_holdViolation (e : PortEvent) (s : State) : (emit e s).holdViolation = s.holdViolation := rfl
@[simp] theorem emit_unwrittenRead (e : PortEvent) (s : State) : (emit e s).unwrittenRead = s.unwrittenRead := rfl

@[simp] theorem setFloating_cfg (s : State) : (setFloating s).cfg = s.cfg := rfl
@[simp] theorem setFloating_cmd (s : State) : (setFloating s).cmd = s.cmd := rfl
@[simp] theorem setFloating_arg (s : State) : (setFloating s).arg = s.arg := rfl
@[simp] theorem setFloating_ptr (s : State) : (setFloating s).ptr = s.ptr := rfl
@[simp] theorem setFloating_result (s : State) : (setFloating s).result = s.result := rfl
@[simp] theorem setFloating_count (s : State) : (setFloating s).count = s.count := rfl
@[simp] theorem setFloating_refused (s : State) : (setFloating s).refused = s.refused := rfl
@[simp] theorem setFloating_rcode (s : State) : (setFloating s).rcode = s.rcode := rfl
@[simp] theorem setFloating_rom (s : State) : (setFloating s).rom = s.rom := rfl
@[simp] theorem setFloating_mem (s : State) : (setFloating s).mem = s.mem := rfl
@[simp] theorem setFloating_mode (s : State) : (setFloating s).mode = .floating := rfl
@[simp] theorem setFloating_out (s : State) : (setFloating s).out = s.out := rfl
@[simp] theorem setFloating_crit (s : State) : (setFloating s).crit = s.crit := rfl
@[simp] theorem setFloating_pu (s : State) : (setFloating s).pu = s.pu := rfl
@[simp] theorem setFloating_enum (s : State) : (setFloating s).enum = s.enum := rfl
@[simp] theorem setFloating_trace (s : State) : (setFloating s).trace = s.trace ++ [.setFloating] := rfl
@[simp] theorem setFloating_env (s : State) : (setFloating s).env = s.env := rfl
@[simp] theorem setFloating_pinReads (s : State) : (setFloating s).pinReads = s.pinReads := rfl
@[simp] theorem setFloating_hostIn (s : State) : (setFloating s).hostIn = s.hostIn := rfl
@[simp] theorem setFloating_hostOut (s : State) : (setFloating s).hostOut = s.hostOut := rfl
@[simp] theorem setFloating_romWritten (s : State) : (setFloating s).romWritten = s.romWritten := rfl
@[simp] theorem setFloating_holdViolation (s : State) : (setFloating s).holdViolation = s.holdViolation := rfl
@[simp] theorem setFloating_unwrittenRead (s : State) : (setFloating s).unwrittenRead = s.unwrittenRead := rfl

@[simp] theorem setDriven_cfg (s : State) : (setDriven s).cfg = s.cfg := rfl
@[simp] theorem setDriven_cmd (s : State) : (setDriven s).cmd = s.cmd := rfl
@[simp] theorem setDriven_arg (s : State) : (setDriven s).arg = s.arg := rfl
@[simp] theorem setDriven_ptr (s : State) : (setDriven s).ptr = s.ptr := rfl
@[simp] theorem setDriven_result (s : State) : (setDriven s).result = s.result := rfl
@[simp] theorem setDriven_count (s : State) : (setDriven s).count = s.count := rfl
@[simp] theorem setDriven_refused (s : State) : (setDriven s).refused = s.refused := rfl
@[simp] theorem setDriven_rcode (s : State) : (setDriven s).rcode = s.rcode := rfl
@[simp] theorem setDriven_rom (s : State) : (setDriven s).rom = s.rom := rfl
@[simp] theorem setDriven_mem (s : State) : (setDriven s).mem = s.mem := rfl
@[simp] theorem setDriven_mode (s : State) : (setDriven s).mode = .driven := rfl
@[simp] theorem setDriven_out (s : State) : (setDriven s).out = s.out := rfl
@[simp] theorem setDriven_crit (s : State) : (setDriven s).crit = s.crit := rfl
@[simp] theorem setDriven_pu (s : State) : (setDriven s).pu = s.pu := rfl
@[simp] theorem setDriven_enum (s : State) : (setDriven s).enum = s.enum := rfl
@[simp] theorem setDriven_trace (s : State) : (setDriven s).trace = s.trace ++ [.setDriven] := rfl
@[simp] theorem setDriven_env (s : State) : (setDriven s).env = s.env := rfl
@[simp] theorem setDriven_pinReads (s : State) : (setDriven s).pinReads = s.pinReads := rfl
@[simp] theorem setDriven_hostIn (s : State) : (setDriven s).hostIn = s.hostIn := rfl
@[simp] theorem setDriven_hostOut (s : State) : (setDriven s).hostOut = s.hostOut := rfl
@[simp] theorem setDriven_romWritten (s : State) : (setDriven s).romWritten = s.romWritten := rfl
@[simp] theorem setDriven_holdViolation (s : State) : (setDriven s).holdViolation = s.holdViolation := rfl
@[simp] theorem setDriven_unwrittenRead (s : State) : (setDriven s).unwrittenRead = s.unwrittenRead := rfl

@[simp] theorem driveLow_cfg (s : State) : (driveLow s).cfg = s.cfg := rfl
@[simp] theorem driveLow_cmd (s : State) : (driveLow s).cmd = s.cmd := rfl
@[simp] theorem driveLow_arg (s : State) : (driveLow s).arg = s.arg := rfl
@[simp] theorem driveLow_ptr (s : State) : (driveLow s).ptr = s.ptr := rfl
@[simp] theorem driveLow_result (s : State) : (driveLow s).result = s.result := rfl
@[simp] theorem driveLow_count (s : State) : (driveLow s).count = s.count := rfl
@[simp] theorem driveLow_refused (s : State) : (driveLow s).refused = s.refused := rfl
@[simp] theorem driveLow_rcode (s : State) : (driveLow s).rcode = s.rcode := rfl
@[simp] theorem driveLow_rom (s : State) : (driveLow s).rom = s.rom := rfl
@[simp] theorem driveLow_mem (s : State) : (driveLow s).mem = s.mem := rfl
@[simp] theorem driveLow_mode (s : State) : (driveLow s).mode = s.mode := rfl
@[simp] theorem driveLow_out (s : State) : (driveLow s).out = false := rfl
@[simp] theorem driveLow_crit (s : State) : (driveLow s).crit = s.crit := rfl
@[simp] theorem driveLow_pu (s : State) : (driveLow s).pu = s.pu := rfl
@[simp] theorem driveLow_enum (s : State) : (driveLow s).enum = s.enum := rfl
@[simp] theorem driveLow_trace (s : State) : (driveLow s).trace = s.trace ++ [.driveLow] := rfl
@[simp] theorem driveLow_env (s : State) : (driveLow s).env = s.env := rfl
@[simp] theorem driveLow_pinReads (s : State) : (driveLow s).pinReads = s.pinReads := rfl
@[simp] theorem driveLow_hostIn (s : State) : (driveLow s).hostIn = s.hostIn := rfl
@[simp] theorem driveLow_hostOut (s : State) : (driveLow s).hostOut = s.hostOut := rfl
@[simp] theorem driveLow_romWritten (s : State) : (driveLow s).romWritten = s.romWritten := rfl
@[simp] theorem driveLow_holdViolation (s : State) : (driveLow s).holdViolation = s.holdViolation := rfl
@[simp] theorem driveLow_unwrittenRead (s : State) : (driveLow s).unwrittenRead = s.unwrittenRead := rfl

@[simp] theorem driveHigh_cfg (s : State) : (driveHigh s).cfg = s.cfg := rfl
@[simp] theorem driveHigh_cmd (s : State) : (driveHigh s).cmd = s.cmd := rfl
@[simp] theorem driveHigh_arg (s : State) : (driveHigh s).arg = s.arg := rfl
@[simp] theorem driveHigh_ptr (s : State) : (driveHigh s).ptr = s.ptr := rfl
@[simp] theorem driveHigh_result (s : State) : (driveHigh s).result = s.result := rfl
@[simp] theorem driveHigh_count (s : State) : (driveHigh s).count = s.count := rfl
@[simp] theorem driveHigh_refused (s : State) : (driveHigh s).refused = s.refused := rfl
@[simp] theorem driveHigh_rcode (s : State) : (driveHigh s).rcode = s.rcode := rfl
@[simp] theorem driveHigh_rom (s : State) : (driveHigh s).rom = s.rom := rfl
@[simp] theorem driveHigh_mem (s : State) : (driveHigh s).mem = s.mem := rfl
@[simp] theorem driveHigh_mode (s : State) : (driveHigh s).mode = s.mode := rfl
@[simp] theorem driveHigh_out (s : State) : (driveHigh s).out = true := rfl
@[simp] theorem driveHigh_crit (s : State) : (driveHigh s).crit = s.crit := rfl
@[simp] theorem driveHigh_pu (s : State) : (driveHigh s).pu = s.pu := rfl
@[simp] theorem driveHigh_enum (s : State) : (driveHigh s).enum = s.enum := rfl
@[simp] theorem driveHigh_trace (s : State) : (driveHigh s).trace = s.trace ++ [.driveHigh] := rfl
@[simp] theorem driveHigh_env (s : State) : (driveHigh s).env = s.env := rfl
@[simp] theorem driveHigh_pinReads (s : State) : (driveHigh s).pinReads = s.pinReads := rfl
@[simp] theorem driveHigh_hostIn (s : State) : (driveHigh s).hostIn = s.hostIn := rfl
@[simp] theorem driveHigh_hostOut (s : State) : (driveHigh s).hostOut = s.hostOut := rfl
@[simp] theorem driveHigh_romWritten (s : State) : (driveHigh s).romWritten = s.romWritten := rfl
@[simp] theorem driveHigh_holdViolation (s : State) : (driveHigh s).holdViolation = s.holdViolation := rfl
@[simp] theorem driveHigh_unwrittenRead (s : State) : (driveHigh s).unwrittenRead = s.unwrittenRead := rfl

@[simp] theorem enterCritical_cfg (s : State) : (enterCritical s).cfg = s.cfg := rfl
@[simp] theorem enterCritical_cmd (s : State) : (enterCritical s).cmd = s.cmd := rfl
@[simp] theorem enterCritical_arg (s : State) : (enterCritical s).arg = s.arg := rfl
@[simp] theorem enterCritical_ptr (s : State) : (enterCritical s).ptr = s.ptr := rfl
@[simp] theorem enterCritical_result (s : State) : (enterCritical s).result = s.result := rfl
@[simp] theorem enterCritical_count (s : State) : (enterCritical s).count = s.count := rfl
@[simp] theorem enterCritical_refused (s : State) : (enterCritical s).refused = s.refused := rfl
@[simp] theorem enterCritical_rcode (s : State) : (enterCritical s).rcode = s.rcode := rfl
@[simp] theorem enterCritical_rom (s : State) : (enterCritical s).rom = s.rom := rfl
@[simp] theorem enterCritical_mem (s : State) : (enterCritical s).mem = s.mem := rfl
@[simp] theorem enterCritical_mode (s : State) : (enterCritical s).mode = s.mode := rfl
@[simp] theorem enterCritical_out (s : State) : (enterCritical s).out = s.out := rfl
@[simp] theorem enterCritical_crit (s : State) : (enterCritical s).crit = true := rfl
@[simp] theorem enterCritical_pu (s : State) : (enterCritical s).pu = s.pu := rfl
@[simp] theorem enterCritical_enum (s : State) : (enterCritical s).enum = s.enum := rfl
@[simp] theorem enterCritical_trace (s : State) : (enterCritical s).trace = s.trace ++ [.enterCritical] := rfl
@[simp] theorem enterCritical_env (s : State) : (enterCritical s).env = s.env := rfl
@[simp] theorem enterCritical_pinReads (s : State) : (enterCritical s).pinReads = s.pinReads := rfl
@[simp] theorem enterCritical_hostIn (s : State) : (enterCritical s).hostIn = s.hostIn := rfl
@[simp] theorem enterCritical_hostOut (s : State) : (enterCritical s).hostOut = s.hostOut := rfl
@[simp] theorem enterCritical_romWritten (s : State) : (enterCritical s).romWritten = s.romWritten := rfl
@[simp] theorem enterCritical_holdViolation (s : State) : (enterCritical s).holdViolation = s.holdViolation := rfl
@[simp] theorem enterCritical_unwrittenRead (s : State) : (enterCritical s).unwrittenRead = s.unwrittenRead := rfl

@[simp] theorem exitCritical_cfg (s : State) : (exitCritical s).cfg = s.cfg := rfl
@[simp] theorem exitCritical_cmd (s : State) : (exitCritical s).cmd = s.cmd := rfl
@[simp] theorem exitCritical_arg (s : State) : (exitCritical s).arg = s.arg := rfl
@[simp] theorem exitCritical_ptr (s : State) : (exitCritical s).ptr = s.ptr := rfl
@[simp] theorem exitCritical_result (s : State) : (exitCritical s).result = s.result := rfl
@[simp] theorem exitCritical_count (s : State) : (exitCritical s).count = s.count := rfl
@[simp] theorem exitCritical_refused (s : State) : (exitCritical s).refused = s.refused := rfl
@[simp] theorem exitCritical_rcode (s : State) : (exitCritical s).rcode = s.rcode := rfl
@[simp] theorem exitCritical_rom (s : State) : (exitCritical s).rom = s.rom := rfl
@[simp] theorem exitCritical_mem (s : State) : (exitCritical s).mem = s.mem := rfl
@[simp] theorem exitCritical_mode (s : State) : (exitCritical s).mode = s.mode := rfl
@[simp] theorem exitCritical_out (s : State) : (exitCritical s).out = s.out := rfl
@[simp] theorem exitCritical_crit (s : State) : (exitCritical s).crit = false := rfl
@[simp] theorem exitCritical_pu (s : State) : (exitCritical s).pu = s.pu := rfl
@[simp] theorem exitCritical_enum (s : State) : (exitCritical s).enum = s.enum := rfl
@[simp] theorem exitCritical_trace (s : State) : (exitCritical s).trace = s.trace ++ [.exitCritical] := rfl
@[simp] theorem exitCritical_env (s : State) : (exitCritical s).env = s.env := rfl
@[simp] theorem exitCritical_pinReads (s : State) : (exitCritical s).pinReads = s.pinReads := rfl
@[simp] theorem exitCritical_hostIn (s : State) : (exitCritical s).hostIn = s.hostIn := rfl
@[simp] theorem exitCritical_hostOut (s : State) : (exitCritical s).hostOut = s.hostOut := rfl
@[simp] theorem exitCritical_romWritten (s : State) : (exitCritical s).romWritten = s.romWritten := rfl
@[simp] theorem exitCritical_holdViolation (s : State) : (exitCritical s).holdViolation = s.holdViolation := rfl
@[simp] theorem exitCritical_unwrittenRead (s : State) : (exitCritical s).unwrittenRead = s.unwrittenRead := rfl

@[simp] theorem pullupOn_cfg (s : State) : (pullupOn s).cfg = s.cfg := rfl
@[simp] theorem pullupOn_cmd (s : State) : (pullupOn s).cmd = s.cmd := rfl
@[simp] theorem pullupOn_arg (s : State) : (pullupOn s).arg = s.arg := rfl
@[simp] theorem pullupOn_ptr (s : State) : (pullupOn s).ptr = s.ptr := rfl
@[simp] theorem pullupOn_result (s : State) : (pullupOn s).result = s.result := rfl
@[simp] theorem pullupOn_count (s : State) : (pullupOn s).count = s.count := rfl
@[simp] theorem pullupOn_refused (s : State) : (pullupOn s).refused = s.refused := rfl
@[simp] theorem pullupOn_rcode (s : State) : (pullupOn s).rcode = s.rcode := rfl
@[simp] theorem pullupOn_rom (s : State) : (pullupOn s).rom = s.rom := rfl
@[simp] theorem pullupOn_mem (s : State) : (pullupOn s).mem = s.mem := rfl
@[simp] theorem pullupOn_mode (s : State) : (pullupOn s).mode = s.mode := rfl
@[simp] theorem pullupOn_out (s : State) : (pullupOn s).out = s.out := rfl
@[simp] theorem pullupOn_crit (s : State) : (pullupOn s).crit = s.crit := rfl
@[simp] theorem pullupOn_pu (s : State) : (pullupOn s).pu = true := rfl
@[simp] theorem pullupOn_enum (s : State) : (pullupOn s).enum = s.enum := rfl
@[simp] theorem pullupOn_trace (s : State) : (pullupOn s).trace = s.trace ++ [.pullupOn] := rfl
@[simp] theorem pullupOn_env (s : State) : (pullupOn s).env = s.env := rfl
@[simp] theorem pullupOn_pinReads (s : State) : (pullupOn s).pinReads = s.pinReads := rfl
@[simp] theorem pullupOn_hostIn (s : State) : (pullupOn s).hostIn = s.hostIn := rfl
@[simp] theorem pullupOn_hostOut (s : State) : (pullupOn s).hostOut = s.hostOut := rfl
@[simp] theorem pullupOn_romWritten (s : State) : (pullupOn s).romWritten = s.romWritten := rfl
@[simp] theorem pullupOn_holdViolation (s : State) : (pullupOn s).holdViolation = s.holdViolation := rfl
@[simp] theorem pullupOn_unwrittenRead (s : State) : (pullupOn s).unwrittenRead = s.unwrittenRead := rfl

@[simp] theorem pullupOff_cfg (s : State) : (pullupOff s).cfg = s.cfg := rfl
@[simp] theorem pullupOff_cmd (s : State) : (pullupOff s).cmd = s.cmd := rfl
@[simp] theorem pullupOff_arg (s : State) : (pullupOff s).arg = s.arg := rfl
@[simp] theorem pullupOff_ptr (s : State) : (pullupOff s).ptr = s.ptr := rfl
@[simp] theorem pullupOff_result (s : State) : (pullupOff s).result = s.result := rfl
@[simp] theorem pullupOff_count (s : State) : (pullupOff s).count = s.count := rfl
@[simp] theorem pullupOff_refused (s : State) : (pullupOff s).refused = s.refused := rfl
@[simp] theorem pullupOff_rcode (s : State) : (pullupOff s).rcode = s.rcode := rfl
@[simp] theorem pullupOff_rom (s : State) : (pullupOff s).rom = s.rom := rfl
@[simp] theorem pullupOff_mem (s : State) : (pullupOff s).mem = s.mem := rfl
@[simp] theorem pullupOff_mode (s : State) : (pullupOff s).mode = s.mode := rfl
@[simp] theorem pullupOff_out (s : State) : (pullupOff s).out = s.out := rfl
@[simp] theorem pullupOff_crit (s : State) : (pullupOff s).crit = s.crit := rfl
@[simp] theorem pullupOff_pu (s : State) : (pullupOff s).pu = false := rfl
@[simp] theorem pullupOff_enum (s : State) : (pullupOff s).enum = s.enum := rfl
@[simp] theorem pullupOff_trace (s : State) : (pullupOff s).trace = s.trace ++ [.pullupOff] := rfl
@[simp] theorem pullupOff_env (s : State) : (pullupOff s).env = s.env := rfl
@[simp] theorem pullupOff_pinReads (s : State) : (pullupOff s).pinReads = s.pinReads := rfl
@[simp] theorem pullupOff_hostIn (s : State) : (pullupOff s).hostIn = s.hostIn := rfl
@[simp] theorem pullupOff_hostOut (s : State) : (pullupOff s).hostOut = s.hostOut := rfl
@[simp] theorem pullupOff_romWritten (s : State) : (pullupOff s).romWritten = s.romWritten := rfl
@[simp] theorem pullupOff_holdViolation (s : State) : (pullupOff s).holdViolation = s.holdViolation := rfl
@[simp] theorem pullupOff_unwrittenRead (s : State) : (pullupOff s).unwrittenRead = s.unwrittenRead := rfl

@[simp] theorem delay_cfg (n : Nat) (s : State) : (delay n s).cfg = s.cfg := rfl
@[simp] theorem delay_cmd (n : Nat) (s : State) : (delay n s).cmd = s.cmd := rfl
@[simp] theorem delay_arg (n : Nat) (s : State) : (delay n s).arg = s.arg := rfl
@[simp] theorem delay_ptr (n : Nat) (s : State) : (delay n s).ptr = s.ptr := rfl
@[simp] theorem delay_result (n : Nat) (s : State) : (delay n s).result = s.result := rfl
@[simp] theorem delay_count (n : Nat) (s : State) : (delay n s).count = s.count := rfl
@[simp] theorem delay_refused (n : Nat) (s : State) : (delay n s).refused = s.refused := rfl
@[simp] theorem delay_rcode (n : Nat) (s : State) : (delay n s).rcode = s.rcode := rfl
@[simp] theorem delay_rom (n : Nat) (s : State) : (delay n s).rom = s.rom := rfl
@[simp] theorem delay_mem (n : Nat) (s : State) : (delay n s).mem = s.mem := rfl
@[simp] theorem delay_mode (n : Nat) (s : State) : (delay n s).mode = s.mode := rfl
@[simp] theorem delay_out (n : Nat) (s : State) : (delay n s).out = s.out := rfl
@[simp] theorem delay_crit (n : Nat) (s : State) : (delay n s).crit = s.crit := rfl
@[simp] theorem delay_pu (n : Nat) (s : State) : (delay n s).pu = s.pu := rfl
@[simp] theorem delay_enum (n : Nat) (s : State) : (delay n s).enum = s.enum := rfl
@[simp] theorem delay_trace (n : Nat) (s : State) : (delay n s).trace = s.trace ++ [.delay n] := rfl
@[simp] theorem delay_env (n : Nat) (s : State) : (delay n s).env = s.env := rfl
@[simp] theorem delay_pinReads (n : Nat) (s : State) : (delay n s).pinReads = s.pinReads := rfl
@[simp] theorem delay_hostIn (n : Nat) (s : State) : (delay n s).hostIn = s.hostIn := rfl
@[simp] theorem delay_hostOut (n : Nat) (s : State) : (delay n s).hostOut = s.hostOut := rfl
@[simp] theorem delay_romWritten (n : Nat) (s : State) : (delay n s).romWritten = s.romWritten := rfl
@[simp] theorem delay_holdViolation (n : Nat) (s : State) : (delay n s).holdViolation = s.holdViolation := rfl
@[simp] theorem delay_unwrittenRead (n : Nat) (s : State) : (delay n s).unwrittenRead = s.unwrittenRead := rfl

@[simp] theorem report_cfg (id : Identifier) (s : State) : (report id s).cfg = s.cfg := rfl
@[simp] theorem report_cmd (id : Identifier) (s : State) : (report id s).cmd = s.cmd := rfl
@[simp] theorem report_arg (id : Identifier) (s : State) : (report id s).arg = s.arg := rfl
@[simp] theorem report_ptr (id : Identifier) (s : State) : (report id s).ptr = s.ptr := rfl
@[simp] theorem report_result (id : Identifier) (s : State) : (report id s).result = s.result := rfl
@[simp] theorem report_count (id : Identifier) (s : State) : (report id s).count = s.count := rfl
@[simp] theorem report_refused (id : Identifier) (s : State) : (report id s).refused = s.refused := rfl
@[simp] theorem report_rcode (id : Identifier) (s : State) : (report id s).rcode = s.rcode := rfl
@[simp] theorem report_rom (id : Identifier) (s : State) : (report id s).rom = s.rom := rfl
@[simp] theorem report_mem (id : Identifier) (s : State) : (report id s).mem = s.mem := rfl
@[simp] theorem report_mode (id : Identifier) (s : State) : (report id s).mode = s.mode := rfl
@[simp] theorem report_out (id : Identifier) (s : State) : (report id s).out = s.out := rfl
@[simp] theorem report_crit (id : Identifier) (s : State) : (report id s).crit = s.crit := rfl
@[simp] theorem report_pu (id : Identifier) (s : State) : (report id s).pu = s.pu := rfl
@[simp] theorem report_enum (id : Identifier) (s : State) : (report id s).enum = s.enum := rfl
@[simp] theorem report_trace (id : Identifier) (s : State) : (report id s).trace = s.trace ++ [.report id] := rfl
@[simp] theorem report_env (id : Identifier) (s : State) : (report id s).env = s.env := rfl
@[simp] theorem report_pinReads (id : Identifier) (s : State) : (report id s).pinReads = s.pinReads := rfl
@[simp] theorem report_hostIn (id : Identifier) (s : State) : (report id s).hostIn = s.hostIn := rfl
@[simp] theorem report_hostOut (id : Identifier) (s : State) : (report id s).hostOut = s.hostOut := rfl
@[simp] theorem report_romWritten (id : Identifier) (s : State) : (report id s).romWritten = s.romWritten := rfl
@[simp] theorem report_holdViolation (id : Identifier) (s : State) : (report id s).holdViolation = s.holdViolation := rfl
@[simp] theorem report_unwrittenRead (id : Identifier) (s : State) : (report id s).unwrittenRead = s.unwrittenRead := rfl

@[simp] theorem readPin_cfg (k : SampleKind) (s : State) : (readPin k s).cfg = s.cfg := rfl
@[simp] theorem readPin_cmd (k : SampleKind) (s : State) : (readPin k s).cmd = s.cmd := rfl
@[simp] theorem readPin_arg (k : SampleKind) (s : State) : (readPin k s).arg = s.arg := rfl
@[simp] theorem readPin_ptr (k : SampleKind) (s : State) : (readPin k s).ptr = s.ptr := rfl
@[simp] theorem readPin_result (k : SampleKind) (s : State) : (readPin k s).result = s.result := rfl
@[simp] theorem readPin_count (k : SampleKind) (s : State) : (readPin k s).count = s.count := rfl
@[simp] theorem readPin_refused (k : SampleKind) (s : State) : (readPin k s).refused = s.refused := rfl
@[simp] theorem readPin_rcode (k : SampleKind) (s : State) : (readPin k s).rcode = s.rcode := rfl
@[simp] theorem readPin_rom (k : SampleKind) (s : State) : (readPin k s).rom = s.rom := rfl
@[simp] theorem readPin_mem (k : SampleKind) (s : State) : (readPin k s).mem = s.mem := rfl
@[simp] theorem readPin_mode (k : SampleKind) (s : State) : (readPin k s).mode = s.mode := rfl
@[simp] theorem readPin_out (k : SampleKind) (s : State) : (readPin k s).out = s.out := rfl
@[simp] theorem readPin_crit (k : SampleKind) (s : State) : (readPin k s).crit = s.crit := rfl
@[simp] theorem readPin_pu (k : SampleKind) (s : State) : (readPin k s).pu = s.pu := rfl
@[simp] theorem readPin_enum (k : SampleKind) (s : State) : (readPin k s).enum = s.enum := rfl
@[simp] theorem readPin_trace (k : SampleKind) (s : State) : (readPin k s).trace = s.trace ++ [.readPin (pinLevel k s)] := rfl
@[simp] theorem readPin_env (k : SampleKind) (s : State) : (readPin k s).env = s.env.afterRead k := rfl
@[simp] theorem readPin_pinReads (k : SampleKind) (s : State) : (readPin k s).pinReads = s.pinReads + 1 := rfl
@[simp] theorem readPin_hostIn (k : SampleKind) (s : State) : (readPin k s).hostIn = s.hostIn := rfl
@[simp] theorem readPin_hostOut (k : SampleKind) (s : State) : (readPin k s).hostOut = s.hostOut := rfl
@[simp] theorem readPin_romWritten (k : SampleKind) (s : State) : (readPin k s).romWritten = s.romWritten := rfl
@[simp] theorem readPin_holdViolation (k : SampleKind) (s : State) : (readPin k s).holdViolation = s.holdViolation := rfl
@[simp] theorem readPin_unwrittenRead (k : SampleKind) (s : State) : (readPin k s).unwrittenRead = s.unwrittenRead := rfl

@[simp] theorem slotWritten_cfg (v : Level) (s : State) : (slotWritten v s).cfg = s.cfg := rfl
@[simp] theorem slotWritten_cmd (v : Level) (s : State) : (slotWritten v s).cmd = s.cmd := rfl
@[simp] theorem slotWritten_arg (v : Level) (s : State) : (slotWritten v s).arg = s.arg := rfl
@[simp] theorem slotWritten_ptr (v : Level) (s : State) : (slotWritten v s).ptr = s.ptr := rfl
@[simp] theorem slotWritten_result (v : Level) (s : State) : (slotWritten v s).result = s.result := rfl
@[simp] theorem slotWritten_count (v : Level) (s : State) : (slotWritten v s).count = s.count := rfl
@[simp] theorem slotWritten_refused (v : Level) (s : State) : (slotWritten v s).refused = s.refused := rfl
@[simp] theorem slotWritten_rcode (v : Level) (s : State) : (slotWritten v s).rcode = s.rcode := rfl
@[simp] theorem slotWritten_rom (v : Level) (s : State) : (slotWritten v s).rom = s.rom := rfl
@[simp] theorem slotWritten_mem (v : Level) (s : State) : (slotWritten v s).mem = s.mem := rfl
@[simp] theorem slotWritten_mode (v : Level) (s : State) : (slotWritten v s).mode = s.mode := rfl
@[simp] theorem slotWritten_out (v : Level) (s : State) : (slotWritten v s).out = s.out := rfl
@[simp] theorem slotWritten_crit (v : Level) (s : State) : (slotWritten v s).crit = s.crit := rfl
@[simp] theorem slotWritten_pu (v : Level) (s : State) : (slotWritten v s).pu = s.pu := rfl
@[simp] theorem slotWritten_enum (v : Level) (s : State) : (slotWritten v s).enum = s.enum := rfl
@[simp] theorem slotWritten_trace (v : Level) (s : State) : (slotWritten v s).trace = s.trace := rfl
@[simp] theorem slotWritten_env (v : Level) (s : State) : (slotWritten v s).env = s.env.afterWrite v := rfl
@[simp] theorem slotWritten_pinReads (v : Level) (s : State) : (slotWritten v s).pinReads = s.pinReads := rfl
@[simp] theorem slotWritten_hostIn (v : Level) (s : State) : (slotWritten v s).hostIn = s.hostIn := rfl
@[simp] theorem slotWritten_hostOut (v : Level) (s : State) : (slotWritten v s).hostOut = s.hostOut := rfl
@[simp] theorem slotWritten_romWritten (v : Level) (s : State) : (slotWritten v s).romWritten = s.romWritten := rfl
@[simp] theorem slotWritten_holdViolation (v : Level) (s : State) : (slotWritten v s).holdViolation = s.holdViolation := rfl
@[simp] theorem slotWritten_unwrittenRead (v : Level) (s : State) : (slotWritten v s).unwrittenRead = s.unwrittenRead := rfl

@[simp] theorem refuse_cfg (c : BitVec 3) (s : State) : (refuse c s).cfg = s.cfg := rfl
@[simp] theorem refuse_cmd (c : BitVec 3) (s : State) : (refuse c s).cmd = s.cmd := rfl
@[simp] theorem refuse_arg (c : BitVec 3) (s : State) : (refuse c s).arg = s.arg := rfl
@[simp] theorem refuse_ptr (c : BitVec 3) (s : State) : (refuse c s).ptr = s.ptr := rfl
@[simp] theorem refuse_result (c : BitVec 3) (s : State) : (refuse c s).result = s.result := rfl
@[simp] theorem refuse_count (c : BitVec 3) (s : State) : (refuse c s).count = s.count := rfl
@[simp] theorem refuse_refused (c : BitVec 3) (s : State) : (refuse c s).refused = true := rfl
@[simp] theorem refuse_rcode (c : BitVec 3) (s : State) : (refuse c s).rcode = c := rfl
@[simp] theorem refuse_rom (c : BitVec 3) (s : State) : (refuse c s).rom = s.rom := rfl
@[simp] theorem refuse_mem (c : BitVec 3) (s : State) : (refuse c s).mem = s.mem := rfl
@[simp] theorem refuse_mode (c : BitVec 3) (s : State) : (refuse c s).mode = s.mode := rfl
@[simp] theorem refuse_out (c : BitVec 3) (s : State) : (refuse c s).out = s.out := rfl
@[simp] theorem refuse_crit (c : BitVec 3) (s : State) : (refuse c s).crit = s.crit := rfl
@[simp] theorem refuse_pu (c : BitVec 3) (s : State) : (refuse c s).pu = s.pu := rfl
@[simp] theorem refuse_enum (c : BitVec 3) (s : State) : (refuse c s).enum = s.enum := rfl
@[simp] theorem refuse_trace (c : BitVec 3) (s : State) : (refuse c s).trace = s.trace := rfl
@[simp] theorem refuse_env (c : BitVec 3) (s : State) : (refuse c s).env = s.env := rfl
@[simp] theorem refuse_pinReads (c : BitVec 3) (s : State) : (refuse c s).pinReads = s.pinReads := rfl
@[simp] theorem refuse_hostIn (c : BitVec 3) (s : State) : (refuse c s).hostIn = s.hostIn := rfl
@[simp] theorem refuse_hostOut (c : BitVec 3) (s : State) : (refuse c s).hostOut = s.hostOut := rfl
@[simp] theorem refuse_romWritten (c : BitVec 3) (s : State) : (refuse c s).romWritten = s.romWritten := rfl
@[simp] theorem refuse_holdViolation (c : BitVec 3) (s : State) : (refuse c s).holdViolation = s.holdViolation := rfl
@[simp] theorem refuse_unwrittenRead (c : BitVec 3) (s : State) : (refuse c s).unwrittenRead = s.unwrittenRead := rfl

@[simp] theorem accept_cfg (s : State) : (accept s).cfg = s.cfg := rfl
@[simp] theorem accept_cmd (s : State) : (accept s).cmd = s.cmd := rfl
@[simp] theorem accept_arg (s : State) : (accept s).arg = s.arg := rfl
@[simp] theorem accept_ptr (s : State) : (accept s).ptr = s.ptr := rfl
@[simp] theorem accept_result (s : State) : (accept s).result = s.result := rfl
@[simp] theorem accept_count (s : State) : (accept s).count = s.count := rfl
@[simp] theorem accept_refused (s : State) : (accept s).refused = false := rfl
@[simp] theorem accept_rcode (s : State) : (accept s).rcode = 0 := rfl
@[simp] theorem accept_rom (s : State) : (accept s).rom = s.rom := rfl
@[simp] theorem accept_mem (s : State) : (accept s).mem = s.mem := rfl
@[simp] theorem accept_mode (s : State) : (accept s).mode = s.mode := rfl
@[simp] theorem accept_out (s : State) : (accept s).out = s.out := rfl
@[simp] theorem accept_crit (s : State) : (accept s).crit = s.crit := rfl
@[simp] theorem accept_pu (s : State) : (accept s).pu = s.pu := rfl
@[simp] theorem accept_enum (s : State) : (accept s).enum = s.enum := rfl
@[simp] theorem accept_trace (s : State) : (accept s).trace = s.trace := rfl
@[simp] theorem accept_env (s : State) : (accept s).env = s.env := rfl
@[simp] theorem accept_pinReads (s : State) : (accept s).pinReads = s.pinReads := rfl
@[simp] theorem accept_hostIn (s : State) : (accept s).hostIn = s.hostIn := rfl
@[simp] theorem accept_hostOut (s : State) : (accept s).hostOut = s.hostOut := rfl
@[simp] theorem accept_romWritten (s : State) : (accept s).romWritten = s.romWritten := rfl
@[simp] theorem accept_holdViolation (s : State) : (accept s).holdViolation = s.holdViolation := rfl
@[simp] theorem accept_unwrittenRead (s : State) : (accept s).unwrittenRead = s.unwrittenRead := rfl

@[simp] theorem acceptBus_cfg (s : State) : (acceptBus s).cfg = s.cfg := rfl
@[simp] theorem acceptBus_cmd (s : State) : (acceptBus s).cmd = s.cmd := rfl
@[simp] theorem acceptBus_arg (s : State) : (acceptBus s).arg = s.arg := rfl
@[simp] theorem acceptBus_ptr (s : State) : (acceptBus s).ptr = s.ptr := rfl
@[simp] theorem acceptBus_result (s : State) : (acceptBus s).result = s.result := rfl
@[simp] theorem acceptBus_count (s : State) : (acceptBus s).count = s.count := rfl
@[simp] theorem acceptBus_refused (s : State) : (acceptBus s).refused = false := rfl
@[simp] theorem acceptBus_rcode (s : State) : (acceptBus s).rcode = 0 := rfl
@[simp] theorem acceptBus_rom (s : State) : (acceptBus s).rom = s.rom := rfl
@[simp] theorem acceptBus_mem (s : State) : (acceptBus s).mem = s.mem := rfl
@[simp] theorem acceptBus_mode (s : State) : (acceptBus s).mode = s.mode := rfl
@[simp] theorem acceptBus_out (s : State) : (acceptBus s).out = s.out := rfl
@[simp] theorem acceptBus_crit (s : State) : (acceptBus s).crit = s.crit := rfl
@[simp] theorem acceptBus_pu (s : State) : (acceptBus s).pu = s.pu := rfl
@[simp] theorem acceptBus_enum (s : State) : (acceptBus s).enum = s.enum := rfl
@[simp] theorem acceptBus_trace (s : State) : (acceptBus s).trace = s.trace := rfl
@[simp] theorem acceptBus_env (s : State) : (acceptBus s).env = lineEnv s := rfl
@[simp] theorem acceptBus_pinReads (s : State) : (acceptBus s).pinReads = s.pinReads := rfl
@[simp] theorem acceptBus_hostIn (s : State) : (acceptBus s).hostIn = s.hostIn := rfl
@[simp] theorem acceptBus_hostOut (s : State) : (acceptBus s).hostOut = s.hostOut := rfl
@[simp] theorem acceptBus_romWritten (s : State) : (acceptBus s).romWritten = s.romWritten := rfl
@[simp] theorem acceptBus_holdViolation (s : State) : (acceptBus s).holdViolation = (s.holdViolation || pullupHeld s) := rfl
@[simp] theorem acceptBus_unwrittenRead (s : State) : (acceptBus s).unwrittenRead = s.unwrittenRead := rfl

@[simp] theorem modEnum_cfg (f : Enumeration → Enumeration) (s : State) : (modEnum f s).cfg = s.cfg := rfl
@[simp] theorem modEnum_cmd (f : Enumeration → Enumeration) (s : State) : (modEnum f s).cmd = s.cmd := rfl
@[simp] theorem modEnum_arg (f : Enumeration → Enumeration) (s : State) : (modEnum f s).arg = s.arg := rfl
@[simp] theorem modEnum_ptr (f : Enumeration → Enumeration) (s : State) : (modEnum f s).ptr = s.ptr := rfl
@[simp] theorem modEnum_result (f : Enumeration → Enumeration) (s : State) : (modEnum f s).result = s.result := rfl
@[simp] theorem modEnum_count (f : Enumeration → Enumeration) (s : State) : (modEnum f s).count = s.count := rfl
@[simp] theorem modEnum_refused (f : Enumeration → Enumeration) (s : State) : (modEnum f s).refused = s.refused := rfl
@[simp] theorem modEnum_rcode (f : Enumeration → Enumeration) (s : State) : (modEnum f s).rcode = s.rcode := rfl
@[simp] theorem modEnum_rom (f : Enumeration → Enumeration) (s : State) : (modEnum f s).rom = s.rom := rfl
@[simp] theorem modEnum_mem (f : Enumeration → Enumeration) (s : State) : (modEnum f s).mem = s.mem := rfl
@[simp] theorem modEnum_mode (f : Enumeration → Enumeration) (s : State) : (modEnum f s).mode = s.mode := rfl
@[simp] theorem modEnum_out (f : Enumeration → Enumeration) (s : State) : (modEnum f s).out = s.out := rfl
@[simp] theorem modEnum_crit (f : Enumeration → Enumeration) (s : State) : (modEnum f s).crit = s.crit := rfl
@[simp] theorem modEnum_pu (f : Enumeration → Enumeration) (s : State) : (modEnum f s).pu = s.pu := rfl
@[simp] theorem modEnum_enum (f : Enumeration → Enumeration) (s : State) : (modEnum f s).enum = s.enum.map f := rfl
@[simp] theorem modEnum_trace (f : Enumeration → Enumeration) (s : State) : (modEnum f s).trace = s.trace := rfl
@[simp] theorem modEnum_env (f : Enumeration → Enumeration) (s : State) : (modEnum f s).env = s.env := rfl
@[simp] theorem modEnum_pinReads (f : Enumeration → Enumeration) (s : State) : (modEnum f s).pinReads = s.pinReads := rfl
@[simp] theorem modEnum_hostIn (f : Enumeration → Enumeration) (s : State) : (modEnum f s).hostIn = s.hostIn := rfl
@[simp] theorem modEnum_hostOut (f : Enumeration → Enumeration) (s : State) : (modEnum f s).hostOut = s.hostOut := rfl
@[simp] theorem modEnum_romWritten (f : Enumeration → Enumeration) (s : State) : (modEnum f s).romWritten = s.romWritten := rfl
@[simp] theorem modEnum_holdViolation (f : Enumeration → Enumeration) (s : State) : (modEnum f s).holdViolation = s.holdViolation := rfl
@[simp] theorem modEnum_unwrittenRead (f : Enumeration → Enumeration) (s : State) : (modEnum f s).unwrittenRead = s.unwrittenRead := rfl

@[simp] theorem touch_cfg (a : Nat) (s : State) : (touch a s).cfg = s.cfg := rfl
@[simp] theorem touch_cmd (a : Nat) (s : State) : (touch a s).cmd = s.cmd := rfl
@[simp] theorem touch_arg (a : Nat) (s : State) : (touch a s).arg = s.arg := rfl
@[simp] theorem touch_ptr (a : Nat) (s : State) : (touch a s).ptr = s.ptr := rfl
@[simp] theorem touch_result (a : Nat) (s : State) : (touch a s).result = s.result := rfl
@[simp] theorem touch_count (a : Nat) (s : State) : (touch a s).count = s.count := rfl
@[simp] theorem touch_refused (a : Nat) (s : State) : (touch a s).refused = s.refused := rfl
@[simp] theorem touch_rcode (a : Nat) (s : State) : (touch a s).rcode = s.rcode := rfl
@[simp] theorem touch_rom (a : Nat) (s : State) : (touch a s).rom = s.rom := rfl
@[simp] theorem touch_mem (a : Nat) (s : State) : (touch a s).mem = s.mem := rfl
@[simp] theorem touch_mode (a : Nat) (s : State) : (touch a s).mode = s.mode := rfl
@[simp] theorem touch_out (a : Nat) (s : State) : (touch a s).out = s.out := rfl
@[simp] theorem touch_crit (a : Nat) (s : State) : (touch a s).crit = s.crit := rfl
@[simp] theorem touch_pu (a : Nat) (s : State) : (touch a s).pu = s.pu := rfl
@[simp] theorem touch_enum (a : Nat) (s : State) : (touch a s).enum = s.enum := rfl
@[simp] theorem touch_trace (a : Nat) (s : State) : (touch a s).trace = s.trace := rfl
@[simp] theorem touch_env (a : Nat) (s : State) : (touch a s).env = s.env := rfl
@[simp] theorem touch_pinReads (a : Nat) (s : State) : (touch a s).pinReads = s.pinReads := rfl
@[simp] theorem touch_hostIn (a : Nat) (s : State) : (touch a s).hostIn = s.hostIn := rfl
@[simp] theorem touch_hostOut (a : Nat) (s : State) : (touch a s).hostOut = s.hostOut := rfl
@[simp] theorem touch_romWritten (a : Nat) (s : State) : (touch a s).romWritten = s.romWritten := rfl
@[simp] theorem touch_holdViolation (a : Nat) (s : State) : (touch a s).holdViolation = s.holdViolation := rfl
@[simp] theorem touch_unwrittenRead (a : Nat) (s : State) : (touch a s).unwrittenRead = (s.unwrittenRead || unwritten a s) := rfl

@[simp] theorem pokeBuf_cfg (a : Nat) (x : Byte) (s : State) : (pokeBuf a x s).cfg = s.cfg := rfl
@[simp] theorem pokeBuf_cmd (a : Nat) (x : Byte) (s : State) : (pokeBuf a x s).cmd = s.cmd := rfl
@[simp] theorem pokeBuf_arg (a : Nat) (x : Byte) (s : State) : (pokeBuf a x s).arg = s.arg := rfl
@[simp] theorem pokeBuf_ptr (a : Nat) (x : Byte) (s : State) : (pokeBuf a x s).ptr = s.ptr := rfl
@[simp] theorem pokeBuf_result (a : Nat) (x : Byte) (s : State) : (pokeBuf a x s).result = s.result := rfl
@[simp] theorem pokeBuf_count (a : Nat) (x : Byte) (s : State) : (pokeBuf a x s).count = s.count := rfl
@[simp] theorem pokeBuf_refused (a : Nat) (x : Byte) (s : State) : (pokeBuf a x s).refused = s.refused := rfl
@[simp] theorem pokeBuf_rcode (a : Nat) (x : Byte) (s : State) : (pokeBuf a x s).rcode = s.rcode := rfl
@[simp] theorem pokeBuf_rom (a : Nat) (x : Byte) (s : State) : (pokeBuf a x s).rom = s.rom := rfl
@[simp] theorem pokeBuf_mem (a : Nat) (x : Byte) (s : State) : (pokeBuf a x s).mem = s.mem.store a x := rfl
@[simp] theorem pokeBuf_mode (a : Nat) (x : Byte) (s : State) : (pokeBuf a x s).mode = s.mode := rfl
@[simp] theorem pokeBuf_out (a : Nat) (x : Byte) (s : State) : (pokeBuf a x s).out = s.out := rfl
@[simp] theorem pokeBuf_crit (a : Nat) (x : Byte) (s : State) : (pokeBuf a x s).crit = s.crit := rfl
@[simp] theorem pokeBuf_pu (a : Nat) (x : Byte) (s : State) : (pokeBuf a x s).pu = s.pu := rfl
@[simp] theorem pokeBuf_enum (a : Nat) (x : Byte) (s : State) : (pokeBuf a x s).enum = s.enum := rfl
@[simp] theorem pokeBuf_trace (a : Nat) (x : Byte) (s : State) : (pokeBuf a x s).trace = s.trace := rfl
@[simp] theorem pokeBuf_env (a : Nat) (x : Byte) (s : State) : (pokeBuf a x s).env = s.env := rfl
@[simp] theorem pokeBuf_pinReads (a : Nat) (x : Byte) (s : State) : (pokeBuf a x s).pinReads = s.pinReads := rfl
@[simp] theorem pokeBuf_hostIn (a : Nat) (x : Byte) (s : State) : (pokeBuf a x s).hostIn = s.hostIn := rfl
@[simp] theorem pokeBuf_hostOut (a : Nat) (x : Byte) (s : State) : (pokeBuf a x s).hostOut = s.hostOut := rfl
@[simp] theorem pokeBuf_romWritten (a : Nat) (x : Byte) (s : State) : (pokeBuf a x s).romWritten = s.romWritten := rfl
@[simp] theorem pokeBuf_holdViolation (a : Nat) (x : Byte) (s : State) : (pokeBuf a x s).holdViolation = s.holdViolation := rfl
@[simp] theorem pokeBuf_unwrittenRead (a : Nat) (x : Byte) (s : State) : (pokeBuf a x s).unwrittenRead = s.unwrittenRead := rfl

@[simp] theorem pokeRom_cfg (a : Nat) (x : Byte) (s : State) : (pokeRom a x s).cfg = s.cfg := rfl
@[simp] theorem pokeRom_cmd (a : Nat) (x : Byte) (s : State) : (pokeRom a x s).cmd = s.cmd := rfl
@[simp] theorem pokeRom_arg (a : Nat) (x : Byte) (s : State) : (pokeRom a x s).arg = s.arg := rfl
@[simp] theorem pokeRom_ptr (a : Nat) (x : Byte) (s : State) : (pokeRom a x s).ptr = s.ptr := rfl
@[simp] theorem pokeRom_result (a : Nat) (x : Byte) (s : State) : (pokeRom a x s).result = s.result := rfl
@[simp] theorem pokeRom_count (a : Nat) (x : Byte) (s : State) : (pokeRom a x s).count = s.count := rfl
@[simp] theorem pokeRom_refused (a : Nat) (x : Byte) (s : State) : (pokeRom a x s).refused = s.refused := rfl
@[simp] theorem pokeRom_rcode (a : Nat) (x : Byte) (s : State) : (pokeRom a x s).rcode = s.rcode := rfl
@[simp] theorem pokeRom_rom (a : Nat) (x : Byte) (s : State) : (pokeRom a x s).rom = s.rom.setIfInBounds (a - 0x08) x := rfl
@[simp] theorem pokeRom_mem (a : Nat) (x : Byte) (s : State) : (pokeRom a x s).mem = s.mem := rfl
@[simp] theorem pokeRom_mode (a : Nat) (x : Byte) (s : State) : (pokeRom a x s).mode = s.mode := rfl
@[simp] theorem pokeRom_out (a : Nat) (x : Byte) (s : State) : (pokeRom a x s).out = s.out := rfl
@[simp] theorem pokeRom_crit (a : Nat) (x : Byte) (s : State) : (pokeRom a x s).crit = s.crit := rfl
@[simp] theorem pokeRom_pu (a : Nat) (x : Byte) (s : State) : (pokeRom a x s).pu = s.pu := rfl
@[simp] theorem pokeRom_enum (a : Nat) (x : Byte) (s : State) : (pokeRom a x s).enum = s.enum := rfl
@[simp] theorem pokeRom_trace (a : Nat) (x : Byte) (s : State) : (pokeRom a x s).trace = s.trace := rfl
@[simp] theorem pokeRom_env (a : Nat) (x : Byte) (s : State) : (pokeRom a x s).env = s.env := rfl
@[simp] theorem pokeRom_pinReads (a : Nat) (x : Byte) (s : State) : (pokeRom a x s).pinReads = s.pinReads := rfl
@[simp] theorem pokeRom_hostIn (a : Nat) (x : Byte) (s : State) : (pokeRom a x s).hostIn = s.hostIn := rfl
@[simp] theorem pokeRom_hostOut (a : Nat) (x : Byte) (s : State) : (pokeRom a x s).hostOut = s.hostOut := rfl
@[simp] theorem pokeRom_romWritten (a : Nat) (x : Byte) (s : State) : (pokeRom a x s).romWritten = s.romWritten.setIfInBounds (a - 0x08) true := rfl
@[simp] theorem pokeRom_holdViolation (a : Nat) (x : Byte) (s : State) : (pokeRom a x s).holdViolation = s.holdViolation := rfl
@[simp] theorem pokeRom_unwrittenRead (a : Nat) (x : Byte) (s : State) : (pokeRom a x s).unwrittenRead = s.unwrittenRead := rfl

/-- Without a mark and without a pull-up hold the environment answers. -/
theorem lineEnv_defined {s : State} (h : s.holdViolation = false ∧ pullupHeld s = false) : lineEnv s = s.env := by
  simp [lineEnv, h.1, h.2]

/-- With the mark, or in a pull-up hold, nobody knows the line. -/
theorem lineEnv_undefined {s : State} (h : (s.holdViolation || pullupHeld s) = true) : lineEnv s = .free := by
  simp only [lineEnv, h, if_true]

theorem lineEnv_free {s : State} (h : s.env = .free) : lineEnv s = .free := by simp [lineEnv, h]

end Sys2Proof.Machine
end

