-- ==== Sys2Proof/Laws/BitTransport.lean ====
section
/-! SUPPORT. Everything the slots, the reset pulse and the byte writes can do, each as one equation. -/

namespace Sys2Proof.Machine

/-- Everything a write slot does (R120). -/
theorem writeBit_eq (v h : Bool) (s : State) :
    writeBit v h s = { s with
      mode := .floating, out := true, crit := h, env := s.env.afterWrite v, trace := s.trace ++ writeSlot s.cfg v h } := by
  cases h <;>
    simp [writeBit, pullLow, emit, setFloating, setDriven, driveLow, driveHigh, enterCritical, exitCritical, delay, slotWritten,
      writeSlot]

/-- Everything a read slot does (R122). -/
theorem readBit_eq (s : State) :
    readBit s = (pinLevel .slot s, { s with
      mode := .floating, out := false, crit := false, env := s.env.afterRead .slot, pinReads := s.pinReads + 1,
      trace := s.trace ++ readSlot s.cfg (pinLevel .slot s) }) := by
  simp [readBit, pullLow, emit, setFloating, setDriven, driveLow, enterCritical, exitCritical, delay, readPin, pinLevel, readSlot]

/-- Everything the reset pulse does once idle was reached (R140). -/
theorem resetPulse_eq (s : State) :
    resetPulse s = (!pinLevel .presence s, { s with
      mode := .floating, out := false, crit := false, env := s.env.afterRead .presence, pinReads := s.pinReads + 1,
      trace := s.trace ++ pulseEvents s.cfg (pinLevel .presence s) }) := by
  simp [resetPulse, pullLow, emit, setFloating, setDriven, driveLow, enterCritical, exitCritical, delay, readPin, pinLevel,
    pulseEvents]

/-- Everything a run of write slots does. -/
theorem writeBits_eq (vs : List Level) (s : State) :
    writeBits vs s = if vs = [] then s else { s with
      mode := .floating, out := true, crit := false, env := s.env.afterWrites vs,
      trace := s.trace ++ vs.flatMap (fun v => writeSlot s.cfg v false) } := by
  induction vs generalizing s with
  | nil => rfl
  | cons v vs ih =>
    rw [writeBits, ih, writeBit_eq]
    by_cases h : vs = []
    · subst h; simp [Env.afterWrites]
    · simp [h, Env.afterWrites]

/-- `writeByte(x, false)` ends released, with preemption enabled (R142). -/
theorem writeByte_eq (x : Byte) (s : State) :
    writeByte x false s = { s with
      mode := .floating, out := true, crit := false, env := s.env.afterWrites (wireBits x),
      trace := s.trace ++ writeByteEvents s.cfg x } := by
  have h : writeByte x false s = writeBits (wireBits x) s := rfl
  rw [h, writeBits_eq, if_neg (by simp [wireBits]), writeByteEvents]

/-- `writeByte(x, true)`: the eighth slot holds, and the pull-up follows it (R142, R144). -/
theorem writeByte_hold_eq (x : Byte) (s : State) :
    writeByte x true s = { s with
      mode := if s.cfg.apu then .floating else .driven, out := true, crit := true, pu := s.cfg.apu || s.pu,
      env := s.env.afterWrites (wireBits x),
      trace := s.trace ++ (((wireBits x).take 7).flatMap (fun v => writeSlot s.cfg v false) ++ writeSlot s.cfg (x.getLsbD 7) true ++
        if s.cfg.apu then [.pullupOn] else [.driveHigh, .setDriven]) } := by
  have h : writeByte x true s = pullupEngage (writeBit (x.getLsbD 7) true (writeBits ((wireBits x).take 7) s)) := rfl
  have he : (s.env.afterWrites ((wireBits x).take 7)).afterWrite (x.getLsbD 7) = s.env.afterWrites (wireBits x) := rfl
  rw [h, writeBits_eq, if_neg (by simp [wireBits]), writeBit_eq]
  by_cases ha : s.cfg.apu = true <;> simp [pullupEngage, ha, pullupOn, driveHigh, setDriven, emit] <;> exact he

/-- `RELEASE_PULLUP`'s operation, from any state (R151). -/
theorem releaseActivePullup_eq (s : State) :
    releaseActivePullup s = { s with
      mode := .floating, crit := false, pu := !s.cfg.apu && s.pu,
      trace := s.trace ++ ((if s.cfg.apu then [.pullupOff] else []) ++ [.setFloating, .exitCritical]) } := by
  by_cases ha : s.cfg.apu = true <;> simp [releaseActivePullup, ha, pullupOff, setFloating, exitCritical, emit]

end Sys2Proof.Machine
end

