-- ==== Sys2Proof/Laws/Frame.lean ====
section
/-! SUPPORT. What bus activity leaves alone, as one transitive relation that every internal operation meets. -/

namespace Sys2Proof.Machine

/-- `t` comes after bus activity from `s`: only the pins, the Enumeration State, the environment and the trace may differ, and
the trace only grows. -/
structure BusFrame (s t : State) : Prop where
  cfg : t.cfg = s.cfg
  cmd : t.cmd = s.cmd
  arg : t.arg = s.arg
  ptr : t.ptr = s.ptr
  result : t.result = s.result
  count : t.count = s.count
  refused : t.refused = s.refused
  rcode : t.rcode = s.rcode
  rom : t.rom = s.rom
  mem : t.mem = s.mem
  pu : t.pu = s.pu
  hostIn : t.hostIn = s.hostIn
  hostOut : t.hostOut = s.hostOut
  romWritten : t.romWritten = s.romWritten
  holdViolation : t.holdViolation = s.holdViolation
  unwrittenRead : t.unwrittenRead = s.unwrittenRead
  trace : s.trace <+: t.trace

theorem BusFrame.refl (s : State) : BusFrame s s := by constructor <;> simp

theorem BusFrame.trans {s t u : State} (h : BusFrame s t) (k : BusFrame t u) : BusFrame s u := by
  constructor
  case trace => exact h.trace.trans k.trace
  all_goals first
    | exact k.cfg.trans h.cfg | exact k.cmd.trans h.cmd | exact k.arg.trans h.arg | exact k.ptr.trans h.ptr
    | exact k.result.trans h.result | exact k.count.trans h.count | exact k.refused.trans h.refused
    | exact k.rcode.trans h.rcode | exact k.rom.trans h.rom | exact k.mem.trans h.mem | exact k.pu.trans h.pu
    | exact k.hostIn.trans h.hostIn | exact k.hostOut.trans h.hostOut | exact k.romWritten.trans h.romWritten
    | exact k.holdViolation.trans h.holdViolation | exact k.unwrittenRead.trans h.unwrittenRead

/-- The frame as one record: everything else is unchanged. -/
theorem BusFrame.eq {s t : State} (h : BusFrame s t) :
    t = { s with
      mode := t.mode, out := t.out, crit := t.crit, enum := t.enum, trace := t.trace, env := t.env,
      pinReads := t.pinReads } := by
  obtain ⟨h1, h2, h3, h4, h5, h6, h7, h8, h9, h10, h11, h12, h13, h14, h15, h16, -⟩ := h
  cases s; cases t; simp_all

theorem writeBit_frame (v h : Bool) (s : State) : BusFrame s (writeBit v h s) := by
  rw [writeBit_eq]; constructor <;> simp

theorem readBit_frame (s : State) : BusFrame s (readBit s).2 := by
  rw [readBit_eq]; constructor <;> simp

theorem writeByte_frame (x : Byte) (s : State) : BusFrame s (writeByte x false s) := by
  rw [writeByte_eq]; constructor <;> simp

theorem modEnum_frame (f : Enumeration → Enumeration) (s : State) : BusFrame s (modEnum f s) := by
  constructor <;> simp

theorem report_frame (id : Identifier) (s : State) : BusFrame s (report id s) := by constructor <;> simp

end Sys2Proof.Machine
end

