-- ==== Sys2Proof/Laws/Memory.lean ====
section
/-! SUPPORT. Reading after writing, and the canonical form of memory. -/

namespace Sys2Proof.Machine

@[simp] theorem Memory.lookup_nil (a : Nat) : Memory.lookup [] a = none := rfl

theorem Memory.lookup_cons (c : Host.Cell) (m : Memory) (a : Nat) :
    Memory.lookup (c :: m) a = if c.1 = a then some c.2 else Memory.lookup m a := by
  by_cases h : c.1 = a <;> simp [Memory.lookup, h]

/-- A store is read back, and no other address is disturbed. -/
theorem Memory.lookup_store (m : Memory) (a b : Nat) (x : Byte) :
    (Memory.store m a x).lookup b = if b = a then some x else m.lookup b := by
  induction m with
  | nil => simp [Memory.store, Memory.lookup_cons, eq_comm]
  | cons c m ih =>
    simp only [Memory.store]
    split
    · simp [Memory.lookup_cons, eq_comm]
    · split
      · subst a
        by_cases h : b = c.1 <;> simp [Memory.lookup_cons, h, eq_comm]
      · simp only [Memory.lookup_cons, ih]
        by_cases h : c.1 = b
        · have : b ≠ a := by omega
          simp [h, this]
        · simp [h]

@[simp] theorem Memory.lookup_store_same (m : Memory) (a : Nat) (x : Byte) : (Memory.store m a x).lookup a = some x := by
  simp [Memory.lookup_store]

theorem Memory.lookup_store_other (m : Memory) {a b : Nat} (x : Byte) (h : b ≠ a) :
    (Memory.store m a x).lookup b = m.lookup b := by
  simp [Memory.lookup_store, h]

theorem Memory.mem_store {m : Memory} {a : Nat} {x : Byte} {c : Host.Cell} (h : c ∈ Memory.store m a x) :
    c = (a, x) ∨ c ∈ m := by
  induction m with
  | nil => simpa [Memory.store] using h
  | cons d m ih =>
    simp only [Memory.store] at h
    split at h
    · simpa using h
    · split at h
      · rcases List.mem_cons.1 h with h | h
        · exact .inl h
        · exact .inr (List.mem_cons_of_mem _ h)
      · rcases List.mem_cons.1 h with h | h
        · exact .inr (by simp [h])
        · exact (ih h).imp id (List.mem_cons_of_mem _)

/-- A store to `BUF` keeps the canonical form. -/
theorem Memory.store_wf {m : Memory} {a : Nat} (x : Byte) (h : m.wf) (ha : 0x80 ≤ a ∧ a < 0x100) : (Memory.store m a x).wf := by
  refine ⟨?_, fun c hc => ?_⟩
  · obtain ⟨hs, -⟩ := h
    induction m with
    | nil => simp [Memory.store]
    | cons d m ih =>
      obtain ⟨hd, hm⟩ := List.pairwise_cons.1 hs
      simp only [Memory.store]
      split
      · rename_i hlt
        refine List.pairwise_cons.2 ⟨fun c hc => ?_, hs⟩
        rcases List.mem_cons.1 hc with rfl | hc
        · exact hlt
        · exact hlt.trans (hd c hc)
      · split
        · rename_i heq
          exact List.pairwise_cons.2 ⟨fun c hc => heq ▸ hd c hc, hm⟩
        · refine List.pairwise_cons.2 ⟨fun c hc => ?_, ih hm⟩
          rcases Memory.mem_store hc with rfl | hc
          · exact Nat.lt_of_le_of_ne (Nat.le_of_not_lt ‹_›) (fun he => ‹¬ a = d.1› he.symm)
          · exact hd c hc
  · rcases Memory.mem_store hc with rfl | hc
    · exact ha
    · exact h.2 c hc

/-- Equal memories are equal data: two canonical memories that read alike are the same list. -/
theorem Memory.ext_of_wf {m n : Memory} (hm : m.wf) (hn : n.wf) (h : ∀ a, m.lookup a = n.lookup a) : m = n := by
  obtain ⟨hm, -⟩ := hm
  obtain ⟨hn, -⟩ := hn
  induction m generalizing n with
  | nil =>
    cases n with
    | nil => rfl
    | cons d n => simpa [Memory.lookup_cons] using h d.1
  | cons c m ih =>
    cases n with
    | nil => simpa [Memory.lookup_cons] using h c.1
    | cons d n =>
      obtain ⟨hc, hm2⟩ := List.pairwise_cons.1 hm
      obtain ⟨hd, hn2⟩ := List.pairwise_cons.1 hn
      have low : ∀ {l : Memory} {a : Nat}, (∀ e ∈ l, a < e.1) → ∀ b ≤ a, Memory.lookup l b = none := by
        intro l a hl b hb
        simp only [Memory.lookup, Option.map_eq_none_iff, List.find?_eq_none]
        intro e he
        have := hl e he
        simp only [beq_iff_eq]
        omega
      have h1 := h c.1
      have h2 := h d.1
      simp only [Memory.lookup_cons, if_true] at h1 h2
      have hcd : d.1 = c.1 := by
        by_contra hne
        rw [if_neg hne] at h1
        rw [if_neg (fun he => hne he.symm)] at h2
        rcases Nat.lt_or_gt_of_ne hne with hlt | hlt
        · rw [low hc d.1 hlt.le] at h2
          simp at h2
        · rw [low hd c.1 hlt.le] at h1
          simp at h1
      rw [if_pos hcd] at h1
      have : c = d := Prod.ext hcd.symm (by simpa using h1)
      subst this
      have rest : ∀ a, Memory.lookup m a = Memory.lookup n a := fun a => by
        by_cases ha : c.1 = a
        · rw [low hc a ha.ge, low hd a ha.ge]
        · simpa [Memory.lookup_cons, ha] using h a
      exact congrArg _ (ih rest hm2 hn2)

end Sys2Proof.Machine
end

