-- ==== Sys2Proof/Laws/BusSequencer.lean ====
section
/-! SUPPORT. What a bus reset, a byte read and the buffer transfers can do, said once each. -/

namespace Sys2Proof.Machine

theorem pollEvents_succ (c : Config) (j : Nat) :
    pollEvents c (j + 1) = .readPin false :: .delay c.tPoll :: pollEvents c j := by
  simp [pollEvents, List.replicate_succ]

/-- The idle wait reaches a high sample after `j` low ones, or takes `n` low ones; it touches no pin (R140). -/
theorem pollIdle_spec (n : Nat) (s : State) :
    ∃ (b : Bool) (j : Nat) (e : Env),
      (b = true ∧ j < n ∨ b = false ∧ j = n) ∧
      pollIdle n s = (b, { s with
        env := e, pinReads := s.pinReads + j + if b then 1 else 0,
        trace := s.trace ++ (pollEvents s.cfg j ++ if b then [.readPin true] else []) }) := by
  induction n generalizing s with
  | zero => exact ⟨false, 0, s.env, by simp, by simp [pollIdle, pollEvents]⟩
  | succ n ih =>
    by_cases h : pinLevel .poll s = true
    · exact ⟨true, 0, s.env.afterRead .poll, by simp, by simp [pollIdle, h, pollEvents, readPin, emit]⟩
    · obtain ⟨b, j, e, hj, he⟩ := ih (delay s.cfg.tPoll (readPin .poll s))
      refine ⟨b, j + 1, e, by rcases hj with ⟨hb, hj⟩ | ⟨hb, hj⟩ <;> simp [hb, hj], ?_⟩
      have h' : pinLevel .poll s = false := by simpa using h
      rw [pollIdle, if_neg h, he]
      simp [h', pollEvents_succ]
      omega

/-- Everything a bus reset can do (R140): it released the line and either took `RETRY` low samples, and touched nothing more, or saw a
high sample after `j` low ones, sent the pulse and sampled the presence. -/
theorem resetAndPresenceDetect_spec (s : State) :
    ∃ (es : List PortEvent) (ok : Bool) (o c : Bool) (e : Env) (k : Nat),
      ((es = deadResetEvents s.cfg ∧ ok = false ∧ o = s.out ∧ c = s.crit ∧ k = s.pinReads + s.cfg.retry.toNat) ∨
        (∃ j p, j < s.cfg.retry.toNat ∧ es = resetEvents s.cfg j p ∧ ok = !p ∧ o = false ∧ c = false ∧
          k = s.pinReads + j + 2)) ∧
      resetAndPresenceDetect s = (ok, { s with
        mode := .floating, out := o, crit := c, env := e, pinReads := k, trace := s.trace ++ es }) := by
  obtain ⟨b, j, e, hj, he⟩ := pollIdle_spec s.cfg.retry.toNat (setFloating s)
  rcases hj with ⟨rfl, hj⟩ | ⟨rfl, rfl⟩
  · refine ⟨resetEvents s.cfg j (e.answer .presence (s.pinReads + j + 1)), !e.answer .presence (s.pinReads + j + 1), false, false,
      e.afterRead .presence, s.pinReads + j + 2, .inr ⟨j, _, hj, rfl, rfl, rfl, rfl, rfl⟩, ?_⟩
    simp only [resetAndPresenceDetect, setFloating_cfg, he, if_true, resetPulse_eq]
    simp [resetEvents, pinLevel]
  · refine ⟨deadResetEvents s.cfg, false, s.out, s.crit, e, s.pinReads + s.cfg.retry.toNat, .inl ⟨rfl, rfl, rfl, rfl, rfl⟩, ?_⟩
    simp only [resetAndPresenceDetect, setFloating_cfg, he]
    simp [deadResetEvents]

theorem reset_isReset (s : State) :
    ∃ es, isReset s.cfg es (resetAndPresenceDetect s).1 ∧ (resetAndPresenceDetect s).2.trace = s.trace ++ es := by
  obtain ⟨es, ok, o, c, e, k, h, he⟩ := resetAndPresenceDetect_spec s
  refine ⟨es, ?_, by rw [he]⟩
  rw [he]
  rcases h with ⟨h, h', -, -⟩ | ⟨j, p, hj, h, h', -, -⟩
  · exact .inr ⟨h, h'⟩
  · exact .inl ⟨j, p, hj, h, h'⟩

theorem reset_frame (s : State) : BusFrame s (resetAndPresenceDetect s).2 := by
  obtain ⟨es, ok, o, c, e, k, -, he⟩ := resetAndPresenceDetect_spec s
  rw [he]; constructor <;> simp

@[simp] theorem reset_mode (s : State) : (resetAndPresenceDetect s).2.mode = .floating := by
  obtain ⟨es, ok, o, c, e, k, -, he⟩ := resetAndPresenceDetect_spec s
  rw [he]

@[simp] theorem reset_enum (s : State) : (resetAndPresenceDetect s).2.enum = s.enum := by
  obtain ⟨es, ok, o, c, e, k, -, he⟩ := resetAndPresenceDetect_spec s
  rw [he]

/-- A bus reset never raises `CRIT` (R140). -/
theorem reset_crit (s : State) (h : s.crit = false) : (resetAndPresenceDetect s).2.crit = false := by
  obtain ⟨es, ok, o, c, e, k, hc, he⟩ := resetAndPresenceDetect_spec s
  rw [he]
  rcases hc with ⟨-, -, -, hc⟩ | ⟨j, p, -, -, -, -, hc⟩ <;> simp [hc, h]

/-- The read slots for these bit places take one answer each and put them there (R145). -/
theorem readBitsInto_spec (is : List Nat) (x : Byte) (s : State) :
    ∃ (ls : List Level) (o c : Bool) (m : PinMode) (e : Env) (k : Nat),
      ls.length = is.length ∧ (is ≠ [] → m = .floating ∧ o = false ∧ c = false) ∧
      readBitsInto is x s = ((is.zip ls).foldl (fun x p => setBitOf x p.1 p.2) x, { s with
        mode := m, out := o, crit := c, env := e, pinReads := k, trace := s.trace ++ ls.flatMap (readSlot s.cfg) }) := by
  induction is generalizing x s with
  | nil => exact ⟨[], s.out, s.crit, s.mode, s.env, s.pinReads, rfl, by simp, by simp [readBitsInto]⟩
  | cons i is ih =>
    obtain ⟨ls, o, c, m, e, k, hl, hm, he⟩ := ih (setBitOf x i (pinLevel .slot s)) (readBit s).2
    refine ⟨pinLevel .slot s :: ls, o, c, m, e, k, by simp [hl], fun _ => ?_, ?_⟩
    · by_cases h : is = []
      · subst h
        have := congrArg Prod.snd he
        simp only [readBitsInto, readBit_eq] at this
        have h1 := congrArg State.mode this
        have h2 := congrArg State.out this
        have h3 := congrArg State.crit this
        exact ⟨h1.symm, h2.symm, h3.symm⟩
      · exact hm h
    · have h1 : (readBit s).1 = pinLevel .slot s := by rw [readBit_eq]
      simp only [readBitsInto, h1, he]
      simp [readBit_eq]

/-- Putting eight wire bits in their places gives the byte they spell (R67, R145). -/
theorem foldl_setBitOf (ls : List Level) (h : ls.length = 8) :
    ([0, 1, 2, 3, 4, 5, 6, 7].zip ls).foldl (fun x p => setBitOf x p.1 p.2) 0x00 = byteOfWire ls := by
  match ls, h with
  | [a, b, c, d, e, f, g, i], _ =>
    cases a <;> cases b <;> cases c <;> cases d <;> cases e <;> cases f <;> cases g <;> cases i <;> decide

/-- Everything `readByte()` can do: eight answers, and the byte they spell (R145). -/
theorem readByte_spec (s : State) :
    ∃ (ls : List Level) (e : Env) (k : Nat), ls.length = 8 ∧
      readByte s = (byteOfWire ls, { s with
        mode := .floating, out := false, crit := false, env := e, pinReads := k,
        trace := s.trace ++ ls.flatMap (readSlot s.cfg) }) := by
  obtain ⟨ls, o, c, m, e, k, hl, hm, he⟩ := readBitsInto_spec [0, 1, 2, 3, 4, 5, 6, 7] 0x00 s
  obtain ⟨rfl, rfl, rfl⟩ := hm (by simp)
  refine ⟨ls, e, k, hl, ?_⟩
  rw [readByte, he, foldl_setBitOf ls hl]

theorem readByte_frame (s : State) : BusFrame s (readByte s).2 := by
  obtain ⟨ls, e, k, -, he⟩ := readByte_spec s
  rw [he]; constructor <;> simp

theorem peek_congr {s t : State} (a : Nat) (hr : t.rom = s.rom) (hm : t.mem = s.mem) : peek a t = peek a s := by
  simp [peek, hr, hm]

theorem unwritten_congr {s t : State} (a : Nat) (hr : t.romWritten = s.romWritten) (hm : t.mem = s.mem) :
    unwritten a t = unwritten a s := by
  simp [unwritten, hr, hm]

theorem anyUnwritten_succ (a n : Nat) (s : State) :
    anyUnwritten a (n + 1) s = (unwritten a s || anyUnwritten (a + 1) n s) := by
  have h : (fun j => unwritten (a + Nat.succ j) s) = fun j => unwritten (a + 1 + j) s := by
    funext j; congr 1; omega
  simp [anyUnwritten, List.range_succ_eq_map, List.any_map, Function.comp_def, h]

theorem peeks_succ (a n : Nat) (s : State) : peeks a (n + 1) s = peek a s :: peeks (a + 1) n s := by
  have h : (fun j => peek (a + Nat.succ j) s) = fun j => peek (a + 1 + j) s := by
    funext j; congr 1; omega
  simp [peeks, List.range_succ_eq_map, List.map_map, Function.comp_def, h]

/-- A run of byte reads gives the bytes and leaves nothing but the mark (R71). -/
theorem readRun_eq (a n : Nat) (s : State) :
    readRun a n s = (peeks a n s, { s with unwrittenRead := s.unwrittenRead || anyUnwritten a n s }) := by
  induction n generalizing a s with
  | zero => simp [readRun, peeks, anyUnwritten]
  | succ n ih =>
    rw [readRun, ih, peeks_succ, anyUnwritten_succ]
    simp [touch, Bool.or_assoc, peeks, anyUnwritten, peek, unwritten]

/-- Everything the sending of a run of bytes does (R147, R172). -/
theorem sendRun_eq (a n : Nat) (s : State) :
    sendRun a n s = if n = 0 then s else { s with
      mode := .floating, out := true, crit := false,
      env := s.env.afterWrites ((peeks a n s).flatMap wireBits),
      unwrittenRead := s.unwrittenRead || anyUnwritten a n s,
      trace := s.trace ++ (peeks a n s).flatMap (writeByteEvents s.cfg) } := by
  induction n generalizing a s with
  | zero => simp [sendRun]
  | succ n ih =>
    rw [sendRun, ih, writeByte_eq]
    by_cases h : n = 0
    · subst h; simp [touch, peeks, anyUnwritten]
    · rw [if_neg h, peeks_succ, anyUnwritten_succ]
      simp [touch, Bool.or_assoc, peeks, anyUnwritten, peek, unwritten, Env.afterWrites]

/-- The bytes that reading `n` bytes into `BUF[p..]` leaves in memory. -/
def storeRun (p : Nat) : List Byte → Memory → Memory
  | [], m => m
  | x :: xs, m => storeRun (p + 1) xs (m.store (bufAddr p) x)

/-- Everything `readBytes` can do: eight answers for each byte, stored in ascending order (R149). -/
theorem readBytes_spec (p n : Nat) (s : State) :
    ∃ (lss : List (List Level)) (o c : Bool) (m : PinMode) (e : Env) (k : Nat),
      lss.length = n ∧ (∀ ls ∈ lss, ls.length = 8) ∧ (n ≠ 0 → m = .floating ∧ o = false ∧ c = false) ∧
      (n = 0 → m = s.mode ∧ o = s.out ∧ c = s.crit) ∧
      readBytes p n s = { s with
        mode := m, out := o, crit := c, env := e, pinReads := k, mem := storeRun p (lss.map byteOfWire) s.mem,
        trace := s.trace ++ lss.flatten.flatMap (readSlot s.cfg) } := by
  induction n generalizing p s with
  | zero => exact ⟨[], s.out, s.crit, s.mode, s.env, s.pinReads, rfl, by simp, by simp, by simp, by simp [readBytes, storeRun]⟩
  | succ n ih =>
    obtain ⟨ls, e, k, hl, he⟩ := readByte_spec s
    obtain ⟨lss, o, c, m, e', k', hn, hls, hm, h0, he'⟩ :=
      ih (p + 1) (pokeBuf (bufAddr p) (readByte s).1 (readByte s).2)
    refine ⟨ls :: lss, o, c, m, e', k', by simp [hn], by simpa [hl] using hls, fun _ => ?_, by simp, ?_⟩
    · by_cases h : n = 0
      · have := h0 h
        simpa [he] using this
      · exact hm h
    · rw [readBytes, he', he]
      simp [pokeBuf, storeRun]

theorem storeRun_lookup (p : Nat) (xs : List Byte) (m : Memory) (a : Nat) :
    (storeRun p xs m).lookup a =
      if bufAddr p ≤ a ∧ a < bufAddr p + xs.length then xs[a - bufAddr p]? else m.lookup a := by
  induction xs generalizing p m with
  | nil => rw [storeRun, if_neg (by simp only [List.length_nil]; omega)]
  | cons x xs ih =>
    have hb : bufAddr (p + 1) = bufAddr p + 1 := rfl
    rw [storeRun, ih, Memory.lookup_store, hb, List.length_cons]
    generalize bufAddr p = b
    by_cases h : a = b
    · subst h; simp
    · by_cases h2 : b + 1 ≤ a ∧ a < b + 1 + xs.length
      · have : a - b = (a - (b + 1)) + 1 := by omega
        rw [if_pos h2, if_pos (by omega), this, List.getElem?_cons_succ]
      · rw [if_neg h2, if_neg h, if_neg (by omega)]

theorem storeRun_wf (p : Nat) (xs : List Byte) {m : Memory} (h : m.wf) (hp : p + xs.length ≤ 128) : (storeRun p xs m).wf := by
  induction xs generalizing p m with
  | nil => exact h
  | cons x xs ih =>
    simp only [List.length_cons] at hp
    exact ih (p + 1) (Memory.store_wf x h (by simp only [bufAddr]; omega)) (by omega)

end Sys2Proof.Machine
end

