-- ==== Sys2Proof/Laws/Crc8.lean ====
section
/-! SUPPORT. The CRC-8 function as a bijection: the facts behind R187 and R191. -/

namespace Sys2Proof.Machine

/-- A round is a bijection on bytes (R187): "the input can be recovered". -/
theorem crcRound_injective : Function.Injective crcRound := by
  intro a b; revert a b; decide +kernel

theorem crcRounds_injective (n : Nat) : Function.Injective (crcRounds n) := by
  induction n with
  | zero => intro a b h; exact h
  | succ n ih => intro a b h; exact crcRound_injective (ih h)

theorem crcRounds_zero (n : Nat) : crcRounds n 0 = 0 := by
  induction n with
  | zero => rfl
  | succ n ih => exact ih

/-- The rounds map only 0x00 to 0x00 (R187). -/
theorem crcRounds_eq_zero {n : Nat} {c : Byte} : crcRounds n c = 0 ↔ c = 0 :=
  ⟨fun h => crcRounds_injective n (h.trans (crcRounds_zero n).symm), fun h => h ▸ crcRounds_zero n⟩

/-- `crcStep(c, e) = 0x00` exactly when `c = e` (R187). -/
theorem crcStep_eq_zero {c e : Byte} : crcStep c e = 0 ↔ c = e := by
  rw [crcStep, crcRounds_eq_zero]
  exact BitVec.xor_eq_zero_iff

theorem crcStep_left_injective (x : Byte) : Function.Injective (crcStep · x) := by
  intro a b h
  simpa using crcRounds_injective 8 h

theorem crcStep_right_injective (c : Byte) : Function.Injective (crcStep c) := by
  intro a b h
  simpa using crcRounds_injective 8 h

@[simp] theorem crc8_append (d e : List Byte) : crc8 (d ++ e) = e.foldl crcStep (crc8 d) := by
  simp [crc8]

/-- Folding the same bytes into different checksums keeps them different. -/
theorem foldl_crcStep_injective (d : List Byte) : Function.Injective (fun c => d.foldl crcStep c) := by
  induction d with
  | nil => intro a b h; exact h
  | cons x d ih => intro a b h; exact crcStep_left_injective x (ih h)

end Sys2Proof.Machine
end

