-- ==== Sys2Proof/Laws/Enumerator.lean ====
section
/-! SUPPORT. What a search can do: one induction over its steps, and the facts that follow from it. -/

namespace Sys2Proof.Machine

/-- Everything a bit/complement pair does: two read slots (R203 step 1). -/
theorem readPair_eq (s : State) :
    readPair s = ((s.env.answer .slot s.pinReads, (s.env.afterRead .slot).answer .slot (s.pinReads + 1)), { s with
      mode := .floating, out := false, crit := false, env := (s.env.afterRead .slot).afterRead .slot, pinReads := s.pinReads + 2,
      trace := s.trace ++ readSlot s.cfg (s.env.answer .slot s.pinReads) ++
        readSlot s.cfg ((s.env.afterRead .slot).answer .slot (s.pinReads + 1)) }) := by
  unfold readPair
  simp only [readBit_eq s]
  rw [readBit_eq]
  rfl

/-- A reflexive and transitive relation that every step of a search meets holds across the whole search. A search of the bits
from `d0` up records bits from `d0` up only (R212 b). -/
theorem search_rel {R : State → State → Prop} (d0 : Nat) (refl : ∀ s, R s s) (trans : ∀ {s t u}, R s t → R t u → R s u)
    (hread : ∀ s, R s (readBit s).2) (hwrite : ∀ v s, R s (writeBit v false s)) (hbyte : ∀ x s, R s (writeByte x false s))
    (hreset : ∀ s, R s (resetAndPresenceDetect s).2) (henter : ∀ d s, R s (enterSearch d s)) (hleave : ∀ s, R s (leaveSearch s))
    (hwait : ∀ w s, R s (setWaiting w s)) (hset : ∀ d v s, d0 ≤ d → d < 64 → R s (setbit d v s))
    (hterm : ∀ s, R s (searchTerminal s)) :
    ∀ n s, n + d0 ≤ 64 → R s (search n s) := by
  have hpair : ∀ s, R s (readPair s).2 := fun s => trans (hread s) (hread _)
  have hbranch : ∀ d v s, d0 ≤ d → d < 64 → R s (takeBranch d v s) := fun d v s h h' => trans (hset d v s h h') (hwrite _ _)
  have hreplay : ∀ n i s, R s (replay i n s) := by
    intro n
    induction n with
    | zero => exact fun i s => refl s
    | succ n ih => exact fun i s => trans (trans (hpair s) (hwrite _ _)) (ih _ _)
  have hreenter : ∀ d s, d0 ≤ d → d < 64 → R s (reenter d s) := fun d s h h' =>
    trans (trans (trans (hbyte _ s) (hreplay _ _ _)) (hpair _)) (hbranch _ _ _ h h')
  intro n
  induction n with
  | zero => exact fun s _ => trans (trans (henter _ s) (hterm _)) (hleave _)
  | succ n ih =>
    intro s hn
    have hd : d0 ≤ 63 - n ∧ 63 - n < 64 := by omega
    have h1 : R s (readPair (enterSearch (63 - n) s)).2 := trans (henter _ s) (hpair _)
    have deeper : ∀ v t, R t (search n (takeBranch (63 - n) v t)) := fun v t =>
      trans (hbranch _ _ _ hd.1 hd.2) (ih _ (by omega))
    simp only [search]
    split
    · exact trans h1 (hleave _)
    · exact trans (trans h1 (deeper _ _)) (hleave _)
    · exact trans (trans h1 (deeper _ _)) (hleave _)
    · have h2 := trans (trans (trans h1 (hwait true _)) (deeper false _)) (hwait false _)
      split
      · exact trans (trans (trans (trans h2 (hreset _)) (hreenter _ _ hd.1 hd.2)) (ih _ (by omega))) (hleave _)
      · exact trans (trans h2 (hreset _)) (hleave _)

theorem searchTerminal_frame (s : State) : BusFrame s (searchTerminal s) := by
  unfold searchTerminal
  split
  · exact (report_frame _ _).trans (modEnum_frame _ _)
  · exact .refl s

theorem readPair_frame (s : State) : BusFrame s (readPair s).2 := (readBit_frame s).trans (readBit_frame _)

theorem takeBranch_frame (d : Nat) (v : Level) (s : State) : BusFrame s (takeBranch d v s) :=
  (modEnum_frame _ s).trans (writeBit_frame v false _)

theorem replay_frame (i n : Nat) (s : State) : BusFrame s (replay i n s) := by
  induction n generalizing i s with
  | zero => exact .refl s
  | succ n ih => exact ((readPair_frame s).trans (writeBit_frame _ _ _)).trans (ih _ _)

theorem reenter_frame (d : Nat) (s : State) : BusFrame s (reenter d s) :=
  (((writeByte_frame _ s).trans (replay_frame _ _ _)).trans (readPair_frame _)).trans (takeBranch_frame _ _ _)

/-- A search touches pins, environment, trace and Enumeration State only. -/
theorem search_frame (n : Nat) (s : State) (h : n ≤ 64) : BusFrame s (search n s) :=
  search_rel 0 BusFrame.refl BusFrame.trans readBit_frame (fun v s => writeBit_frame v false s) writeByte_frame reset_frame
    (fun _ s => modEnum_frame _ s) (fun s => modEnum_frame _ s) (fun _ s => modEnum_frame _ s)
    (fun _ _ s _ _ => modEnum_frame _ s) searchTerminal_frame n s (by omega)

@[simp] theorem searchTerminal_mode (s : State) : (searchTerminal s).mode = s.mode := by
  unfold searchTerminal; split <;> simp

@[simp] theorem searchTerminal_crit (s : State) : (searchTerminal s).crit = s.crit := by
  unfold searchTerminal; split <;> simp

/-- A search leaves a released pin released and enabled preemption enabled (R216). -/
theorem search_idle (n : Nat) (s : State) (h : n ≤ 64) (hm : s.mode = .floating) (hc : s.crit = false) :
    (search n s).mode = .floating ∧ (search n s).crit = false := by
  refine search_rel (R := fun s t => s.mode = .floating ∧ s.crit = false → t.mode = .floating ∧ t.crit = false) 0
    (fun _ => id) (fun f g => g ∘ f) ?_ ?_ ?_ ?_ ?_ ?_ ?_ ?_ ?_ n s (by omega) ⟨hm, hc⟩
  · intro s _; simp [readBit_eq]
  · intro v s _; simp [writeBit_eq]
  · intro x s _; simp [writeByte_eq]
  · intro s hs; exact ⟨reset_mode s, reset_crit s hs.2⟩
  · intro d s hs; exact hs
  · intro s hs; exact hs
  · intro w s hs; exact hs
  · intro d v s _ _ hs; exact hs
  · intro s hs; simpa using hs

/-! ### Reports and their count -/

theorem reports_append (a b : List PortEvent) : reports (a ++ b) = reports a ++ reports b := by simp [reports]

/-- No slot, byte or reset reports anything. -/
theorem reports_writeSlot (c : Config) (v h : Bool) : reports (writeSlot c v h) = [] := by cases h <;> rfl

theorem reports_readSlot (c : Config) (l : Level) : reports (readSlot c l) = [] := rfl

theorem reports_flatMap_nil {α : Type} (f : α → List PortEvent) (h : ∀ a, reports (f a) = []) (l : List α) :
    reports (l.flatMap f) = [] := by
  induction l with
  | nil => rfl
  | cons a l ih => rw [List.flatMap_cons, reports_append, h, ih]; rfl

theorem reports_writeByteEvents (c : Config) (x : Byte) : reports (writeByteEvents c x) = [] :=
  reports_flatMap_nil _ (fun v => reports_writeSlot c v false) _

theorem reports_pollEvents (c : Config) (j : Nat) : reports (pollEvents c j) = [] := by
  induction j with
  | zero => rfl
  | succ j ih => rw [pollEvents_succ]; exact ih

theorem reports_isReset {c : Config} {es : List PortEvent} {ok : Bool} (h : isReset c es ok) : reports es = [] := by
  rcases h with ⟨j, p, -, rfl, -⟩ | ⟨rfl, -⟩
  · have : reports (resetEvents c j p) = reports (pollEvents c j ++ .readPin true :: pulseEvents c p) := rfl
    rw [this, reports_append, reports_pollEvents]; rfl
  · exact reports_pollEvents c _

/-- `ECOUNT` of the running pass, if one runs. -/
def passCount (s : State) : Option Nat := s.enum.map (·.count)

/-- From `s` to `t` valid identifiers `rs` were reported, and each was counted (R204). -/
def Counted (s t : State) : Prop :=
  ∃ rs, reports t.trace = reports s.trace ++ rs ∧ (∀ id ∈ rs, idValid id = true) ∧
    passCount t = (passCount s).map (· + rs.length)

theorem Counted.trans {s t u : State} (h : Counted s t) (k : Counted t u) : Counted s u := by
  obtain ⟨rs, h1, h2, h3⟩ := h
  obtain ⟨qs, k1, k2, k3⟩ := k
  refine ⟨rs ++ qs, by rw [k1, h1, List.append_assoc], ?_, ?_⟩
  · simpa [or_imp, forall_and] using ⟨h2, k2⟩
  · rw [k3, h3]; cases passCount s <;> simp; omega

/-- An operation that reports nothing and does not touch the count. -/
theorem Counted.of_silent {s t : State} (h : reports t.trace = reports s.trace) (hc : passCount t = passCount s) :
    Counted s t := ⟨[], by simpa using h, by simp, by rw [hc]; cases passCount s <;> simp⟩

theorem Counted.refl (s : State) : Counted s s := .of_silent rfl rfl

theorem counted_reset (s : State) : Counted s (resetAndPresenceDetect s).2 := by
  obtain ⟨es, h, ht⟩ := reset_isReset s
  refine .of_silent ?_ (by simp [passCount])
  rw [ht, reports_append, reports_isReset h, List.append_nil]

theorem counted_writeByte (x : Byte) (s : State) : Counted s (writeByte x false s) := by
  rw [writeByte_eq]
  exact .of_silent (by simp [reports_append, reports_writeByteEvents]) rfl

theorem counted_modEnum {f : Enumeration → Enumeration} (hf : ∀ e, (f e).count = e.count) (s : State) :
    Counted s (modEnum f s) :=
  .of_silent rfl (by simp only [passCount, modEnum_enum]; cases s.enum <;> simp [hf])

theorem counted_terminal (s : State) (h : s.enum ≠ none) : Counted s (searchTerminal s) := by
  unfold searchTerminal
  split
  · rename_i hv
    refine ⟨[(enumOf s).id], by simp [reports_append]; rfl, by simpa using hv, ?_⟩
    obtain ⟨e, he⟩ := Option.ne_none_iff_exists'.1 h
    simp [passCount, he]
  · exact .refl s

/-- A search keeps the pass alive, reports valid identifiers only, and counts each report (R204, R245). -/
theorem search_counted (n : Nat) (s : State) (h : n ≤ 64) (he : s.enum ≠ none) :
    (search n s).enum ≠ none ∧ Counted s (search n s) := by
  have alive : ∀ f s, State.enum s ≠ none → (modEnum f s).enum ≠ none := fun f s hs => by simpa using hs
  refine search_rel (R := fun s t => s.enum ≠ none → t.enum ≠ none ∧ Counted s t) 0 (fun s hs => ⟨hs, .refl s⟩)
    (fun f g hs => ⟨(g (f hs).1).1, (f hs).2.trans (g (f hs).1).2⟩) ?_ ?_ ?_ ?_ ?_ ?_ ?_ ?_ ?_ n s (by omega) he
  · intro s hs
    rw [readBit_eq]
    exact ⟨hs, .of_silent (by simp [reports_append, reports_readSlot]) rfl⟩
  · intro v s hs
    rw [writeBit_eq]
    exact ⟨hs, .of_silent (by simp [reports_append, reports_writeSlot]) rfl⟩
  · intro x s hs
    exact ⟨by rw [writeByte_eq]; exact hs, counted_writeByte x s⟩
  · intro s hs; exact ⟨by rwa [reset_enum], counted_reset s⟩
  · intro d s hs; exact ⟨alive _ s hs, counted_modEnum (by intro e; rfl) s⟩
  · intro s hs; exact ⟨alive _ s hs, counted_modEnum (by intro e; rfl) s⟩
  · intro w s hs; exact ⟨alive _ s hs, counted_modEnum (by intro e; rfl) s⟩
  · intro d v s _ _ hs; exact ⟨alive _ s hs, counted_modEnum (by intro e; rfl) s⟩
  · intro s hs
    refine ⟨?_, counted_terminal s hs⟩
    unfold searchTerminal
    split
    · exact alive _ _ hs
    · exact hs

/-! ### A whole pass -/

theorem discoverPass_frame (s : State) : BusFrame s (discoverPass s) := by
  unfold discoverPass
  simp only
  split
  · exact (reset_frame s).trans ((writeByte_frame _ _).trans (search_frame 64 _ le_rfl))
  · exact reset_frame s

theorem discoverPass_counted (s : State) (he : s.enum ≠ none) :
    (discoverPass s).enum ≠ none ∧ Counted s (discoverPass s) := by
  unfold discoverPass
  simp only
  split
  · obtain ⟨h1, h2⟩ := search_counted 64 (writeByte (enumOf (resetAndPresenceDetect s).2).scmd false (resetAndPresenceDetect s).2)
      le_rfl (by rw [writeByte_eq]; simpa using he)
    exact ⟨h1, ((counted_reset s).trans (counted_writeByte _ _)).trans h2⟩
  · exact ⟨by rwa [reset_enum], counted_reset s⟩

/-- A pass started with the pin released leaves it released, and never raises `CRIT` (R216). -/
theorem discoverPass_idle (s : State) : (discoverPass s).mode = .floating ∧ (s.crit = false → (discoverPass s).crit = false) := by
  unfold discoverPass
  simp only
  split
  · have := search_idle 64 (writeByte (enumOf (resetAndPresenceDetect s).2).scmd false (resetAndPresenceDetect s).2) le_rfl
      (by simp [writeByte_eq]) (by simp [writeByte_eq])
    exact ⟨this.1, fun _ => this.2⟩
  · exact ⟨reset_mode s, reset_crit s⟩

end Sys2Proof.Machine
end

