-- ==== Sys2Proof/Laws/DeviceBus.lean ====
section
/-! SUPPORT. A search on the reference environment `DeviceBus` (95_test_vectors section 2, R200): `search_on_bus` says once which
paths it walks, what it reports and what it costs. -/

namespace Sys2Proof.Machine

/-! ### Devices, slot by slot -/

/-- A device put into a state. -/
def Device.put (x : DeviceState) (d : Device) : Device := { d with state := x }

/-- The devices `D`, those that meet `P` in state `x` and the rest off. -/
def devicesIn (P : Device → Bool) (x : DeviceState) (D : List Device) : List Device :=
  D.map (fun d => d.put (if P d then x else .off))

/-- What does not change of a bus: its devices, their states left aside. -/
def baseOf (D : List Device) : List Device := D.map (Device.put .off)

theorem baseOf_devicesIn (P : Device → Bool) (x : DeviceState) (D : List Device) : baseOf (devicesIn P x D) = baseOf D := by
  simp [baseOf, devicesIn, Device.put, Function.comp_def]

theorem put_of_base {D E : List Device} (x : DeviceState) (h : baseOf D = baseOf E) :
    D.map (Device.put x) = E.map (Device.put x) := by
  have : ∀ D, D.map (Device.put x) = (baseOf D).map (Device.put x) := fun D => by
    simp [baseOf, Device.put, Function.comp_def]
  rw [this D, this E, h]

theorem put_baseOf (x : DeviceState) (D : List Device) : (baseOf D).map (Device.put x) = D.map (Device.put x) := by
  simp [baseOf, Device.put, Function.comp_def]

theorem devicesIn_off (P : Device → Bool) (D : List Device) : devicesIn P .off D = devicesIn (fun _ => false) .off D := by
  simp [devicesIn]

theorem read_first (P : Device → Bool) (k : Nat) (D : List Device) :
    (devicesIn P (.search k .bit) D).map Device.afterRead = devicesIn P (.search k .complement) D := by
  rw [devicesIn, devicesIn, List.map_map]
  refine congrArg (List.map · D) (funext fun d => ?_)
  by_cases h : P d = true <;> simp [h, Device.afterRead, Device.put]

theorem read_second (P : Device → Bool) (k : Nat) (D : List Device) :
    (devicesIn P (.search k .complement) D).map Device.afterRead = devicesIn P (.search k .direction) D := by
  rw [devicesIn, devicesIn, List.map_map]
  refine congrArg (List.map · D) (funext fun d => ?_)
  by_cases h : P d = true <;> simp [h, Device.afterRead, Device.put]

/-- "only devices whose own bit matches the written value continue" (R200). -/
theorem write_direction (P : Device → Bool) (k : Nat) (v : Level) (D : List Device) :
    (devicesIn P (.search k .direction) D).map (Device.afterWrite v) =
      devicesIn (fun d => P d && (v == idBit d.id k)) (if k + 1 < 64 then .search (k + 1) .bit else .off) D := by
  rw [devicesIn, devicesIn, List.map_map]
  refine congrArg (List.map · D) (funext fun d => ?_)
  by_cases h : P d = true
  · by_cases h2 : v = idBit d.id k <;> by_cases h3 : k + 1 < 64 <;> simp [h, h2, h3, Device.afterWrite, Device.put]
  · simp [h, Device.afterWrite, Device.put]

/-- The first read of a pair is the AND of the bits (R200). -/
theorem level_first (P : Device → Bool) (k : Nat) (D : List Device) (V : Option Nat) (r : Nat) :
    (DeviceBus.mk (devicesIn P (.search k .bit) D) V r).slotLevel = ((D.filter P).map (·.id)).all (idBit · k) := by
  have h : (devicesIn P (.search k .bit) D).filterMap Device.contribution = ((D.filter P).map (·.id)).map (idBit · k) := by
    induction D with
    | nil => rfl
    | cons d D ih =>
      have hc : devicesIn P (.search k .bit) (d :: D) =
        d.put (if P d then .search k .bit else .off) :: devicesIn P (.search k .bit) D := rfl
      rw [hc, List.filterMap_cons]
      by_cases h : P d = true <;> simp [h, Device.contribution, Device.put, ih]
  rw [DeviceBus.slotLevel, h, List.all_map]; rfl

/-- The second read of a pair is the AND of the complements (R200). -/
theorem level_second (P : Device → Bool) (k : Nat) (D : List Device) (V : Option Nat) (r : Nat) :
    (DeviceBus.mk (devicesIn P (.search k .complement) D) V r).slotLevel = ((D.filter P).map (·.id)).all (!idBit · k) := by
  have h : (devicesIn P (.search k .complement) D).filterMap Device.contribution =
      ((D.filter P).map (·.id)).map (!idBit · k) := by
    induction D with
    | nil => rfl
    | cons d D ih =>
      have hc : devicesIn P (.search k .complement) (d :: D) =
        d.put (if P d then .search k .complement else .off) :: devicesIn P (.search k .complement) D := rfl
      rw [hc, List.filterMap_cons]
      by_cases h : P d = true <;> simp [h, Device.contribution, Device.put, ih]
  rw [DeviceBus.slotLevel, h, List.all_map]; rfl

/-- A device that listens has the byte after eight write slots. -/
theorem listen_byte (x : Byte) (d : Device) :
    (wireBits x).foldl (fun d v => d.afterWrite v) (d.put (.listen [])) = d.put (d.command x) := by
  have h : ∀ a b c e f g i j : Level, [a, b, c, e, f, g, i, j].foldl (fun d v => Device.afterWrite v d) (d.put (.listen [])) =
      d.put (d.command (byteOfWire [a, b, c, e, f, g, i, j])) := fun a b c e f g i j => rfl
  conv => rhs; rw [← byteOfWire_wireBits x]
  exact h _ _ _ _ _ _ _ _

theorem bus_afterWrites (vs : List Level) (b : DeviceBus) : (Env.deviceBus b).afterWrites vs =
    .deviceBus { b with devs := b.devs.map (fun d => vs.foldl (fun d v => d.afterWrite v) d) } := by
  induction vs generalizing b with
  | nil => simp [Env.afterWrites]
  | cons v vs ih =>
    have : (Env.deviceBus b).afterWrites (v :: vs) = ((Env.deviceBus b).afterWrite v).afterWrites vs := rfl
    rw [this, Env.afterWrite, ih]
    simp [List.map_map, Function.comp_def]

/-- Does the device take part in a pass (R200, R218)? -/
def takesPart (alarm : Bool) (d : Device) : Bool := !alarm || d.alarmed

/-- The search byte (R201, R218). -/
def searchByte (alarm : Bool) : Byte := if alarm then 0xEC else 0xF0

theorem command_searchByte (alarm : Bool) (d : Device) :
    d.command (searchByte alarm) = if takesPart alarm d then .search 0 .bit else .off := by
  cases alarm <;> cases h : d.alarmed <;> simp [searchByte, Device.command, takesPart, h]

theorem bus_searchByte (alarm : Bool) (D : List Device) (V : Option Nat) (r : Nat) :
    (Env.deviceBus ⟨D.map (Device.put (.listen [])), V, r⟩).afterWrites (wireBits (searchByte alarm)) =
      .deviceBus ⟨devicesIn (takesPart alarm) (.search 0 .bit) D, V, r⟩ := by
  rw [bus_afterWrites]
  simp only [List.map_map, devicesIn]
  refine congrArg (fun l => Env.deviceBus ⟨l, V, r⟩) (congrArg (List.map · D) (funext fun d => ?_))
  rw [Function.comp_apply, listen_byte, command_searchByte]

/-- Everything a bus reset does on a device bus: the line idles high at once. -/
theorem reset_on_bus (s : State) (b : DeviceBus) (h : s.env = .deviceBus b) (hr : 0 < s.cfg.retry.toNat) :
    resetAndPresenceDetect s = (b.present && !b.devs.isEmpty, { s with
      mode := .floating, out := false, crit := false, pinReads := s.pinReads + 2,
      env := .deviceBus { b with
        devs := b.devs.map (Device.put (if b.present then .listen [] else .off)), resets := b.resets + 1 },
      trace := s.trace ++ resetEvents s.cfg 0 (!(b.present && !b.devs.isEmpty)) }) := by
  have hp : ∀ n, 0 < n → ∀ s : State, s.env = .deviceBus b → pollIdle n s = (true, readPin .poll s) := by
    intro n hn s h
    obtain ⟨n, rfl⟩ := Nat.exists_eq_succ_of_ne_zero (Nat.ne_of_gt hn)
    rw [pollIdle, if_pos (by simp [pinLevel, h, Env.answer])]
  have hp := hp (setFloating s).cfg.retry.toNat hr (setFloating s) h
  simp only [resetAndPresenceDetect, hp, if_true, resetPulse_eq]
  simp [readPin, emit, pinLevel, h, Env.answer, Env.afterRead, DeviceBus.afterPresence, resetEvents, pollEvents, setFloating,
    Device.put]

/-! ### Who is on the path -/

/-- Takes part, and agrees with `E` on the first `d` bits. -/
def onPath (alarm : Bool) (d : Nat) (E : Identifier) (x : Device) : Bool :=
  takesPart alarm x && decide (∀ j < d, idBit x.id j = idBit E j)

theorem onPath_zero (alarm : Bool) (E : Identifier) : onPath alarm 0 E = takesPart alarm := by funext x; simp [onPath]

theorem onPath_succ (alarm : Bool) {d : Nat} (hd : d < 64) (E : Identifier) (v : Level) :
    (fun x : Device => onPath alarm d E x && (v == idBit x.id d)) = onPath alarm (d + 1) (setIdBit E d v) := by
  funext x
  have : (∀ j < d + 1, idBit x.id j = idBit (setIdBit E d v) j) ↔ (∀ j < d, idBit x.id j = idBit E j) ∧ v = idBit x.id d := by
    constructor
    · intro h
      refine ⟨fun j hj => ?_, ?_⟩
      · have := h j (by omega)
        rwa [idBit_setIdBit _ _ _ _ hd (by omega), if_neg (by omega)] at this
      · have := h d (by omega)
        rw [idBit_setIdBit _ _ _ _ hd hd, if_pos rfl] at this
        exact this.symm
    · rintro ⟨h1, h2⟩ j hj
      rw [idBit_setIdBit _ _ _ _ hd (by omega)]
      split
      · rename_i h; rw [h]; exact h2.symm
      · exact h1 j (by omega)
  simp only [onPath, this, Bool.decide_and, Bool.and_assoc]
  congr

theorem onPath_congr (alarm : Bool) {d : Nat} {E F : Identifier} (h : ∀ j < d, idBit E j = idBit F j) :
    onPath alarm d E = onPath alarm d F := by
  funext x
  have : (∀ j < d, idBit x.id j = idBit E j) ↔ (∀ j < d, idBit x.id j = idBit F j) :=
    ⟨fun k j hj => by rw [← h j hj, k j hj], fun k j hj => by rw [h j hj, k j hj]⟩
  simp only [onPath, this]

/-- The identifiers of the devices on the path. -/
def pathIds (alarm : Bool) (D : List Device) (d : Nat) (E : Identifier) : List Identifier :=
  (D.filter (onPath alarm d E)).map (·.id)

theorem pathIds_succ (alarm : Bool) (D : List Device) {d : Nat} (hd : d < 64) (E : Identifier) (v : Level) :
    pathIds alarm D (d + 1) (setIdBit E d v) = (pathIds alarm D d E).filter (fun x => v == idBit x d) := by
  simp only [pathIds, ← onPath_succ alarm hd, List.filter_map, List.filter_filter]
  congr 2; funext x; simp [Bool.and_comm]

theorem pathIds_prefix {alarm : Bool} {D : List Device} {d : Nat} {E x : Identifier} (h : x ∈ pathIds alarm D d E) :
    ∀ j < d, idBit x j = idBit E j := by
  obtain ⟨y, hy, rfl⟩ := List.mem_map.1 h
  have := (List.mem_filter.1 hy).2
  simp [onPath] at this
  exact this.2

theorem pathIds_zero (alarm : Bool) (D : List Device) (E : Identifier) :
    pathIds alarm (baseOf D) 0 E = (D.filter (takesPart alarm)).map (·.id) := by
  rw [pathIds, onPath_zero, baseOf, List.filter_map, List.map_map]; rfl

theorem setIdBit_same {E : Identifier} {k : Nat} (hk : k < 64) : setIdBit E k (idBit E k) = E := by
  refine id_ext fun j hj => ?_
  rw [idBit_setIdBit _ _ _ _ hk hj]
  split
  · rename_i h; rw [h]
  · rfl

/-- The block and the bus at the start of `search(d)`, `E` the identifier buffer: the devices on the path are about to send. -/
structure AtDepth (alarm : Bool) (D : List Device) (V : Option Nat) (d r : Nat) (E : Identifier) (s : State) : Prop where
  retry : 0 < s.cfg.retry.toNat
  enum : ∃ en, s.enum = some en ∧ en.scmd = searchByte alarm ∧ en.id = E
  env : s.env = .deviceBus
    ⟨if d < 64 then devicesIn (onPath alarm d E) (.search d .bit) D else devicesIn (fun _ => false) .off D, V, r⟩

variable {alarm : Bool} {D : List Device} {V : Option Nat} {d r : Nat} {E : Identifier} {s : State}

theorem AtDepth.modEnum (h : AtDepth alarm D V d r E s) {f : Enumeration → Enumeration}
    (hf : ∀ e, (f e).scmd = e.scmd ∧ (f e).id = e.id) : AtDepth alarm D V d r E (modEnum f s) := by
  obtain ⟨en, a, b, c⟩ := h.enum
  exact ⟨h.retry, ⟨f en, by rw [modEnum_enum, a, Option.map_some], by rw [(hf en).1, b], by rw [(hf en).2, c]⟩, h.env⟩

/-- The pair read at a depth, and the devices waiting for the direction bit. -/
theorem AtDepth.pair (h : AtDepth alarm D V d r E s) (hd : d < 64) :
    (readPair s).1 = ((pathIds alarm D d E).all (idBit · d), (pathIds alarm D d E).all (!idBit · d)) ∧
      (readPair s).2.env = .deviceBus ⟨devicesIn (onPath alarm d E) (.search d .direction) D, V, r⟩ := by
  have he := h.env
  rw [if_pos hd] at he
  have h1 : s.env.afterRead .slot = .deviceBus ⟨devicesIn (onPath alarm d E) (.search d .complement) D, V, r⟩ := by
    rw [he]; simp only [Env.afterRead, read_first]
  rw [readPair_eq, h1]
  refine ⟨?_, ?_⟩
  · rw [he]; simp only [Env.answer, level_first, level_second, pathIds]
  · simp only [Env.afterRead, read_second]

/-- Events of one pass, counted: the reports, and what R217 counts. -/
structure Tally (es : List PortEvent) (ids : List Identifier) (high exits : Nat) : Prop where
  reports : reports es = ids
  high : es.count .driveHigh = high
  exits : es.count .exitCritical = exits

theorem Tally.append {a b : List PortEvent} {i j : List Identifier} {k l m n : Nat} (h : Tally a i k m) (g : Tally b j l n) :
    Tally (a ++ b) (i ++ j) (k + l) (m + n) :=
  ⟨by rw [reports_append, h.1, g.1], by rw [List.count_append, h.2, g.2], by rw [List.count_append, h.3, g.3]⟩

theorem Tally.nil : Tally [] [] 0 0 := ⟨rfl, rfl, rfl⟩

theorem tally_writeSlot (c : Config) (v : Level) : Tally (writeSlot c v false) [] 1 1 := by
  refine ⟨reports_writeSlot c v false, ?_, ?_⟩ <;> simp [writeSlot]

theorem tally_readSlot (c : Config) (l : Level) : Tally (readSlot c l) [] 0 1 := by
  refine ⟨rfl, ?_, ?_⟩ <;> simp [readSlot]

theorem tally_reset (c : Config) (l : Level) : Tally (resetEvents c 0 l) [] 0 1 := by
  refine ⟨rfl, ?_, ?_⟩ <;> simp [resetEvents, pollEvents, pulseEvents]

theorem tally_byte (c : Config) (x : Byte) : Tally (writeByteEvents c x) [] 8 8 := by
  have : ∀ vs : List Level, Tally (vs.flatMap (fun v => writeSlot c v false)) [] vs.length vs.length := by
    intro vs
    induction vs with
    | nil => exact .nil
    | cons v vs ih =>
      have := (tally_writeSlot c v).append ih
      rwa [Nat.add_comm] at this
  exact this (wireBits x)

/-- From `s` to `t`: samples taken and events emitted. -/
structure Cost (s t : State) (samples : Nat) (ids : List Identifier) (high exits : Nat) : Prop where
  cfg : t.cfg = s.cfg
  pinReads : t.pinReads = s.pinReads + samples
  trace : ∃ es, t.trace = s.trace ++ es ∧ Tally es ids high exits

theorem Cost.refl (s : State) : Cost s s 0 [] 0 0 := ⟨rfl, rfl, [], by simp, .nil⟩

theorem Cost.trans {s t u : State} {a b k l m n : Nat} {i j : List Identifier} (h : Cost s t a i k m) (g : Cost t u b j l n) :
    Cost s u (a + b) (i ++ j) (k + l) (m + n) := by
  obtain ⟨h1, h2, es, h3, h4⟩ := h
  obtain ⟨g1, g2, fs, g3, g4⟩ := g
  exact ⟨g1.trans h1, by rw [g2, h2, Nat.add_assoc], es ++ fs, by rw [g3, h3, List.append_assoc], h4.append g4⟩

theorem Cost.cast {s t : State} {a b k l m n : Nat} {i : List Identifier} (h : Cost s t a i k m) (h1 : a = b) (h2 : k = l)
    (h3 : m = n) : Cost s t b i l n := h1 ▸ h2 ▸ h3 ▸ h

theorem cost_pair (s : State) : Cost s (readPair s).2 2 [] 0 2 := by
  rw [readPair_eq]
  exact ⟨rfl, rfl, _, by simp only [List.append_assoc]; rfl, (tally_readSlot _ _).append (tally_readSlot _ _)⟩

theorem cost_writeBit (v : Level) (s : State) : Cost s (writeBit v false s) 0 [] 1 1 := by
  rw [writeBit_eq]
  exact ⟨rfl, rfl, _, rfl, tally_writeSlot _ _⟩

theorem cost_takeBranch (d : Nat) (v : Level) (s : State) : Cost s (takeBranch d v s) 0 [] 1 1 := by
  obtain ⟨h1, h2, h3⟩ := cost_writeBit v (setbit d v s)
  exact ⟨h1, h2, h3⟩

theorem cost_writeByte (x : Byte) (s : State) : Cost s (writeByte x false s) 0 [] 8 8 := by
  rw [writeByte_eq]
  exact ⟨rfl, rfl, _, rfl, tally_byte _ _⟩

theorem cost_modEnum (f : Enumeration → Enumeration) (s : State) : Cost s (modEnum f s) 0 [] 0 0 :=
  ⟨rfl, rfl, [], by simp, .nil⟩

theorem cost_reset (b : DeviceBus) (h : s.env = .deviceBus b) (hr : 0 < s.cfg.retry.toNat) :
    Cost s (resetAndPresenceDetect s).2 2 [] 0 1 := by
  rw [reset_on_bus s b h hr]
  exact ⟨rfl, rfl, _, rfl, tally_reset _ _⟩

/-- Writing a direction bit at the depth, from any state in which the devices wait for it. -/
theorem atDepth_takeBranch {p : State} {en : Enumeration} (hr : 0 < p.cfg.retry.toNat) (h1 : p.enum = some en)
    (h2 : en.scmd = searchByte alarm) (hp : p.env = .deviceBus ⟨devicesIn (onPath alarm d en.id) (.search d .direction) D, V, r⟩)
    (hd : d < 64) (v : Level) : AtDepth alarm D V (d + 1) r (setIdBit en.id d v) (takeBranch d v p) := by
  refine ⟨by rw [(cost_takeBranch d v p).cfg]; exact hr, ?_, ?_⟩
  · rw [takeBranch, writeBit_eq]
    exact ⟨{ en with id := setIdBit en.id d v }, by simp only [setbit, modEnum_enum, h1, Option.map_some], h2, rfl⟩
  · have : (takeBranch d v p).env = p.env.afterWrite v := by rw [takeBranch, writeBit_eq]; rfl
    rw [this, hp]
    simp only [Env.afterWrite, write_direction, onPath_succ alarm hd]
    split
    · rfl
    · rw [devicesIn_off]

theorem AtDepth.takeBranch (h : AtDepth alarm D V d r E s) (hd : d < 64) (v : Level) {f : Enumeration → Enumeration}
    (hf : ∀ e, (f e).scmd = e.scmd ∧ (f e).id = e.id) :
    AtDepth alarm D V (d + 1) r (setIdBit E d v) (takeBranch d v (Machine.modEnum f (readPair s).2)) := by
  obtain ⟨en, a, b, rfl⟩ := h.enum
  have he : (Machine.modEnum f (readPair s).2).enum = some (f en) := by
    rw [modEnum_enum, readPair_eq]; simp only [a, Option.map_some]
  have := atDepth_takeBranch (alarm := alarm) (D := D) (V := V) (r := r) (p := Machine.modEnum f (readPair s).2)
    (by rw [(cost_modEnum _ _).cfg, (cost_pair s).cfg]; exact h.retry) he (by rw [(hf en).1, b])
    (by rw [(hf en).2]; exact (h.pair hd).2) hd v
  rwa [(hf en).2] at this

theorem modEnum_id (s : State) : modEnum id s = s := by cases s; simp [modEnum]

/-- The replay of `m` bits leaves the devices that agree with them at the next depth (R208). -/
theorem AtDepth.replay (m d : Nat) (hd : d + m < 64) (s : State) (h : AtDepth alarm D V d r E s) :
    AtDepth alarm D V (d + m) r E (replay d m s) ∧ Cost s (replay d m s) (2 * m) [] m (3 * m) := by
  induction m generalizing d s with
  | zero => exact ⟨h, .refl s⟩
  | succ m ih =>
    obtain ⟨en, h1, h2, h3⟩ := h.enum
    have he : (readPair s).2.enum = some en := by rw [readPair_eq]; exact h1
    have hg : getbit d (readPair s).2 = idBit E d := by rw [getbit, enumOf, he, Option.getD_some, h3]
    have ht := h.takeBranch (show d < 64 by omega) (idBit E d) (f := id) (fun _ => ⟨rfl, rfl⟩)
    rw [setIdBit_same (show d < 64 by omega), modEnum_id] at ht
    have hw : writeBit (idBit E d) false (readPair s).2 = Machine.takeBranch d (idBit E d) (readPair s).2 := by
      rw [Machine.takeBranch]
      congr 1
      rw [setbit, Machine.modEnum, he]
      simp only [Option.map_some, ← h3, setIdBit_same (show d < 64 by omega)]
      rw [← he]
    obtain ⟨k1, k2⟩ := ih (d + 1) (by omega) _ ht
    rw [Machine.replay]
    simp only [hg, hw]
    refine ⟨by rw [show d + (m + 1) = d + 1 + m by omega]; exact k1, ?_⟩
    exact (((cost_pair s).trans (cost_takeBranch d (idBit E d) _)).trans k2).cast (by omega) (by omega) (by omega)

/-! ### Sorted lists of identifiers -/

/-- Identifiers that agree below bit `d` and are in the order of R214 split at bit `d`, zeros first. -/
theorem split_at_bit (d : Nat) (E : Identifier) (L : List Identifier) (hp : L.Pairwise idBefore)
    (hE : ∀ x ∈ L, ∀ j < d, idBit x j = idBit E j) :
    L = L.filter (fun x => false == idBit x d) ++ L.filter (fun x => true == idBit x d) := by
  induction L with
  | nil => rfl
  | cons x L ih =>
    obtain ⟨h1, h2⟩ := List.pairwise_cons.1 hp
    have ih := ih h2 (fun y hy => hE y (by simp [hy]))
    cases hx : idBit x d
    · rw [List.filter_cons_of_pos (by simp [hx]), List.filter_cons_of_neg (by simp [hx]), List.cons_append, ← ih]
    · have hall : ∀ y ∈ L, idBit y d = true := by
        intro y hy
        obtain ⟨k, hk, ha, hb, hc⟩ := h1 y hy
        have hkd : d ≤ k := by
          by_contra hlt
          have e1 := hE x (by simp) k (by omega)
          have e2 := hE y (by simp [hy]) k (by omega)
          rw [hb] at e1; rw [hc] at e2; rw [← e1] at e2; cases e2
        rcases Nat.eq_or_lt_of_le hkd with rfl | hlt
        · exact hc
        · rw [← ha d hlt, hx]
      have f0 : L.filter (fun x => false == idBit x d) = [] := List.filter_eq_nil_iff.2 (fun y hy => by simp [hall y hy])
      have f1 : L.filter (fun x => true == idBit x d) = L := List.filter_eq_self.2 (fun y hy => by simp [hall y hy])
      rw [List.filter_cons_of_neg (by simp [hx]), List.filter_cons_of_pos (by simp [hx]), f0, f1]; rfl

/-- The paths walked from a transaction that has begun, `r` resets having been counted: all, or as many as the devices last. -/
def walked (V : Option Nat) (r : Nat) (L : List Identifier) : List Identifier :=
  match V with
  | none => L
  | some v => L.take (1 + (v - r))

theorem take_append_of_vanish (L0 L1 : List Identifier) (v r r1 : Nat) (h0 : L0 ≠ [])
    (h : v - r1 = (v - r) - (L0.length - 1)) :
    (r1 < v → (L0 ++ L1).take (1 + (v - r)) = L0.take (1 + (v - r)) ++ L1.take (1 + (v - (r1 + 1)))) ∧
      (¬r1 < v → (L0 ++ L1).take (1 + (v - r)) = L0.take (1 + (v - r))) := by
  have : 0 < L0.length := List.length_pos_of_ne_nil h0
  constructor
  · intro hlt
    rw [List.take_append]; congr 2; omega
  · intro hlt
    have h1 : 1 + (v - r) - L0.length = 0 := by omega
    rw [List.take_append, h1, List.take_zero, List.append_nil]

/-! ### The search -/

/-- What `search` has done from `s` to `t`, with `n` bits to find and `L` the identifiers on the path in the order of R214. -/
structure Searched (alarm : Bool) (D : List Device) (V : Option Nat) (n r : Nat) (E : Identifier) (L : List Identifier)
    (s t : State) : Prop where
  cfg : t.cfg = s.cfg
  enum : ∃ en, t.enum = some en ∧ en.scmd = searchByte alarm ∧ ∀ k < 64 - n, idBit en.id k = idBit E k
  env : ∃ devs r', t.env = .deviceBus ⟨devs, V, r'⟩ ∧ baseOf devs = baseOf D ∧
    ∀ v, V = some v → v - r' = (v - r) - (L.length - 1)
  reports : reports t.trace = reports s.trace ++ (walked V r L).filter idValid
  cost : V = none →
    Cost s t (2 * n + 130 * (L.length - 1)) (L.filter idValid) (n + 72 * (L.length - 1)) (3 * n + 201 * (L.length - 1))

variable {n : Nat} {L : List Identifier} {t : State}

theorem Cost.reports {s t : State} {a b c : Nat} {ids : List Identifier} (h : Cost s t a ids b c) :
    reports t.trace = reports s.trace ++ ids := by
  obtain ⟨-, -, es, h1, h2⟩ := h
  rw [h1, reports_append, h2.reports]

theorem Searched.modEnum (h : Searched alarm D V n r E L s t) {f : Enumeration → Enumeration}
    (hf : ∀ e, (f e).scmd = e.scmd ∧ (f e).id = e.id) : Searched alarm D V n r E L s (modEnum f t) := by
  obtain ⟨h1, ⟨en, a, b, c⟩, h3, h4, h5⟩ := h
  refine ⟨h1, ⟨f en, by rw [modEnum_enum, a, Option.map_some], by rw [(hf en).1, b], ?_⟩, h3, h4, fun hv => ?_⟩
  · rw [(hf en).2]; exact c
  · have := (h5 hv).trans (cost_modEnum f t)
    rwa [List.append_nil] at this

/-- One depth more in front: the pair, the recorded bit, its write slot. -/
theorem Searched.step {u : State} {v : Level} (hn : n < 64) (h : Searched alarm D V n r (setIdBit E (63 - n) v) L u t)
    (hu : Cost s u 2 [] 1 3) : Searched alarm D V (n + 1) r E L s t := by
  obtain ⟨h1, ⟨en, x, y, z⟩, h3, h4, h5⟩ := h
  refine ⟨h1.trans hu.cfg, ⟨en, x, y, fun k hk => ?_⟩, h3, ?_, fun hv => ?_⟩
  · rw [z k (by omega), idBit_setIdBit _ _ _ _ (by omega) (by omega), if_neg (by omega)]
  · rw [h4, hu.reports, List.append_nil]
  · exact (hu.trans (h5 hv)).cast (by omega) (by omega) (by omega)

/-- A replay reset that succeeds brings the path to the 1 branch (R208, R209). -/
theorem atDepth_reenter {en : Enumeration} {devs : List Device} (hd : d < 64) (hr : 0 < s.cfg.retry.toNat) (he : s.enum = some en)
    (hs : en.scmd = searchByte alarm) (hv : s.env = .deviceBus ⟨devs, V, r⟩) (hb : baseOf devs = baseOf D)
    (hpr : (DeviceBus.mk devs V r).present = true) (hne : D ≠ []) :
    (resetAndPresenceDetect s).1 = true ∧
      AtDepth alarm D V (d + 1) (r + 1) (setIdBit en.id d true) (reenter d (resetAndPresenceDetect s).2) ∧
      Cost s (reenter d (resetAndPresenceDetect s).2) (4 + 2 * d) [] (9 + d) (12 + 3 * d) := by
  have hdev : devs ≠ [] := by
    rintro rfl
    apply hne
    have : baseOf D = [] := hb.symm
    simpa [baseOf] using this
  have hpres : ((DeviceBus.mk devs V r).present && !devs.isEmpty) = true := by
    rw [hpr]
    cases devs with
    | nil => exact absurd rfl hdev
    | cons _ _ => rfl
  have hR := reset_on_bus s _ hv hr
  have hc := cost_reset _ hv hr
  rw [hpres, hpr, if_pos rfl, put_of_base (.listen []) hb] at hR
  generalize resetAndPresenceDetect s = q at hR hc ⊢
  obtain ⟨ok, s1⟩ := q
  injection hR with hok hs1
  refine ⟨hok, ?_⟩
  simp only at hc ⊢
  have hen : s1.enum = some en := by rw [hs1]; exact he
  have hscmd : (enumOf s1).scmd = searchByte alarm := by rw [enumOf, hen, Option.getD_some, hs]
  have henv : s1.env = .deviceBus ⟨D.map (Device.put (.listen [])), V, r + 1⟩ := by rw [hs1]
  have hw : AtDepth alarm D V 0 (r + 1) en.id (writeByte (searchByte alarm) false s1) := by
    refine ⟨by rw [(cost_writeByte _ s1).cfg, hc.cfg]; exact hr, ⟨en, by rw [writeByte_eq]; exact hen, hs, rfl⟩, ?_⟩
    have : (writeByte (searchByte alarm) false s1).env = s1.env.afterWrites (wireBits (searchByte alarm)) := by
      rw [writeByte_eq]
    rw [this, henv, bus_searchByte, onPath_zero]; rfl
  obtain ⟨k1, k2⟩ := hw.replay d 0 (by omega)
  rw [Nat.zero_add] at k1
  have k3 := k1.takeBranch hd true (f := id) (fun _ => ⟨rfl, rfl⟩)
  rw [modEnum_id] at k3
  have hre : reenter d s1 = takeBranch d true (readPair (replay 0 d (writeByte (searchByte alarm) false s1))).2 := by
    rw [reenter, hscmd]
  rw [hre]
  exact ⟨k3, ((((hc.trans (cost_writeByte _ s1)).trans k2).trans (cost_pair _)).trans (cost_takeBranch d true _)).cast
    (by omega) (by omega) (by omega)⟩

/-- A collision after its 0 branch: the replay and the 1 branch, or the failed reset (R207 to R210). -/
theorem searched_collision (hn : n < 64) {L0 L1 : List Identifier} {u : State} (hr : 0 < s.cfg.retry.toNat)
    (ih : ∀ (r : Nat) (E : Identifier) (L : List Identifier) (s : State), AtDepth alarm D V (64 - n) r E s →
      L.Perm (pathIds alarm D (64 - n) E) → L.Pairwise idBefore → L ≠ [] → Searched alarm D V n r E L s (search n s))
    (hD : Searched alarm D V (n + 1) r E L0 s u) (hDne : D ≠ []) (hsp : L = L0 ++ L1) (hne0 : L0 ≠ []) (hne1 : L1 ≠ [])
    (hL1 : L1.Perm (pathIds alarm D (64 - n) (setIdBit E (63 - n) true))) (hs1 : L1.Pairwise idBefore) :
    Searched alarm D V (n + 1) r E L s (if (resetAndPresenceDetect u).1
      then leaveSearch (search n (reenter (63 - n) (resetAndPresenceDetect u).2))
      else leaveSearch (resetAndPresenceDetect u).2) := by
  have hd1 : 64 - n = 63 - n + 1 := by omega
  have hlen : L.length = L0.length + L1.length := by rw [hsp, List.length_append]
  have p0 : 0 < L0.length := List.length_pos_of_ne_nil hne0
  have p1 : 0 < L1.length := List.length_pos_of_ne_nil hne1
  obtain ⟨h1, ⟨en, a, b, c⟩, ⟨devs, r1, he, hb, hv⟩, h4, h5⟩ := hD
  have hr2 : 0 < u.cfg.retry.toNat := by rw [h1]; exact hr
  by_cases hpr : (DeviceBus.mk devs V r1).present = true
  · obtain ⟨k1, k2, k3⟩ := atDepth_reenter (d := 63 - n) (by omega) hr2 a b he hb hpr hDne
    rw [if_pos k1]
    refine Searched.modEnum ?_ (fun _ => ⟨rfl, rfl⟩)
    have hE : pathIds alarm D (64 - n) (setIdBit en.id (63 - n) true) =
        pathIds alarm D (64 - n) (setIdBit E (63 - n) true) := by
      rw [hd1, pathIds, pathIds, onPath_congr]
      intro j hj
      rw [idBit_setIdBit _ _ _ _ (by omega) (by omega), idBit_setIdBit _ _ _ _ (by omega) (by omega)]
      split
      · rfl
      · exact c j (by omega)
    obtain ⟨g1, ⟨en2, x, y, z⟩, ⟨devs2, r2, ge, gb, gv⟩, g4, g5⟩ :=
      ih (r1 + 1) _ L1 _ (by rw [hd1]; exact k2) (by rw [hE]; exact hL1) hs1 hne1
    refine ⟨g1.trans (k3.cfg.trans h1), ⟨en2, x, y, fun k hk => ?_⟩, ⟨devs2, r2, ge, gb, fun v hvv => ?_⟩, ?_, fun hvn => ?_⟩
    · rw [z k (by omega), idBit_setIdBit _ _ _ _ (by omega) (by omega), if_neg (by omega), c k hk]
    · rw [gv v hvv]
      have := hv v hvv
      have : r1 < v := by subst hvv; simpa [DeviceBus.present] using hpr
      omega
    · rw [g4, k3.reports, List.append_nil, h4, List.append_assoc, ← List.filter_append]
      refine congrArg (fun l => Machine.reports s.trace ++ List.filter idValid l) ?_
      rw [hsp]
      cases V with
      | none => rfl
      | some v =>
        have : r1 < v := by simpa [DeviceBus.present] using hpr
        exact ((take_append_of_vanish L0 L1 v r r1 hne0 (hv v rfl)).1 this).symm
    · have := ((h5 hvn).trans k3).trans (g5 hvn)
      rw [List.append_nil, ← List.filter_append, ← hsp] at this
      exact this.cast (by omega) (by omega) (by omega)
  · have hpr' : (DeviceBus.mk devs V r1).present = false := by simpa using hpr
    have hR := reset_on_bus u _ he hr2
    have hc := cost_reset _ he hr2
    rw [hpr'] at hR
    generalize resetAndPresenceDetect u = q at hR hc ⊢
    obtain ⟨ok, u1⟩ := q
    injection hR with hok hu1
    subst hok
    refine Searched.modEnum (⟨hc.cfg.trans h1, ⟨en, by rw [hu1]; exact a, b, c⟩, ⟨_, r1 + 1, by rw [hu1], ?_, fun v hvv => ?_⟩,
      ?_, fun hvn => ?_⟩ : Searched alarm D V (n + 1) r E L s u1) (fun _ => ⟨rfl, rfl⟩)
    · rw [← hb]; simp [baseOf, Device.put, Function.comp_def]
    · have := hv v hvv
      have : ¬r1 < v := by subst hvv; simpa [DeviceBus.present] using hpr
      omega
    · rw [hc.reports, List.append_nil, h4, hsp]
      cases V with
      | none => simp [DeviceBus.present] at hpr
      | some v =>
        have : ¬r1 < v := by simpa [DeviceBus.present] using hpr
        simp only [walked]
        rw [(take_append_of_vanish L0 L1 v r r1 hne0 (hv v rfl)).2 this]
    · subst hvn; simp [DeviceBus.present] at hpr

theorem searched_leaf (h : AtDepth alarm D V 64 r E s) (hL : L = [E]) : Searched alarm D V 0 r E L s (search 0 s) := by
  subst hL
  have h : AtDepth alarm D V 64 r E (enterSearch 64 s) := h.modEnum (fun _ => ⟨rfl, rfl⟩)
  obtain ⟨en, a, b, rfl⟩ := h.enum
  have hw : walked V r [en.id] = [en.id] := by
    cases V with
    | none => rfl
    | some v => simp only [walked, Nat.add_comm 1, List.take_succ_cons, List.take_nil]
  have hid : (enumOf (enterSearch 64 s)).id = en.id := by rw [enumOf, a, Option.getD_some]
  have henv := h.env
  rw [if_neg (by omega)] at henv
  rw [search, searchTerminal, hid]
  refine Searched.modEnum ?_ (fun _ => ⟨rfl, rfl⟩)
  by_cases hv : idValid en.id = true
  · rw [if_pos hv]
    have hc : Cost s (modEnum (fun e => { e with count := e.count + 1 }) (report en.id (enterSearch 64 s))) 0 [en.id] 0 0 :=
      ⟨rfl, rfl, [.report en.id], rfl, rfl, rfl, rfl⟩
    refine ⟨rfl, ⟨{ en with count := en.count + 1 }, by rw [modEnum_enum, report_enum, a, Option.map_some], b, fun _ _ => rfl⟩,
      ⟨_, r, henv, baseOf_devicesIn _ _ _, fun _ _ => rfl⟩, ?_, fun _ => ?_⟩
    · rw [hw, hc.reports, List.filter_cons_of_pos hv, List.filter_nil]
    · rw [List.filter_cons_of_pos hv, List.filter_nil]; exact hc
  · rw [if_neg hv]
    have hc : Cost s (enterSearch 64 s) 0 [] 0 0 := cost_modEnum _ _
    refine ⟨rfl, ⟨en, a, b, fun _ _ => rfl⟩, ⟨_, r, henv, baseOf_devicesIn _ _ _, fun _ _ => rfl⟩, ?_, fun _ => ?_⟩
    · rw [hw, hc.reports, List.filter_cons_of_neg hv, List.filter_nil]
    · rw [List.filter_cons_of_neg hv, List.filter_nil]; exact hc

/-- Everything a search does on a well-behaved bus: it walks the identifiers on its path in the order of R214 (R203, R210, R217). -/
theorem search_on_bus (alarm : Bool) (D : List Device) (V : Option Nat) (n : Nat) (hn : n ≤ 64) (r : Nat) (E : Identifier)
    (L : List Identifier) (s : State) (h : AtDepth alarm D V (64 - n) r E s) (hL : L.Perm (pathIds alarm D (64 - n) E))
    (hs : L.Pairwise idBefore) (hne : L ≠ []) : Searched alarm D V n r E L s (search n s) := by
  induction n generalizing r E L s with
  | zero =>
    refine searched_leaf h ?_
    have hall : ∀ x ∈ L, x = E := fun x hx => id_ext (pathIds_prefix (hL.subset hx))
    match L, hne with
    | [x], _ => rw [hall x (by simp)]
    | x :: y :: _, _ =>
      obtain ⟨k, -, -, h1, h2⟩ := (List.pairwise_cons.1 hs).1 y (by simp)
      rw [hall x (by simp)] at h1
      rw [hall y (by simp), h1] at h2
      cases h2
  | succ n ih =>
    have hd : 64 - (n + 1) = 63 - n := by omega
    have hd1 : 64 - n = 63 - n + 1 := by omega
    rw [hd] at h hL
    have hsp := split_at_bit (63 - n) E L hs (fun x hx => pathIds_prefix (hL.subset hx))
    have hLv : ∀ v, (L.filter (fun x => v == idBit x (63 - n))).Perm (pathIds alarm D (64 - n) (setIdBit E (63 - n) v)) := by
      intro v; rw [hd1, pathIds_succ alarm D (by omega)]; exact hL.filter _
    have hent : AtDepth alarm D V (63 - n) r E (enterSearch (63 - n) s) := h.modEnum (fun _ => ⟨rfl, rfl⟩)
    have hpair := (hent.pair (by omega)).1
    rw [← List.Perm.all_eq hL, ← List.Perm.all_eq hL] at hpair
    have cost : ∀ v f, Cost s (takeBranch (63 - n) v (modEnum f (readPair (enterSearch (63 - n) s)).2)) 2 [] 1 3 := fun v f =>
      ((((cost_modEnum _ s).trans (cost_pair (enterSearch (63 - n) s))).trans (cost_modEnum f _)).trans (cost_takeBranch _ v _))
    have one : ∀ v, (∀ x ∈ L, idBit x (63 - n) = v) → Searched alarm D V (n + 1) r E L s
        (leaveSearch (search n (takeBranch (63 - n) v (readPair (enterSearch (63 - n) s)).2))) := by
      intro v hv
      have hf : L.filter (fun x => v == idBit x (63 - n)) = L := List.filter_eq_self.2 (fun x hx => by simp [hv x hx])
      have hp := hLv v
      rw [hf] at hp
      have hc := cost v id
      have ht := hent.takeBranch (by omega) v (f := id) (fun _ => ⟨rfl, rfl⟩)
      rw [modEnum_id] at hc ht
      exact (Searched.step (by omega) (ih (by omega) r _ L _ (by rw [hd1]; exact ht) hp hs hne) hc).modEnum (fun _ => ⟨rfl, rfl⟩)
    rw [search]
    simp only
    cases e1 : L.all (idBit · (63 - n)) <;> cases e0 : L.all (!idBit · (63 - n)) <;> rw [e1, e0] at hpair <;> simp only [hpair]
    · have nonempty : ∀ v, (L.all fun x => !(v == idBit x (63 - n))) = false →
          L.filter (fun x => v == idBit x (63 - n)) ≠ [] := by
        intro v hv hnil
        have : (L.all fun x => !(v == idBit x (63 - n))) = true := by
          rw [List.all_eq_true]
          intro x hx
          simpa using List.filter_eq_nil_iff.1 hnil x hx
        rw [this] at hv; cases hv
      have hne0 := nonempty false (by simpa only [Bool.false_beq, Bool.not_not] using e1)
      have hne1 := nonempty true (by simpa only [Bool.true_beq] using e0)
      refine searched_collision (by omega) h.retry (ih (by omega)) ?_ ?_ hsp hne0 hne1 (hLv true) (hs.filter _)
      · refine (Searched.step (by omega) (ih (by omega) r _ _ _ ?_ (hLv false) (hs.filter _) hne0) (cost false _)).modEnum
          (fun _ => ⟨rfl, rfl⟩)
        rw [hd1]
        exact hent.takeBranch (by omega) false (fun _ => ⟨rfl, rfl⟩)
      · rintro rfl
        have := hL.length_eq
        simp [pathIds] at this
        exact hne this
    · exact one false (fun x hx => by simpa using (List.all_eq_true.1 e0) x hx)
    · exact one true (fun x hx => by simpa using (List.all_eq_true.1 e1) x hx)
    · exfalso
      obtain ⟨x, hx⟩ := List.exists_mem_of_ne_nil L hne
      have a := (List.all_eq_true.1 e0) x hx
      have b := (List.all_eq_true.1 e1) x hx
      simp [b] at a

end Sys2Proof.Machine
end

