-- ==== Sys2Proof/Laws/Exec.lean ====
section
/-! SUPPORT. What a command can do, said once for all of them: `exec_cases` says that a command either is refused and has done
nothing, or ran; `Ran` says what a command that ran may have changed. -/

namespace Sys2Proof.Machine

/-- What a command that ran leaves, whichever it was. `busy` says that it emitted a port event. -/
structure Ran (i : Instr) (s t : State) : Prop where
  cfg : t.cfg = s.cfg
  cmd : t.cmd = s.cmd
  arg : t.arg = s.arg
  ptr : t.ptr = s.ptr
  rom : t.rom = s.rom
  romWritten : t.romWritten = s.romWritten
  hostIn : t.hostIn = s.hostIn
  hostOut : t.hostOut = s.hostOut
  refused : t.refused = false
  rcode : t.rcode = 0
  result : i ∉ [Instr.readBit, .reset, .readByte, .crc8Check, .crc8Rom] → t.result = s.result
  count : (∀ sink alarm, i ≠ .discover sink alarm) → t.count = s.count
  enum : (t.enum = s.enum) ∨ (t.enum = none ∧ ∃ sink alarm, i = .discover sink alarm)
  mem : i ≠ .readBytes → t.mem = s.mem
  mem_wf : s.mem.wf → t.mem.wf
  trace : s.trace <+: t.trace
  pinReads : s.pinReads ≤ t.pinReads
  unwrittenRead : s.unwrittenRead = true → t.unwrittenRead = true
  pu : t.pu = if i = .writeByte true then s.cfg.apu || s.pu else if i = .releasePullup then !s.cfg.apu && s.pu else s.pu
  /-- Quiet: no event, no pin, no mark. -/
  quiet : t.trace = s.trace → t.mode = s.mode ∧ t.out = s.out ∧ t.crit = s.crit ∧ t.pu = s.pu ∧ t.holdViolation = s.holdViolation
  /-- Busy: the mark of R285, and the pins as the command leaves them. -/
  busy : t.trace ≠ s.trace →
    t.holdViolation = (s.holdViolation || (decide (i ≠ .releasePullup) && pullupHeld s)) ∧
    ((i = .writeByte true ∧ t.mode = (if s.cfg.apu then .floating else .driven) ∧ t.out = true ∧ t.crit = true) ∨
      ((∃ v, i = .writeBit true v) ∧ t.mode = .floating ∧ t.crit = true) ∨
      (i ≠ .writeByte true ∧ (∀ v, i ≠ .writeBit true v) ∧ t.mode = .floating ∧
        (t.crit = false ∨ (t.crit = s.crit ∧ i ≠ .releasePullup))))

theorem List.self_ne_append {α : Type} {a b : List α} (h : b ≠ []) : a ++ b ≠ a := by simpa using h

theorem prefix_length_le {α : Type} {a b : List α} (h : a <+: b) (h' : a.length < b.length) : b ≠ a := by
  rintro rfl; exact Nat.lt_irrefl _ h'

theorem reset_emits (s : State) : (resetAndPresenceDetect s).2.trace ≠ s.trace := by
  obtain ⟨es, h, ht⟩ := reset_isReset s
  rw [ht]
  refine List.self_ne_append ?_
  rcases h with ⟨j, p, -, rfl, -⟩ | ⟨rfl, -⟩ <;> simp [resetEvents, deadResetEvents]

theorem ne_of_prefix {α : Type} {a b c : List α} (h : a <+: b) (hn : b ≠ a) (h' : b <+: c) : c ≠ a := by
  rintro rfl
  exact hn (h.eq_of_length (Nat.le_antisymm h.length_le h'.length_le)).symm

theorem reset_pinReads (s : State) : s.pinReads ≤ (resetAndPresenceDetect s).2.pinReads := by
  have poll : ∀ n s, State.pinReads s ≤ (pollIdle n s).2.pinReads := by
    intro n
    induction n with
    | zero => exact fun s => le_rfl
    | succ n ih =>
      intro s
      rw [pollIdle]
      split
      · simp
      · exact le_trans (by simp) (ih _)
  have h : s.pinReads ≤ _ := poll (setFloating s).cfg.retry.toNat (setFloating s)
  simp only [resetAndPresenceDetect]
  by_cases hb : (pollIdle (setFloating s).cfg.retry.toNat (setFloating s)).1 = true
  · rw [if_pos hb, resetPulse_eq]; simp only; omega
  · rw [if_neg hb]; exact h

theorem search_pinReads (n : Nat) (s : State) (h : n ≤ 64) : s.pinReads ≤ (search n s).pinReads :=
  search_rel (R := fun s t => s.pinReads ≤ t.pinReads) 0 (fun _ => le_rfl) (fun h k => le_trans h k)
    (fun s => by simp [readBit_eq]) (fun v s => by simp [writeBit_eq]) (fun x s => by simp [writeByte_eq]) reset_pinReads
    (fun _ _ => le_rfl) (fun _ => le_rfl) (fun _ _ => le_rfl) (fun _ _ _ _ _ => le_rfl)
    (fun s => by unfold searchTerminal; split <;> simp) n s (by omega)

theorem readByte_pinReads (s : State) : (readByte s).2.pinReads = s.pinReads + 8 := by
  have : ∀ is x s, (readBitsInto is x s).2.pinReads = State.pinReads s + is.length := by
    intro is
    induction is with
    | nil => exact fun x s => rfl
    | cons i is ih => intro x s; rw [readBitsInto, ih, readBit_eq]; simp; omega
  exact this _ _ s

theorem readBytes_pinReads (p n : Nat) (s : State) : (readBytes p n s).pinReads = s.pinReads + 8 * n := by
  induction n generalizing p s with
  | zero => rfl
  | succ n ih => rw [readBytes, ih, pokeBuf_pinReads, readByte_pinReads]; omega

theorem discoverPass_pinReads (s : State) : s.pinReads ≤ (discoverPass s).pinReads := by
  unfold discoverPass
  simp only
  split
  · refine le_trans (reset_pinReads s) (le_trans ?_ (search_pinReads 64 _ le_rfl))
    simp [writeByte_eq]
  · exact reset_pinReads s

/-- An accepted bus command that keeps to a `BusFrame` and emits. -/
theorem Ran.of_bus (i : Instr) {s t : State} (hf : BusFrame (acceptBus s) t) (he : t.trace ≠ s.trace) (hen : t.enum = s.enum)
    (hp : s.pinReads ≤ t.pinReads) (hi : i ≠ .releasePullup) (hw : i ≠ .writeByte true) (hb : ∀ v, i ≠ .writeBit true v)
    (hm : t.mode = .floating) (hc : t.crit = false ∨ t.crit = s.crit) : Ran i s t where
  cfg := hf.cfg
  cmd := hf.cmd
  arg := hf.arg
  ptr := hf.ptr
  rom := hf.rom
  romWritten := hf.romWritten
  hostIn := hf.hostIn
  hostOut := hf.hostOut
  refused := hf.refused
  rcode := hf.rcode
  result := fun _ => hf.result
  count := fun _ => hf.count
  enum := .inl hen
  mem := fun _ => hf.mem
  mem_wf := fun h => by rw [hf.mem]; exact h
  trace := hf.trace
  pinReads := hp
  unwrittenRead := fun h => by rw [hf.unwrittenRead]; exact h
  pu := by rw [if_neg hw, if_neg hi, hf.pu]; rfl
  quiet := fun h => absurd h he
  busy := fun _ => ⟨by rw [hf.holdViolation]; simp [hi], .inr (.inr ⟨hw, hb, hm, hc.imp id (⟨·, hi⟩)⟩)⟩

/-- `RESULT` may be written by the five commands that return a value. -/
theorem Ran.with_result {i : Instr} {s t : State} (h : Ran i s t) (x : Byte)
    (hi : i ∈ [Instr.readBit, .reset, .readByte, .crc8Check, .crc8Rom]) : Ran i s { t with result := x } := by
  obtain ⟨h1, h2, h3, h4, h5, h6, h7, h8, h9, h10, h11, h12, h13, h14, h15, h16, h17, h18, h19, h20, h21⟩ := h
  exact ⟨h1, h2, h3, h4, h5, h6, h7, h8, h9, h10, fun hn => absurd hi hn, h12, h13, h14, h15, h16, h17, h18, h19, h20, h21⟩

/-- A quiet command: no port event. -/
theorem Ran.of_quiet {i : Instr} {s t : State} (r : Byte) (c : Half) (w : Bool)
    (h : t = { accept s with result := r, count := c, unwrittenRead := w }) (hw : s.unwrittenRead = true → w = true)
    (hp : i ≠ .writeByte true ∧ i ≠ .releasePullup)
    (hr : i ∉ [Instr.readBit, .reset, .readByte, .crc8Check, .crc8Rom] → r = s.result)
    (hc : (∀ sink alarm, i ≠ .discover sink alarm) → c = s.count) : Ran i s t := by
  subst h
  exact {
    cfg := rfl, cmd := rfl, arg := rfl, ptr := rfl, rom := rfl, romWritten := rfl, hostIn := rfl, hostOut := rfl, refused := rfl,
    rcode := rfl, result := hr, count := hc, enum := .inl rfl, mem := fun _ => rfl, mem_wf := id, trace := List.prefix_rfl,
    pinReads := le_rfl, unwrittenRead := hw, pu := by rw [if_neg hp.1, if_neg hp.2]; rfl, quiet := fun _ => ⟨rfl, rfl, rfl, rfl, rfl⟩,
    busy := fun h => absurd rfl h }

/-- When a command is refused, and with which code (R247). -/
def refusalOf (i : Instr) (s : State) : Option (BitVec 3) :=
  match i with
  | .odMatch => some 2
  | .odSkip => some 2
  | .writeBytes => if outOfBuffer s then some 3 else none
  | .readBytes => if outOfBuffer s then some 3 else none
  | .crc8Check => if outOfBufferCheck s then some 3 else none
  | .discover _ _ => if s.cfg.hasEnum then none else some 4
  | .writeBit _ _ => none
  | .readBit => none
  | .reset => none
  | .writeByte _ => none
  | .readByte => none
  | .releasePullup => none
  | .romSingle => none
  | .romMatch => none
  | .romSkip => none
  | .crc8Rom => none

theorem writeSlot_ne_nil (c : Config) (v h : Bool) : writeSlot c v h ≠ [] := by simp [writeSlot]

theorem writeByteEvents_ne_nil (c : Config) (x : Byte) : writeByteEvents c x ≠ [] := by
  simp [writeByteEvents, wireBits, writeSlot]

/-- A command that is not refused ran. -/
theorem exec_ran (i : Instr) (s : State) (hn : refusalOf i s = none) : ∃ t, exec i s = .next t ∧ Ran i s t := by
  have hreset := reset_frame (acceptBus s)
  cases i with
  | writeBit h v =>
    refine ⟨_, rfl, ?_⟩
    have hf := writeBit_frame v h (acceptBus s)
    have he : (writeBit v h (acceptBus s)).trace ≠ s.trace := by
      rw [writeBit_eq]; exact List.self_ne_append (writeSlot_ne_nil _ _ _)
    cases h with
    | false =>
      exact .of_bus (.writeBit false v) hf he (by rw [writeBit_eq]; rfl) (by rw [writeBit_eq]; simp) (by simp) (by simp)
        (by simp) (by rw [writeBit_eq]) (.inl (by rw [writeBit_eq]))
    | true =>
      rw [writeBit_eq]
      exact {
        cfg := rfl, cmd := rfl, arg := rfl, ptr := rfl, rom := rfl, romWritten := rfl, hostIn := rfl, hostOut := rfl, refused := rfl,
        rcode := rfl, result := fun _ => rfl, count := fun _ => rfl, enum := .inl rfl, mem := fun _ => rfl, mem_wf := id,
        trace := List.prefix_append _ _, pinReads := le_rfl, unwrittenRead := id, pu := rfl,
        quiet := fun h => absurd h (List.self_ne_append (writeSlot_ne_nil _ _ _)),
        busy := fun _ => ⟨by simp, .inr (.inl ⟨⟨v, rfl⟩, rfl, rfl⟩)⟩ }
  | readBit =>
    refine ⟨_, rfl, Ran.with_result (.of_bus .readBit (readBit_frame _) ?_ ?_ ?_ (by simp) (by simp) (by simp) ?_ (.inl ?_)) _ (by simp)⟩ <;>
      simp [readBit_eq, readSlot]
  | reset =>
    refine ⟨_, rfl, Ran.with_result (.of_bus .reset hreset (reset_emits _) (by simp) (reset_pinReads (acceptBus s)) (by simp) (by simp) (by simp)
      (by simp) ?_) _ (by simp)⟩
    obtain ⟨es, ok, o, c, e, k, hc, he⟩ := resetAndPresenceDetect_spec (acceptBus s)
    rw [he]
    rcases hc with ⟨-, -, -, rfl, -⟩ | ⟨j, p, -, -, -, -, rfl, -⟩
    · exact .inr rfl
    · exact .inl rfl
  | writeByte p =>
    refine ⟨_, rfl, ?_⟩
    cases p with
    | false =>
      refine .of_bus (.writeByte false) (writeByte_frame _ _) ?_ ?_ ?_ (by simp) (by simp) (by simp) ?_ (.inl ?_) <;>
        simp [writeByte_eq, writeByteEvents_ne_nil]
    | true =>
      rw [writeByte_hold_eq]
      exact {
        cfg := rfl, cmd := rfl, arg := rfl, ptr := rfl, rom := rfl, romWritten := rfl, hostIn := rfl, hostOut := rfl, refused := rfl,
        rcode := rfl, result := fun _ => rfl, count := fun _ => rfl, enum := .inl rfl, mem := fun _ => rfl, mem_wf := id,
        trace := List.prefix_append _ _, pinReads := le_rfl, unwrittenRead := id, pu := rfl,
        quiet := fun h => absurd h (List.self_ne_append (by simp [writeSlot])),
        busy := fun _ => ⟨by simp, .inl ⟨rfl, rfl, rfl, rfl⟩⟩ }
  | readByte =>
    obtain ⟨ls, e, k, hl, he⟩ := readByte_spec (acceptBus s)
    refine ⟨_, rfl, Ran.with_result (.of_bus .readByte (readByte_frame _) ?_ ?_ ?_ (by simp) (by simp) (by simp) ?_ (.inl ?_)) _ (by simp)⟩
    · rw [he]; refine List.self_ne_append ?_
      match ls, hl with
      | l :: ls, _ => simp [readSlot]
    · rw [he]; rfl
    · rw [readByte_pinReads]; simp
    · rw [he]
    · rw [he]
  | writeBytes =>
    have hr : outOfBuffer s = false := by simpa [refusalOf] using hn
    refine ⟨writeBytes (offsetOperand s) (lengthOperand s) (acceptBuffer s), by simp [exec, execWriteBytes, hr], ?_⟩
    by_cases h0 : lengthOperand s = 0
    · exact .of_quiet s.result s.count s.unwrittenRead (by simp [acceptBuffer, h0, writeBytes, sendRun, accept]) id (by simp) (fun _ => rfl) (fun _ => rfl)
    · have hne : (peeks (bufAddr (offsetOperand s)) (lengthOperand s) (acceptBus s)).flatMap (writeByteEvents s.cfg) ≠ [] := by
        obtain ⟨m, hm⟩ := Nat.exists_eq_succ_of_ne_zero h0
        rw [hm, peeks_succ]; simp [writeByteEvents_ne_nil]
      rw [acceptBuffer, if_neg h0, writeBytes, sendRun_eq, if_neg h0]
      exact {
        cfg := rfl, cmd := rfl, arg := rfl, ptr := rfl, rom := rfl, romWritten := rfl, hostIn := rfl, hostOut := rfl, refused := rfl,
        rcode := rfl, result := fun _ => rfl, count := fun _ => rfl, enum := .inl rfl, mem := fun _ => rfl, mem_wf := id,
        trace := List.prefix_append _ _, pinReads := le_rfl, unwrittenRead := fun h => by simp [h], pu := rfl,
        quiet := fun h => absurd h (List.self_ne_append hne),
        busy := fun _ => ⟨by simp, .inr (.inr ⟨by simp, by simp, rfl, .inl rfl⟩)⟩ }
  | readBytes =>
    have hr : outOfBuffer s = false := by simpa [refusalOf] using hn
    have hb : offsetOperand s + lengthOperand s ≤ 128 := by simpa [outOfBuffer, bufSize] using hr
    refine ⟨readBytes (offsetOperand s) (lengthOperand s) (acceptBuffer s), by simp [exec, execReadBytes, hr], ?_⟩
    by_cases h0 : lengthOperand s = 0
    · exact .of_quiet s.result s.count s.unwrittenRead (by simp [acceptBuffer, h0, readBytes, accept]) id (by simp) (fun _ => rfl) (fun _ => rfl)
    · rw [acceptBuffer, if_neg h0]
      have hk := readBytes_pinReads (offsetOperand s) (lengthOperand s) (acceptBus s)
      obtain ⟨lss, o, c, m, e, k, hl, h8, hm, -, he⟩ := readBytes_spec (offsetOperand s) (lengthOperand s) (acceptBus s)
      obtain ⟨rfl, rfl, rfl⟩ := hm h0
      have hne : lss.flatten.flatMap (readSlot s.cfg) ≠ [] := by
        match lss, hl, h8 with
        | [], hl, _ => exact absurd hl.symm h0
        | [] :: _, _, h8 => simp at h8
        | (l :: ls) :: lss, _, _ => simp [readSlot]
      rw [he] at hk ⊢
      exact {
        cfg := rfl, cmd := rfl, arg := rfl, ptr := rfl, rom := rfl, romWritten := rfl, hostIn := rfl, hostOut := rfl, refused := rfl,
        rcode := rfl, result := fun _ => rfl, count := fun _ => rfl, enum := .inl rfl, mem := fun h => absurd rfl h,
        mem_wf := fun h => storeRun_wf _ _ h (by simp only [List.length_map, hl]; exact hb),
        trace := List.prefix_append _ _, pinReads := by simp only [acceptBus_pinReads] at hk; simp only; omega,
        unwrittenRead := id, pu := rfl,
        quiet := fun h => absurd h (List.self_ne_append hne),
        busy := fun _ => ⟨by simp, .inr (.inr ⟨by simp, by simp, rfl, .inl rfl⟩)⟩ }
  | releasePullup =>
    refine ⟨_, rfl, ?_⟩
    rw [releaseActivePullup_eq]
    exact {
      cfg := rfl, cmd := rfl, arg := rfl, ptr := rfl, rom := rfl, romWritten := rfl, hostIn := rfl, hostOut := rfl, refused := rfl,
      rcode := rfl, result := fun _ => rfl, count := fun _ => rfl, enum := .inl rfl, mem := fun _ => rfl, mem_wf := id,
      trace := List.prefix_append _ _, pinReads := le_rfl, unwrittenRead := id, pu := rfl,
      quiet := fun h => absurd h (List.self_ne_append (by simp)),
      busy := fun _ => ⟨by simp, .inr (.inr ⟨by simp, by simp, rfl, .inl rfl⟩)⟩ }
  | romSingle =>
    refine ⟨_, rfl, ?_⟩
    refine .of_bus .romSingle (hreset.trans (writeByte_frame _ _)) ?_ ?_ ?_ (by simp) (by simp) (by simp) ?_ (.inl ?_)
    · exact ne_of_prefix hreset.trace (reset_emits _) (writeByte_frame _ _).trace
    · rw [romCommand, writeByte_eq]; simp
    · rw [romCommand, writeByte_eq]; exact reset_pinReads (acceptBus s)
    · rw [romCommand, writeByte_eq]
    · rw [romCommand, writeByte_eq]
  | romMatch =>
    refine ⟨_, rfl, ?_⟩
    rw [sendRun_eq, if_neg (by simp), romCommand, writeByte_eq]
    have hf := hreset
    exact {
      cfg := hf.cfg, cmd := hf.cmd, arg := hf.arg, ptr := hf.ptr, rom := hf.rom, romWritten := hf.romWritten, hostIn := hf.hostIn,
      hostOut := hf.hostOut, refused := hf.refused, rcode := hf.rcode, result := fun _ => hf.result, count := fun _ => hf.count,
      enum := .inl (by simp), mem := fun _ => hf.mem, mem_wf := fun h => by simp only; rw [hf.mem]; exact h,
      trace := by simp only; exact (hf.trace.trans (List.prefix_append _ _)).trans (List.prefix_append _ _),
      pinReads := reset_pinReads (acceptBus s), unwrittenRead := fun h => by simp [hf.unwrittenRead, h], pu := hf.pu,
      quiet := fun h => absurd h (ne_of_prefix hf.trace (reset_emits _)
        ((List.prefix_append _ _).trans (List.prefix_append _ _))),
      busy := fun _ => ⟨by simp [hf.holdViolation], .inr (.inr ⟨by simp, by simp, rfl, .inl rfl⟩)⟩ }
  | romSkip =>
    refine ⟨_, rfl, ?_⟩
    refine .of_bus .romSkip (hreset.trans (writeByte_frame _ _)) ?_ ?_ ?_ (by simp) (by simp) (by simp) ?_ (.inl ?_)
    · exact ne_of_prefix hreset.trace (reset_emits _) (writeByte_frame _ _).trace
    · rw [romCommand, writeByte_eq]; simp
    · rw [romCommand, writeByte_eq]; exact reset_pinReads (acceptBus s)
    · rw [romCommand, writeByte_eq]
    · rw [romCommand, writeByte_eq]
  | odMatch => simp [refusalOf] at hn
  | odSkip => simp [refusalOf] at hn
  | crc8Check =>
    have hr : outOfBufferCheck s = false := by simpa [refusalOf] using hn
    refine ⟨_, by simp only [exec, execCrc8Check, hr, Bool.false_eq_true, if_false]; rfl, ?_⟩
    simp only [readRun_eq]
    exact .of_quiet _ s.count _ rfl (fun h => by simp [h]) (by simp) (fun h => absurd (by simp) h) (fun _ => rfl)
  | crc8Rom =>
    refine ⟨_, rfl, ?_⟩
    simp only [readRun_eq]
    exact .of_quiet _ s.count _ rfl (fun h => by simp [h]) (by simp) (fun h => absurd (by simp) h) (fun _ => rfl)
  | discover sink alarm =>
    have hr : s.cfg.hasEnum = true := by simpa [refusalOf] using hn
    cases sink with
    | false =>
      exact ⟨_, rfl, .of_quiet s.result 0 s.unwrittenRead (by simp [hr, discoverDevices, accept, saturate]) id (by simp) (fun _ => rfl)
        (fun h => absurd rfl (h false alarm))⟩
    | true =>
      refine ⟨{ discoverPass { acceptBus s with enum := some (Enumeration.start alarm) } with
        enum := none
        count := saturate (enumOf (discoverPass { acceptBus s with enum := some (Enumeration.start alarm) })).count },
        by simp [exec, execDiscover, hr, discoverDevices], ?_⟩
      have hf := discoverPass_frame { acceptBus s with enum := some (Enumeration.start alarm) }
      have hi := discoverPass_idle { acceptBus s with enum := some (Enumeration.start alarm) }
      have hp := discoverPass_pinReads { acceptBus s with enum := some (Enumeration.start alarm) }
      have he : (discoverPass { acceptBus s with enum := some (Enumeration.start alarm) }).trace ≠ s.trace := by
        have h1 := reset_emits { acceptBus s with enum := some (Enumeration.start alarm) }
        have h2 := (reset_frame { acceptBus s with enum := some (Enumeration.start alarm) }).trace
        unfold discoverPass
        simp only
        split
        · exact ne_of_prefix h2 h1 ((writeByte_frame _ _).trace.trans (search_frame 64 _ le_rfl).trace)
        · exact h1
      exact {
        cfg := hf.cfg, cmd := hf.cmd, arg := hf.arg, ptr := hf.ptr, rom := hf.rom, romWritten := hf.romWritten,
        hostIn := hf.hostIn, hostOut := hf.hostOut, refused := hf.refused, rcode := hf.rcode, result := fun _ => hf.result,
        count := fun h => absurd rfl (h true alarm), enum := .inr ⟨rfl, true, alarm, rfl⟩, mem := fun _ => hf.mem,
        mem_wf := fun h => by simp only; rw [hf.mem]; exact h, trace := hf.trace, pinReads := hp,
        unwrittenRead := fun h => by simp only; rw [hf.unwrittenRead]; exact h, pu := hf.pu,
        quiet := fun h => absurd h he,
        busy := fun _ => ⟨by simp only; rw [hf.holdViolation]; simp,
          .inr (.inr ⟨by simp, by simp, hi.1, by
            by_cases hc : s.crit = true
            · simp only [hc]
              cases (discoverPass { acceptBus s with enum := some (Enumeration.start alarm) }).crit <;> simp
            · exact .inl (hi.2 (by simpa using hc))⟩)⟩ }

/-- A command that is refused does nothing else (R246). -/
theorem exec_refused (i : Instr) (s : State) (c : BitVec 3) (h : refusalOf i s = some c) : exec i s = .next (refuse c s) := by
  cases i <;> simp [refusalOf] at h
  case writeBytes => obtain ⟨h, rfl⟩ := h; simp [exec, execWriteBytes, h, codeBufferRange]
  case readBytes => obtain ⟨h, rfl⟩ := h; simp [exec, execReadBytes, h, codeBufferRange]
  case odMatch => subst h; rfl
  case odSkip => subst h; rfl
  case crc8Check => obtain ⟨h, rfl⟩ := h; simp [exec, execCrc8Check, h, codeBufferRange]
  case discover => obtain ⟨h, rfl⟩ := h; simp [exec, execDiscover, h, codeNoEnumerator]

/-- Everything a command can do: it is refused, precisely, or it ran. -/
theorem exec_cases {i : Instr} {s t : State} (h : exec i s = .next t) :
    (∃ c, refusalOf i s = some c ∧ t = refuse c s) ∨ (refusalOf i s = none ∧ Ran i s t) := by
  cases hr : refusalOf i s with
  | some c => rw [exec_refused i s c hr] at h; exact .inl ⟨c, rfl, by injection h with h; exact h.symm⟩
  | none =>
    obtain ⟨u, hu, hran⟩ := exec_ran i s hr
    rw [hu] at h
    injection h with h
    exact .inr ⟨rfl, h ▸ hran⟩

end Sys2Proof.Machine
end

