-- ==== Sys2Proof/Laws/Events.lean ====
section
/-! SUPPORT. What the events of a command are made of: write slots that hold nothing, read slots, bus resets, reports. -/

namespace Sys2Proof.Machine

/-- From `s` to `t` the trace grew by events that satisfy `P`. -/
def Emits (P : List PortEvent → Prop) (s t : State) : Prop := ∃ es, t.trace = s.trace ++ es ∧ P es

/-- A property of event sequences that empty ones, slots and bus resets have, and that survives appending. -/
structure SlotClosed (P : List PortEvent → Prop) : Prop where
  nil : P []
  append : ∀ {a b}, P a → P b → P (a ++ b)
  writeSlot : ∀ c v, P (writeSlot c v false)
  readSlot : ∀ c l, P (readSlot c l)
  reset : ∀ {c es ok}, isReset c es ok → P es

variable {P : List PortEvent → Prop}

theorem Emits.trans (hP : SlotClosed P) {s t u : State} (h : Emits P s t) (k : Emits P t u) : Emits P s u := by
  obtain ⟨es, h1, h2⟩ := h
  obtain ⟨fs, k1, k2⟩ := k
  exact ⟨es ++ fs, by rw [k1, h1, List.append_assoc], hP.append h2 k2⟩

theorem Emits.of_quiet (hP : SlotClosed P) {s t : State} (h : t.trace = s.trace) : Emits P s t := ⟨[], by simpa using h, hP.nil⟩

theorem SlotClosed.flatMap (hP : SlotClosed P) {α : Type} {f : α → List PortEvent} (h : ∀ a, P (f a)) (l : List α) :
    P (l.flatMap f) := by
  induction l with
  | nil => exact hP.nil
  | cons a l ih => rw [List.flatMap_cons]; exact hP.append (h a) ih

theorem SlotClosed.byte (hP : SlotClosed P) (c : Config) (x : Byte) : P (writeByteEvents c x) :=
  hP.flatMap (fun v => hP.writeSlot c v) _

theorem emits_reset (hP : SlotClosed P) (s : State) : Emits P s (resetAndPresenceDetect s).2 := by
  obtain ⟨es, h, ht⟩ := reset_isReset s
  exact ⟨es, ht, hP.reset h⟩

theorem emits_writeByte (hP : SlotClosed P) (x : Byte) (s : State) : Emits P s (writeByte x false s) :=
  ⟨_, by rw [writeByte_eq], hP.byte _ x⟩

theorem emits_sendRun (hP : SlotClosed P) (a n : Nat) (s : State) : Emits P s (sendRun a n s) := by
  rw [sendRun_eq]
  by_cases h : n = 0
  · rw [if_pos h]; exact .of_quiet hP rfl
  · rw [if_neg h]; exact ⟨_, rfl, hP.flatMap (fun x => hP.byte _ x) _⟩

theorem emits_search (hP : SlotClosed P) (hr : ∀ id, P [.report id]) (n : Nat) (s : State) (h : n ≤ 64) :
    Emits P s (search n s) :=
  search_rel (R := Emits P) 0 (fun _ => .of_quiet hP rfl) (fun h k => h.trans hP k)
    (fun s => ⟨_, by rw [readBit_eq], hP.readSlot _ _⟩) (fun v s => ⟨_, by rw [writeBit_eq], hP.writeSlot _ _⟩)
    (emits_writeByte hP) (emits_reset hP) (fun _ _ => .of_quiet hP rfl) (fun _ => .of_quiet hP rfl)
    (fun _ _ => .of_quiet hP rfl) (fun _ _ _ _ _ => .of_quiet hP rfl)
    (fun s => by
      unfold searchTerminal
      split
      · exact ⟨[.report (enumOf s).id], rfl, hr _⟩
      · exact .of_quiet hP rfl) n s (by omega)

theorem emits_discoverPass (hP : SlotClosed P) (hr : ∀ id, P [.report id]) (s : State) : Emits P s (discoverPass s) := by
  unfold discoverPass
  simp only
  split
  · exact ((emits_reset hP s).trans hP (emits_writeByte hP _ _)).trans hP (emits_search hP hr 64 _ le_rfl)
  · exact emits_reset hP s

/-- The events of a command that neither holds nor releases are slots and resets, and reports if it is a `DISCOVER SINK`. -/
theorem exec_emits (hP : SlotClosed P) {i : Instr} {s t : State} (h : exec i s = .next t)
    (hr : (∃ alarm, i = .discover true alarm) → ∀ id, P [.report id])
    (hb : ∀ v, i ≠ .writeBit true v) (hw : i ≠ .writeByte true) (hl : i ≠ .releasePullup) : Emits P s t := by
  have hacc : Emits P s (acceptBus s) := .of_quiet hP rfl
  rcases exec_cases h with ⟨c, -, rfl⟩ | ⟨hn, hran⟩
  · exact .of_quiet hP rfl
  by_cases ht : t.trace = s.trace
  · exact .of_quiet hP ht
  have e := h
  cases i with
  | writeBit hd v =>
    cases hd with
    | true => exact absurd rfl (hb v)
    | false =>
      injection e with e; subst e
      exact ⟨_, by rw [writeBit_eq]; rfl, hP.writeSlot _ _⟩
  | readBit =>
    injection e with e; subst e
    exact ⟨_, by rw [readBit_eq]; rfl, hP.readSlot _ _⟩
  | reset =>
    injection e with e; subst e
    exact hacc.trans hP (emits_reset hP _)
  | writeByte p =>
    cases p with
    | true => exact absurd rfl hw
    | false =>
      injection e with e; subst e
      exact hacc.trans hP (emits_writeByte hP _ _)
  | readByte =>
    injection e with e; subst e
    obtain ⟨ls, e, k, -, he⟩ := readByte_spec (acceptBus s)
    exact ⟨_, by rw [he]; rfl, hP.flatMap (fun l => hP.readSlot _ l) ls⟩
  | writeBytes =>
    have hf : outOfBuffer s = false := by simpa [refusalOf] using hn
    simp only [exec, execWriteBytes, hf, Bool.false_eq_true, if_false] at e
    injection e with e; subst e
    refine Emits.trans hP (t := acceptBuffer s) (.of_quiet hP ?_) (emits_sendRun hP _ _ _)
    unfold acceptBuffer; split <;> rfl
  | readBytes =>
    have hf : outOfBuffer s = false := by simpa [refusalOf] using hn
    simp only [exec, execReadBytes, hf, Bool.false_eq_true, if_false] at e
    injection e with e; subst e
    refine Emits.trans hP (t := acceptBuffer s) (.of_quiet hP ?_) ?_
    · unfold acceptBuffer; split <;> rfl
    · obtain ⟨lss, o, c, m, e, k, -, -, -, -, he⟩ := readBytes_spec (offsetOperand s) (lengthOperand s) (acceptBuffer s)
      exact ⟨_, by rw [he], hP.flatMap (fun l => hP.readSlot _ l) _⟩
  | releasePullup => exact absurd rfl hl
  | romSingle =>
    injection e with e; subst e
    exact (hacc.trans hP (emits_reset hP _)).trans hP (emits_writeByte hP _ _)
  | romMatch =>
    injection e with e; subst e
    exact ((hacc.trans hP (emits_reset hP _)).trans hP (emits_writeByte hP _ _)).trans hP (emits_sendRun hP _ _ _)
  | romSkip =>
    injection e with e; subst e
    exact (hacc.trans hP (emits_reset hP _)).trans hP (emits_writeByte hP _ _)
  | odMatch => simp [refusalOf] at hn
  | odSkip => simp [refusalOf] at hn
  | crc8Check =>
    have hf : outOfBufferCheck s = false := by simpa [refusalOf] using hn
    simp only [exec, execCrc8Check, hf, readRun_eq, Bool.false_eq_true, if_false] at e
    injection e with e; subst e
    exact .of_quiet hP rfl
  | crc8Rom =>
    simp only [exec, execCrc8Rom, readRun_eq] at e
    injection e with e; subst e
    exact .of_quiet hP rfl
  | discover sink alarm =>
    have hf : s.cfg.hasEnum = true := by simpa [refusalOf] using hn
    simp only [exec, execDiscover, hf, if_true] at e
    injection e with e; subst e
    cases sink with
    | false => exact .of_quiet hP rfl
    | true =>
      exact Emits.trans hP (t := { acceptBus s with enum := some (Enumeration.start alarm) }) (.of_quiet hP rfl)
        (emits_discoverPass hP (hr ⟨alarm, rfl⟩) _)

/-! ### Instances of `SlotClosed` -/

/-- Nothing but a report reports. -/
theorem closed_reports : SlotClosed (fun es => reports es = []) where
  nil := rfl
  append h k := by rw [reports_append, h, k]; rfl
  writeSlot c v := reports_writeSlot c v false
  readSlot := reports_readSlot
  reset h := reports_isReset h

/-- Slots and resets leave every critical section they enter (R286). -/
theorem closed_balance : SlotClosed (fun es => es.count .enterCritical = es.count .exitCritical) where
  nil := rfl
  append h k := by rw [List.count_append, List.count_append, h, k]
  writeSlot c v := by cases v <;> simp [Sys2Proof.Machine.writeSlot]
  readSlot c l := by simp [Sys2Proof.Machine.readSlot]
  reset h := by
    have hp : ∀ c j e, (e = .enterCritical ∨ e = .exitCritical) → (pollEvents c j).count e = 0 := by
      intro c j e he
      induction j with
      | zero => rfl
      | succ j ih => rw [pollEvents_succ]; rcases he with rfl | rfl <;> simp [ih]
    rcases h with ⟨j, p, -, rfl, -⟩ | ⟨rfl, -⟩ <;> simp [resetEvents, deadResetEvents, pulseEvents, hp]

end Sys2Proof.Machine
end

