-- ==== Sys2Proof/Laws/FlagBlind.lean ====
section
/-! SUPPORT. No operation of the block consults a flag (R37): states that differ in the flags and the mark only stay so. -/

namespace Sys2Proof.Machine

/-- `s` and `u` differ in the flags and the hold mark at most. -/
def Sim (s u : State) : Prop :=
  u = { s with mode := u.mode, out := u.out, crit := u.crit, pu := u.pu, holdViolation := u.holdViolation }

variable {s u : State}

theorem Sim.elim (h : Sim s u) :
    ∃ m o c p v, u = { s with mode := m, out := o, crit := c, pu := p, holdViolation := v } := ⟨_, _, _, _, _, h⟩

theorem sim_readPair (h : Sim s u) : (readPair u).1 = (readPair s).1 ∧ Sim (readPair s).2 (readPair u).2 := by
  obtain ⟨m, o, c, p, v, rfl⟩ := h.elim
  simp only [readPair_eq]; exact ⟨trivial, rfl⟩

theorem sim_readBit (h : Sim s u) : (readBit u).1 = (readBit s).1 ∧ Sim (readBit s).2 (readBit u).2 := by
  obtain ⟨m, o, c, p, v, rfl⟩ := h.elim
  simp only [readBit_eq]; exact ⟨rfl, rfl⟩

theorem sim_writeBit (x y : Bool) (h : Sim s u) : Sim (writeBit x y s) (writeBit x y u) := by
  obtain ⟨m, o, c, p, v, rfl⟩ := h.elim
  simp only [writeBit_eq]; exact rfl

theorem sim_writeByte (x : Byte) (y : Bool) (h : Sim s u) : Sim (writeByte x y s) (writeByte x y u) := by
  obtain ⟨m, o, c, p, v, rfl⟩ := h.elim
  cases y
  · simp only [writeByte_eq]; exact rfl
  · simp only [writeByte_hold_eq]; exact rfl

theorem sim_poll (n : Nat) (h : Sim s u) : (pollIdle n u).1 = (pollIdle n s).1 ∧ Sim (pollIdle n s).2 (pollIdle n u).2 := by
  induction n generalizing s u with
  | zero => exact ⟨rfl, h⟩
  | succ n ih =>
    have hl : pinLevel .poll u = pinLevel .poll s := by obtain ⟨m, o, c, p, v, rfl⟩ := h.elim; rfl
    have hr : Sim (readPin .poll s) (readPin .poll u) := by obtain ⟨m, o, c, p, v, rfl⟩ := h.elim; rfl
    have hd : Sim (delay s.cfg.tPoll (readPin .poll s)) (delay u.cfg.tPoll (readPin .poll u)) := by
      obtain ⟨m, o, c, p, v, rfl⟩ := h.elim; rfl
    simp only [pollIdle, hl]
    split
    · exact ⟨rfl, hr⟩
    · exact ih hd

theorem sim_reset (h : Sim s u) :
    (resetAndPresenceDetect u).1 = (resetAndPresenceDetect s).1 ∧
      Sim (resetAndPresenceDetect s).2 (resetAndPresenceDetect u).2 := by
  have hf : Sim (setFloating s) (setFloating u) := by obtain ⟨m, o, c, p, v, rfl⟩ := h.elim; rfl
  have hc : (setFloating u).cfg = (setFloating s).cfg := by obtain ⟨m, o, c, p, v, rfl⟩ := h.elim; rfl
  have := sim_poll (setFloating s).cfg.retry.toNat hf
  simp only [resetAndPresenceDetect, hc, this.1]
  generalize pollIdle (setFloating s).cfg.retry.toNat (setFloating s) = r at this ⊢
  generalize pollIdle (setFloating s).cfg.retry.toNat (setFloating u) = q at this ⊢
  obtain ⟨-, h2⟩ := this
  split
  · obtain ⟨m, o, c, p, v, h2⟩ := h2.elim
    rw [resetPulse_eq, resetPulse_eq, h2]; exact ⟨rfl, rfl⟩
  · exact ⟨rfl, h2⟩

theorem sim_mod (f : Enumeration → Enumeration) (h : Sim s u) : Sim (modEnum f s) (modEnum f u) := by
  obtain ⟨m, o, c, p, v, rfl⟩ := h.elim; rfl

theorem sim_enumOf (h : Sim s u) : enumOf u = enumOf s := by
  obtain ⟨m, o, c, p, v, rfl⟩ := h.elim; rfl

theorem sim_searchTerminal (h : Sim s u) : Sim (searchTerminal s) (searchTerminal u) := by
  simp only [searchTerminal, sim_enumOf h]; split
  · refine sim_mod _ ?_
    obtain ⟨m, o, c, p, v, rfl⟩ := h.elim; rfl
  · exact h

theorem sim_replay (i n : Nat) (h : Sim s u) : Sim (replay i n s) (replay i n u) := by
  induction n generalizing i s u with
  | zero => exact h
  | succ n ih =>
    simp only [replay]
    have h1 := (sim_readPair h).2
    have hg : getbit i (readPair u).2 = getbit i (readPair s).2 := by simp only [getbit, sim_enumOf h1]
    rw [hg]; exact ih _ (sim_writeBit _ _ h1)

theorem sim_take (d : Nat) (v : Level) (h : Sim s u) : Sim (takeBranch d v s) (takeBranch d v u) := sim_writeBit _ _ (sim_mod _ h)

theorem sim_reenter (d : Nat) (h : Sim s u) : Sim (reenter d s) (reenter d u) := by
  simp only [reenter, sim_enumOf h]
  exact sim_take _ _ (sim_readPair (sim_replay _ _ (sim_writeByte _ _ h))).2

theorem sim_search (n : Nat) (h : Sim s u) : Sim (search n s) (search n u) := by
  induction n generalizing s u with
  | zero => exact sim_mod _ (sim_searchTerminal (sim_mod _ h))
  | succ n ih =>
    simp only [search]
    obtain ⟨h1, h2⟩ := sim_readPair (sim_mod (fun e => { e with depth := 63 - n, frames := ⟨63 - n, false⟩ :: e.frames }) h)
    have h1 : (readPair (enterSearch (63 - n) u)).1 = (readPair (enterSearch (63 - n) s)).1 := h1
    have h2 : Sim (readPair (enterSearch (63 - n) s)).2 (readPair (enterSearch (63 - n) u)).2 := h2
    rw [h1]
    generalize readPair (enterSearch (63 - n) s) = p at h2 ⊢
    generalize (readPair (enterSearch (63 - n) u)).2 = q at h2 ⊢
    obtain ⟨⟨a, b⟩, p⟩ := p
    cases a <;> cases b <;> simp only
    · have k : Sim (setWaiting false (search n (takeBranch (63 - n) false (setWaiting true p))))
          (setWaiting false (search n (takeBranch (63 - n) false (setWaiting true q)))) := sim_mod _ (ih (sim_take _ _ (sim_mod _ h2)))
      generalize setWaiting false (search n (takeBranch (63 - n) false (setWaiting true p))) = S at k ⊢
      generalize setWaiting false (search n (takeBranch (63 - n) false (setWaiting true q))) = U at k ⊢
      obtain ⟨k1, k2⟩ := sim_reset k
      by_cases hq : (resetAndPresenceDetect S).1 = true
      · rw [if_pos hq, if_pos (k1.trans hq)]; exact sim_mod _ (ih (sim_reenter _ k2))
      · rw [if_neg hq, if_neg (by rw [k1]; exact hq)]; exact sim_mod _ k2
    · exact sim_mod _ (ih (sim_take _ _ h2))
    · exact sim_mod _ (ih (sim_take _ _ h2))
    · exact sim_mod _ h2

theorem sim_pass (h : Sim s u) : Sim (discoverPass s) (discoverPass u) := by
  obtain ⟨h1, h2⟩ := sim_reset h
  simp only [discoverPass, h1, sim_enumOf h2]
  split
  · exact sim_search _ (sim_writeByte _ _ h2)
  · exact h2

theorem sim_readBitsInto (is : List Nat) (x : Byte) (h : Sim s u) :
    (readBitsInto is x u).1 = (readBitsInto is x s).1 ∧ Sim (readBitsInto is x s).2 (readBitsInto is x u).2 := by
  induction is generalizing x s u with
  | nil => exact ⟨rfl, h⟩
  | cons i is ih =>
    simp only [readBitsInto, (sim_readBit h).1]
    exact ih _ (sim_readBit h).2

theorem sim_readByte (h : Sim s u) : (readByte u).1 = (readByte s).1 ∧ Sim (readByte s).2 (readByte u).2 := sim_readBitsInto _ _ h

theorem sim_touch (a : Nat) (h : Sim s u) : Sim (touch a s) (touch a u) := by
  obtain ⟨m, o, c, p, v, rfl⟩ := h.elim; rfl

theorem sim_peek (a : Nat) (h : Sim s u) : peek a u = peek a s := by
  obtain ⟨m, o, c, p, v, rfl⟩ := h.elim; rfl

theorem sim_poke (a : Nat) (x : Byte) (h : Sim s u) : Sim (pokeBuf a x s) (pokeBuf a x u) := by
  obtain ⟨m, o, c, p, v, rfl⟩ := h.elim; rfl

theorem sim_send (a n : Nat) (h : Sim s u) : Sim (sendRun a n s) (sendRun a n u) := by
  induction n generalizing a s u with
  | zero => exact h
  | succ n ih => simp only [sendRun, sim_peek a h]; exact ih _ (sim_writeByte _ _ (sim_touch _ h))

theorem sim_readBytes (a n : Nat) (h : Sim s u) : Sim (readBytes a n s) (readBytes a n u) := by
  induction n generalizing a s u with
  | zero => exact h
  | succ n ih =>
    obtain ⟨h1, h2⟩ := sim_readBitsInto [0,1,2,3,4,5,6,7] 0 h
    have h1 : (readByte u).1 = (readByte s).1 := h1
    simp only [readBytes, h1]; exact ih _ (sim_poke _ _ h2)

theorem sim_result (x : Byte) (h : Sim s u) : Sim { s with result := x } { u with result := x } := by
  obtain ⟨m, o, c, p, v, rfl⟩ := h.elim; rfl

theorem sim_readByte_result (h : Sim s u) :
    Sim { (readByte s).2 with result := (readByte s).1 } { (readByte u).2 with result := (readByte u).1 } := by
  rw [(sim_readByte h).1]; exact sim_result _ (sim_readByte h).2

end Sys2Proof.Machine
end

