-- ==== Sys2Proof/Laws/FreeLine.lean ====
section
/-! SUPPORT. Once the answers are free they stay free: no operation of the block brings a known environment back (R285, Log 8). -/

namespace Sys2Proof.Machine

/-- If the answers were free before, they are free after. -/
def StaysFree (s t : State) : Prop := s.env = .free → t.env = .free

theorem StaysFree.trans {s t u : State} (h : StaysFree s t) (k : StaysFree t u) : StaysFree s u := fun e => k (h e)

theorem StaysFree.of_eq {s t : State} (h : t.env = s.env) : StaysFree s t := fun e => h.trans e

theorem afterWrites_free (vs : List Level) : Env.free.afterWrites vs = .free := by
  induction vs with
  | nil => rfl
  | cons v vs ih => exact ih

theorem readBit_staysFree (s : State) : StaysFree s (readBit s).2 := fun e => by rw [readBit_eq]; simp [e, Env.afterRead]

theorem writeBit_staysFree (v h : Bool) (s : State) : StaysFree s (writeBit v h s) := fun e => by
  rw [writeBit_eq]; simp [e, Env.afterWrite]

theorem writeByte_staysFree (x : Byte) (p : Bool) (s : State) : StaysFree s (writeByte x p s) := fun e => by
  cases p
  · rw [writeByte_eq]; simp only [e, afterWrites_free]
  · rw [writeByte_hold_eq]; simp only [e, afterWrites_free]

theorem pollIdle_staysFree (n : Nat) (s : State) : StaysFree s (pollIdle n s).2 := by
  induction n generalizing s with
  | zero => exact id
  | succ n ih =>
    have h : StaysFree s (readPin .poll s) := fun e => by simp [readPin, e, Env.afterRead]
    rw [pollIdle]
    split
    · exact h
    · exact h.trans (ih (delay s.cfg.tPoll (readPin .poll s)))

theorem reset_staysFree (s : State) : StaysFree s (resetAndPresenceDetect s).2 := by
  have h : StaysFree s (pollIdle (setFloating s).cfg.retry.toNat (setFloating s)).2 :=
    fun e => pollIdle_staysFree _ (setFloating s) e
  unfold resetAndPresenceDetect
  simp only
  generalize pollIdle (setFloating s).cfg.retry.toNat (setFloating s) = r at h ⊢
  split
  · exact fun e => by rw [resetPulse_eq]; simp [h e, Env.afterRead]
  · exact h

theorem readByte_staysFree (s : State) : StaysFree s (readByte s).2 := by
  have : ∀ is x s, StaysFree s (readBitsInto is x s).2 := by
    intro is
    induction is with
    | nil => exact fun _ _ => id
    | cons i is ih => exact fun x s => (readBit_staysFree s).trans (ih _ _)
  exact this _ _ s

theorem sendRun_staysFree (a n : Nat) (s : State) : StaysFree s (sendRun a n s) := by
  induction n generalizing a s with
  | zero => exact id
  | succ n ih => exact fun e => ih _ _ (writeByte_staysFree _ _ _ (by simpa using e))

theorem readBytes_staysFree (p n : Nat) (s : State) : StaysFree s (readBytes p n s) := by
  induction n generalizing p s with
  | zero => exact id
  | succ n ih => exact fun e => ih _ _ (by simpa using readByte_staysFree s e)

theorem searchTerminal_staysFree (s : State) : StaysFree s (searchTerminal s) := by
  unfold searchTerminal
  split
  · exact .of_eq rfl
  · exact id

theorem search_staysFree (n : Nat) (s : State) (h : n ≤ 64) : StaysFree s (search n s) :=
  search_rel (R := StaysFree) 0 (fun _ => id) StaysFree.trans readBit_staysFree (fun v s => writeBit_staysFree v false s)
    (fun x s => writeByte_staysFree x false s) reset_staysFree (fun _ _ => .of_eq rfl) (fun _ => .of_eq rfl)
    (fun _ _ => .of_eq rfl) (fun _ _ _ _ _ => .of_eq rfl) searchTerminal_staysFree n s (by omega)

theorem discoverPass_staysFree (s : State) : StaysFree s (discoverPass s) := by
  unfold discoverPass
  simp only
  split
  · exact (reset_staysFree s).trans ((writeByte_staysFree _ _ _).trans (search_staysFree 64 _ le_rfl))
  · exact reset_staysFree s

end Sys2Proof.Machine
end

