-- ==== Sys2Proof/Laws/HostPort.lean ====
section
/-! SUPPORT. The host port address by address, and the decoder's refusals. -/

namespace Sys2Proof.Machine

theorem decode_of_no_row {v : Byte} (h : ∀ r ∈ opcodeRows, r.holds v = false) : decode v = .error (.noSuchCommand v) := by
  have : opcodeRows.find? (·.holds v) = none := List.find?_eq_none.2 fun r hr => by simp [h r hr]
  simp [decode, this]

theorem decode_error {v : Byte} {r : DecodeReject} (h : decode v = .error r) : r = .noSuchCommand v := by
  unfold decode at h
  split at h <;> simp_all

theorem ne_of_toNat_lt {a : Byte} {m n : Nat} (h : m ≤ a.toNat) (hn : n < m) : a ≠ BitVec.ofNat 8 n := by
  rintro rfl
  have : n % 256 ≤ n := Nat.mod_le _ _
  simp only [BitVec.toNat_ofNat] at h
  omega

/-- Reserved addresses read 0x00 (R64). -/
theorem hostByte_reserved {a : Byte} (s : State) (h : 0x12 ≤ a.toNat) (h' : a.toNat ≤ 0x7F) : hostByte a s = 0x00 := by
  have hn : ∀ n, n < 0x12 → a ≠ BitVec.ofNat 8 n := fun n hn => ne_of_toNat_lt h hn
  have hr : isRom a.toNat = false := by simp [isRom]; omega
  have hb : isBuf a.toNat = false := by simp [isBuf]; omega
  simp [hostByte, hn 0, hn 1, hn 2, hn 3, hn 4, hn 5, hn 6, hn 7, hn 16, hn 17, hr, hb]

/-- The addresses of `BUF` read what memory holds (R61). -/
theorem hostByte_buf {a : Byte} (s : State) (h : 0x80 ≤ a.toNat) : hostByte a s = peek a.toNat s := by
  have hn : ∀ n, n < 0x80 → a ≠ BitVec.ofNat 8 n := fun n hn => ne_of_toNat_lt h hn
  have hb : isBuf a.toNat = true := by simp [isBuf]; omega
  simp [hostByte, hn 0, hn 1, hn 2, hn 3, hn 4, hn 5, hn 6, hn 7, hn 16, hn 17, hb]

/-- What a host read returns does not depend on the interface's own lists or on the marks. -/
theorem hostByte_congr {s t : State} (a : Byte) (h : t = { s with
    hostIn := t.hostIn, hostOut := t.hostOut, unwrittenRead := t.unwrittenRead }) : hostByte a t = hostByte a s := by
  rw [h]; rfl

theorem peek_rom (s : State) (i : Fin 8) : peek (0x08 + i.val) s = s.rom[i] := by
  have h1 : i.val + 8 ≤ 15 := by omega
  simp [peek, isRom, Vector.getD, Nat.add_comm 8, h1]

theorem peek_buf (s : State) {a : Nat} (h : 0x80 ≤ a) : peek a s = (s.mem.lookup a).getD (Config.unwrittenByte a) := by
  have : isRom a = false := by simp [isRom]; omega
  simp [peek, this]

end Sys2Proof.Machine
end

