-- ==== Sys2Proof/Laws/PerInstr.lean ====
section
/-! SUPPORT. Statements about every command, one lemma for each. -/

namespace Sys2Proof.Laws.EncodeFits

/-- The byte the encoder writes for a command matches the row of R96 that builds that command. -/
def Statement (i : Instr) : Prop := ∃ r ∈ opcodeRows, r.holds (encode i) = true ∧ r.build (encode i) = i

/-- Row `k` of R96 is the one. -/
theorem of_row (i : Instr) (k : Fin 16) (h : (opcodeRows[k.val]'(by simp [opcodeRows])).holds (encode i) = true)
    (hb : (opcodeRows[k.val]'(by simp [opcodeRows])).build (encode i) = i) : Statement i :=
  ⟨_, List.getElem_mem _, h, hb⟩

theorem writeBit (h v : Bool) : Statement (.writeBit h v) := by
  cases h <;> cases v <;> exact of_row _ 0 (by decide) (by decide)

theorem readBit : Statement .readBit := of_row _ 1 (by decide) (by decide)

theorem reset : Statement .reset := of_row _ 2 (by decide) (by decide)

theorem writeByte (p : Bool) : Statement (.writeByte p) := by
  cases p <;> exact of_row _ 3 (by decide) (by decide)

theorem readByte : Statement .readByte := of_row _ 4 (by decide) (by decide)

theorem writeBytes : Statement .writeBytes := of_row _ 5 (by decide) (by decide)

theorem readBytes : Statement .readBytes := of_row _ 6 (by decide) (by decide)

theorem releasePullup : Statement .releasePullup := of_row _ 7 (by decide) (by decide)

theorem romSingle : Statement .romSingle := of_row _ 8 (by decide) (by decide)

theorem romMatch : Statement .romMatch := of_row _ 9 (by decide) (by decide)

theorem romSkip : Statement .romSkip := of_row _ 10 (by decide) (by decide)

theorem odMatch : Statement .odMatch := of_row _ 11 (by decide) (by decide)

theorem odSkip : Statement .odSkip := of_row _ 12 (by decide) (by decide)

theorem crc8Check : Statement .crc8Check := of_row _ 13 (by decide) (by decide)

theorem crc8Rom : Statement .crc8Rom := of_row _ 14 (by decide) (by decide)

theorem discover (s a : Bool) : Statement (.discover s a) := by
  cases s <;> cases a <;> exact of_row _ 15 (by decide) (by decide)

end Sys2Proof.Laws.EncodeFits
end

