-- ==== Sys2Proof/Laws/Reference.lean ====
section
/-! SUPPORT. The block on the scripted and the loopback environment (95_test_vectors section 2), and the identifier registers as a
list of bytes. -/

namespace Sys2Proof.Machine

theorem zextBit_eq (l : Level) : zextBit l = if l then 0x01 else 0x00 := by revert l; decide

/-- The idle wait on a script that goes high at sample `j + 1`. -/
theorem pollIdle_script (n j : Nat) (ls : List Level) (d : Level) (s : State)
    (h : s.env = .script (List.replicate j false ++ true :: ls) d) (hj : j < n) :
    pollIdle n s = (true, { s with
      env := .script ls d, pinReads := s.pinReads + j + 1, trace := s.trace ++ (pollEvents s.cfg j ++ [.readPin true]) }) := by
  induction n generalizing j s with
  | zero => omega
  | succ n ih =>
    cases j with
    | zero =>
      have : pinLevel .poll s = true := by simp [pinLevel, h, Env.answer]
      rw [pollIdle, if_pos this]
      simp [readPin, emit, this, h, Env.afterRead, pollEvents]
    | succ j =>
      have : pinLevel .poll s = false := by simp [pinLevel, h, Env.answer, List.replicate_succ]
      rw [pollIdle, if_neg (by simp [this]), ih j _ (by simp [h, Env.afterRead, List.replicate_succ]) (by omega)]
      simp [this, pollEvents_succ]; omega

/-- The idle wait on a script that stays low for all its samples. -/
theorem pollIdle_script_low (n : Nat) (ls : List Level) (d : Level) (s : State)
    (h : s.env = .script (List.replicate n false ++ ls) d) :
    pollIdle n s = (false, { s with
      env := .script ls d, pinReads := s.pinReads + n, trace := s.trace ++ pollEvents s.cfg n }) := by
  induction n generalizing s with
  | zero => simp at h; simp [pollIdle, pollEvents, ← h]
  | succ j ih =>
    have : pinLevel .poll s = false := by simp [pinLevel, h, Env.answer, List.replicate_succ]
    rw [pollIdle, if_neg (by simp [this]), ih _ (by simp [h, Env.afterRead, List.replicate_succ])]
    simp [this, pollEvents_succ]; omega

theorem readBitsInto_pinReads (is : List Nat) (x : Byte) (s : State) :
    (readBitsInto is x s).2.pinReads = s.pinReads + is.length := by
  induction is generalizing x s with
  | nil => rfl
  | cons i is ih => rw [readBitsInto, ih, readBit_eq]; simp; omega

/-- Reading bits takes the answers of a script in order. -/
theorem readBitsInto_script (is : List Nat) (x : Byte) (bs ls : List Level) (d : Level) (s : State)
    (h : s.env = .script (bs ++ ls) d) (hl : bs.length = is.length) :
    (readBitsInto is x s).1 = (is.zip bs).foldl (fun x p => setBitOf x p.1 p.2) x ∧
      (readBitsInto is x s).2.env = .script ls d := by
  induction is generalizing x s bs with
  | nil =>
    obtain rfl : bs = [] := by simpa using hl
    simpa [readBitsInto] using h
  | cons i is ih =>
    cases bs with
    | nil => simp at hl
    | cons b bs =>
      have := ih (setBitOf x i b) bs (readBit s).2 (by rw [readBit_eq]; simp [h, Env.afterRead]) (by simpa using hl)
      have h1 : (readBit s).1 = b := by rw [readBit_eq]; simp [pinLevel, h, Env.answer]
      simpa [readBitsInto, h1] using this

/-- Reading bits empties the loopback queue in order. -/
theorem readBitsInto_loopback (is : List Nat) (x : Byte) (bs : List Level) (s : State) (h : s.env = .loopback bs)
    (hl : bs.length = is.length) :
    (readBitsInto is x s).1 = (is.zip bs).foldl (fun x p => setBitOf x p.1 p.2) x ∧
      (readBitsInto is x s).2.env = .loopback [] := by
  induction is generalizing x s bs with
  | nil =>
    obtain rfl : bs = [] := by simpa using hl
    simpa [readBitsInto] using h
  | cons i is ih =>
    cases bs with
    | nil => simp at hl
    | cons b bs =>
      have := ih (setBitOf x i b) bs (readBit s).2 (by rw [readBit_eq]; simp [h, Env.afterRead]) (by simpa using hl)
      have h1 : (readBit s).1 = b := by rw [readBit_eq]; simp [pinLevel, h, Env.answer]
      simpa [readBitsInto, h1] using this

/-- `ROM[0..7]` read as a run of bytes. -/
theorem peeks_romBytes (s : State) : peeks 8 8 s = s.rom.toList := by
  have : ∀ i : Fin 8, peek (8 + i.val) s = s.rom[i] := peek_rom s
  apply List.ext_getElem (by simp [peeks])
  intro i h1 h2
  simp [peeks] at h1
  simpa [peeks] using this ⟨i, h1⟩

theorem anyUnwritten_romBytes (s : State) : anyUnwritten 8 8 s = s.romWritten.toList.any (!·) := by
  have : ∀ i : Fin 8, unwritten (8 + i.val) s = !s.romWritten[i] := by
    intro i
    fin_cases i <;> simp [unwritten, isRom, isBuf, Vector.getD]
  have h : (List.range 8).map (fun j => unwritten (8 + j) s) = s.romWritten.toList.map (!·) := by
    apply List.ext_getElem (by simp)
    intro i h1 h2
    simp at h1
    simpa using this ⟨i, h1⟩
  have := congrArg (·.any id) h
  simpa [anyUnwritten, List.any_map, Function.comp_def] using this

theorem anyUnwritten_last (a n : Nat) (s : State) :
    anyUnwritten a (n + 1) s = (anyUnwritten a n s || unwritten (a + n) s) := by
  simp [anyUnwritten, List.range_succ]

/-- An identifier is valid when all its eight bytes fold to zero (R187, R190). -/
theorem idValid_iff (id : Identifier) : idValid id = true ↔ crc8 id.toList = 0 := by
  have : id.toList = id.toList.take 7 ++ [id.getD 7 0] := by
    apply List.ext_getElem (by simp)
    intro i h1 h2
    simp at h1
    by_cases h : i < 7
    · rw [List.getElem_append_left (by simp; omega)]; simp
    · have : i = 7 := by omega
      subst this; simp [Vector.getD]
  have fold : crc8 id.toList = crcStep (crc8 (id.toList.take 7)) (id.getD 7 0) := by
    conv => lhs; rw [this]
    rw [crc8_append]; rfl
  rw [fold]; simp [idValid, crc8Valid]

end Sys2Proof.Machine
end

