-- ==== Sys2Proof/Laws/SearchForm.lean ====
section
/-! SUPPORT. The recursion frames of the Enumeration State (R32) are a record: nothing that goes out on the bus, into the identifier or
into the count looks at
them. -/

namespace Sys2Proof.Machine

/-- Rewrite the recursion frames and nothing else. -/
def mapFrames (g : List Frame → List Frame) (s : State) : State := modEnum (fun e => { e with frames := g e.frames }) s

theorem mapFrames_comp (f g : List Frame → List Frame) (s : State) : mapFrames f (mapFrames g s) = mapFrames (f ∘ g) s := by
  cases h : s.enum <;> simp [mapFrames, modEnum, h]

theorem mapFrames_id (s : State) : mapFrames id s = s := by
  cases s; simp [mapFrames, modEnum]

theorem readPair_mapFrames (g : List Frame → List Frame) (s : State) : readPair (mapFrames g s) = ((readPair s).1, mapFrames g (readPair s).2) := by
  simp only [readPair_eq]; rfl

theorem writeBit_mapFrames (v h : Bool) (g : List Frame → List Frame) (s : State) :
    writeBit v h (mapFrames g s) = mapFrames g (writeBit v h s) := by
  simp only [writeBit_eq]; rfl

theorem writeByte_mapFrames (x : Byte) (g : List Frame → List Frame) (s : State) :
    writeByte x false (mapFrames g s) = mapFrames g (writeByte x false s) := by
  simp only [writeByte_eq]; rfl

theorem pollIdle_mapFrames (n : Nat) (g : List Frame → List Frame) (s : State) :
    pollIdle n (mapFrames g s) = ((pollIdle n s).1, mapFrames g (pollIdle n s).2) := by
  induction n generalizing s with
  | zero => rfl
  | succ n ih =>
    have h : pinLevel .poll (mapFrames g s) = pinLevel .poll s := rfl
    by_cases hp : pinLevel .poll s = true
    · rw [pollIdle, pollIdle, h, if_pos hp, if_pos hp]; rfl
    · rw [pollIdle, pollIdle, h, if_neg hp, if_neg hp]; exact ih (delay s.cfg.tPoll (readPin .poll s))

theorem reset_mapFrames (g : List Frame → List Frame) (s : State) :
    resetAndPresenceDetect (mapFrames g s) = ((resetAndPresenceDetect s).1, mapFrames g (resetAndPresenceDetect s).2) := by
  have h : setFloating (mapFrames g s) = mapFrames g (setFloating s) := rfl
  have h2 : (mapFrames g (setFloating s)).cfg.retry = (setFloating s).cfg.retry := rfl
  simp only [resetAndPresenceDetect, h, h2, pollIdle_mapFrames]
  by_cases hb : (pollIdle (setFloating s).cfg.retry.toNat (setFloating s)).1 = true
  · simp only [hb, if_true, resetPulse_eq]; rfl
  · simp only [hb]; rfl

theorem enumOf_mapFrames (g : List Frame → List Frame) (s : State) :
    (enumOf (mapFrames g s)).id = (enumOf s).id ∧ (enumOf (mapFrames g s)).scmd = (enumOf s).scmd := by
  simp only [enumOf, mapFrames, modEnum_enum]; cases s.enum <;> simp

theorem modEnum_mapFrames (g : List Frame → List Frame) (f : Enumeration → Enumeration)
    (h : ∀ e g, f { e with frames := g } = { f e with frames := g }) (h2 : ∀ e, (f e).frames = e.frames) (s : State) :
    modEnum f (mapFrames g s) = mapFrames g (modEnum f s) := by
  cases he : s.enum
  · simp [mapFrames, modEnum, he]
  · simp only [mapFrames, modEnum, he, Option.map_some]; rw [h, h2]

theorem setDepth_mapFrames (d : Nat) (g : List Frame → List Frame) (s : State) :
    setDepth d (mapFrames g s) = mapFrames g (setDepth d s) := by
  unfold setDepth; exact modEnum_mapFrames g (fun e => { e with depth := d }) (fun _ _ => rfl) (fun _ => rfl) _

theorem takeBranch_mapFrames (d : Nat) (v : Level) (g : List Frame → List Frame) (s : State) :
    takeBranch d v (mapFrames g s) = mapFrames g (takeBranch d v s) := by
  have : setbit d v (mapFrames g s) = mapFrames g (setbit d v s) := by
    unfold setbit
    exact modEnum_mapFrames g (fun e => { e with id := setIdBit e.id d v }) (fun _ _ => rfl) (fun _ => rfl) _
  rw [takeBranch, this, writeBit_mapFrames]; rfl

theorem searchTerminal_mapFrames (g : List Frame → List Frame) (s : State) :
    searchTerminal (mapFrames g s) = mapFrames g (searchTerminal s) := by
  unfold searchTerminal
  rw [(enumOf_mapFrames g s).1]
  split
  · exact modEnum_mapFrames g (fun e => { e with count := e.count + 1 }) (fun _ _ => rfl) (fun _ => rfl) (report (enumOf s).id s)
  · rfl

theorem getbit_mapFrames (k : Nat) (g : List Frame → List Frame) (s : State) : getbit k (mapFrames g s) = getbit k s := by
  rw [getbit, (enumOf_mapFrames g s).1]; rfl

theorem replay_mapFrames (i n : Nat) (g : List Frame → List Frame) (s : State) :
    replay i n (mapFrames g s) = mapFrames g (replay i n s) := by
  induction n generalizing i s with
  | zero => rfl
  | succ n ih =>
    simp only [replay, readPair_mapFrames, getbit_mapFrames, writeBit_mapFrames, ih]

theorem reenter_mapFrames (d : Nat) (g : List Frame → List Frame) (s : State) :
    reenter d (mapFrames g s) = mapFrames g (reenter d s) := by
  simp only [reenter, (enumOf_mapFrames g s).2, writeByte_mapFrames, replay_mapFrames, readPair_mapFrames, takeBranch_mapFrames]

/-- `search` (R203) without the frames it keeps for R32. -/
def searchPlain : Nat → State → State
  | 0, s => searchTerminal (setDepth 64 s)
  | n + 1, s =>
    let d := 63 - n
    let r := readPair (setDepth d s)
    match r.1 with
    | (true, true) => r.2
    | (false, true) => searchPlain n (takeBranch d false r.2)
    | (true, false) => searchPlain n (takeBranch d true r.2)
    | (false, false) =>
      let s := searchPlain n (takeBranch d false r.2)
      let q := resetAndPresenceDetect s
      if q.1 then searchPlain n (reenter d q.2) else q.2

theorem searchPlain_mapFrames (n : Nat) (g : List Frame → List Frame) (s : State) :
    searchPlain n (mapFrames g s) = mapFrames g (searchPlain n s) := by
  induction n generalizing s with
  | zero => simp only [searchPlain, setDepth_mapFrames, searchTerminal_mapFrames]
  | succ n ih =>
    simp only [searchPlain, setDepth_mapFrames, readPair_mapFrames]
    rcases (readPair (setDepth (63 - n) s)).1 with ⟨a, b⟩
    cases a <;> cases b
    · simp only [takeBranch_mapFrames, ih, reset_mapFrames, reenter_mapFrames]; split <;> rfl
    · simp only [takeBranch_mapFrames, ih]
    · simp only [takeBranch_mapFrames, ih]
    · rfl

theorem enterSearch_eq (d : Nat) (s : State) : enterSearch d s = mapFrames (⟨d, false⟩ :: ·) (setDepth d s) := by
  cases h : s.enum <;> simp [enterSearch, mapFrames, setDepth, modEnum, h]

/-- The frames are a record only: `search` is the search without them. -/
theorem search_eq_plain (n : Nat) (s : State) : search n s = searchPlain n s := by
  have hl : ∀ s, leaveSearch s = mapFrames List.tail s := fun _ => rfl
  have hs : ∀ w s, setWaiting w s = mapFrames (List.modifyHead fun f => { f with waiting := w }) s := fun _ _ => rfl
  induction n generalizing s with
  | zero =>
    simp only [search, searchPlain, enterSearch_eq, searchTerminal_mapFrames, hl, mapFrames_comp]
    exact mapFrames_id _
  | succ n ih =>
    simp only [search, searchPlain, enterSearch_eq, readPair_mapFrames]
    rcases (readPair (setDepth (63 - n) s)).1 with ⟨a, b⟩
    cases a <;> cases b
    · simp only [hs, takeBranch_mapFrames, ih, mapFrames_comp, searchPlain_mapFrames, reset_mapFrames, reenter_mapFrames, hl]
      split <;> exact mapFrames_id _
    · simp only [takeBranch_mapFrames, ih, searchPlain_mapFrames, hl, mapFrames_comp]; exact mapFrames_id _
    · simp only [takeBranch_mapFrames, ih, searchPlain_mapFrames, hl, mapFrames_comp]; exact mapFrames_id _
    · simp only [hl, mapFrames_comp]; exact mapFrames_id _

end Sys2Proof.Machine
end

