-- ==== Sys2Proof/Machine/HostScript.lean ====
section
/-! DEFINITION. What a line of a host script stands for: its accesses (R101 to R103). -/

namespace Sys2Proof.Machine

/-- The address of a register name (R61). -/
def placeAddr (p : Place) : Nat :=
  match p with
  | .cmd => 0x00
  | .arg => 0x01
  | .ptr => 0x02
  | .status => 0x03
  | .result => 0x04
  | .countLo => 0x05
  | .countHi => 0x06
  | .features => 0x07
  | .retryLo => 0x10
  | .retryHi => 0x11
  | .rom i => romAddr i
  | .buf i => bufAddr i
  | .num a => a

/-- `WR <addr>, <value>`. -/
def wrAccess (p : Place) (v : Nat) : HostAccess := .write (BitVec.ofNat 8 (placeAddr p)) (BitVec.ofNat 8 v)

/-- A mnemonic line is `HostWrite(0x00, code)`. -/
def commandAccess (i : Instr) : HostAccess := .write 0x00 (encode i)

/-- The accesses of a line, pseudo-instructions expanded as R102 says. -/
def expandLine (l : HostLine) : List HostAccess :=
  match l with
  | .wr p v => [wrAccess p v]
  | .rd p => [.read (BitVec.ofNat 8 (placeAddr p))]
  | .command i => [commandAccess i]
  | .send x => [wrAccess .arg x, commandAccess (.writeByte false)]
  | .sendPu x => [wrAccess .arg x, commandAccess (.writeByte true)]
  | .sendn p n => [wrAccess .ptr p, wrAccess .arg n, commandAccess .writeBytes]
  | .recvn p n => [wrAccess .ptr p, wrAccess .arg n, commandAccess .readBytes]
  | .check p n => [wrAccess .ptr p, wrAccess .arg n, commandAccess .crc8Check]
  | .loadRom bs => (bs.zipIdx).map (fun b => wrAccess (.rom b.2) b.1)
  | .selectNone => [commandAccess .reset]
  | .search => [commandAccess (.discover true false)]
  | .alarmSearch => [commandAccess (.discover true true)]

/-- The encoding of an access: the address byte, and the data byte of a write (R101). -/
def accessBytes (x : HostAccess) : List Byte :=
  match x with
  | .read a => [a]
  | .write a v => [a, v]

/-- A host script is handed to the machine: its accesses come after those still waiting (R103; Log 2). -/
def loadScript (ls : List HostLine) (s : State) : State := { s with hostIn := s.hostIn ++ ls.flatMap expandLine }

/-- The start of a run: the block as hardware reset leaves it, in this configuration and environment, with this script to do (R8, R34,
R270, R287; Log 2, Log 3, Log 4). -/
def startRun (c : Config) (e : Env) (ls : List HostLine) : State := loadScript ls { State.reset with cfg := c, env := e }

end Sys2Proof.Machine
end

