-- ==== Sys2Proof/Tests/Slice0.lean ====
section
/-! SUPPORT. Small tests. Expected values come from the vectors V<n> of spec/95_test_vectors.md, the tables of R61, R96 and R247, or the
table of D15, never from the model. The `witness_` theorems show, for each statement with hypotheses, states that meet them. -/

namespace Sys2Proof.Tests

open Sys2Proof.Machine

/-! ### Helpers -/

/-- The state after a command. -/
def after (i : Instr) (s : State) : State :=
  match exec i s with
  | .next t => t
  | .fault _ => s
  | .refused _ => s

/-- The state after one step. -/
def stepped (s : State) : State :=
  match step s with
  | .next t => t
  | .fault _ => s
  | .refused _ => s

/-- The reset state in an environment. -/
def on (e : Env) (c : Config := {}) : State := { State.reset with env := e, cfg := c }

/-- The reset state with one host access to do. -/
def doing (x : HostAccess) (s : State := State.reset) : State := { s with hostIn := [x] }

/-- A sound idle bus with no device, and a line shorted low (95 section 2). -/
def idleBus : Env := .script [] true
def shorted : Env := .script [] false

def fet : Config := { hasApu := true, hasPuPin := true }

/-- The identifiers A, B, C, X of 95. -/
def idA : Identifier := #v[0x28, 0xFF, 0x4B, 0x46, 0x92, 0x16, 0x04, 0x78]
def idB : Identifier := #v[0x28, 0xFF, 0x4B, 0x46, 0x92, 0x16, 0x05, 0x26]
def idC : Identifier := #v[0x10, 0xA1, 0xB2, 0xC3, 0xD4, 0xE5, 0xF6, 0x49]
def idX : Identifier := #v[0x22, 0x11, 0x22, 0x33, 0x44, 0x55, 0x66, 0x00]

/-- A bus of devices, none alarmed. -/
def bus (ids : List Identifier) (vanish : Option Nat := none) : Env :=
  .deviceBus { devs := ids.map (fun i => { id := i, alarmed := false }), vanish := vanish }

/-- `BUF` filled from offset 0, and the ranges a command takes. -/
def holding (bs : List Byte) (p n : Byte) (e : Env := idleBus) : State :=
  { on e with mem := bs.zipIdx.map (fun b => (0x80 + b.2, b.1)), ptr := p, arg := n }

/-! ### Well-formedness: each check refuses an ill-formed term (Instr has no check to fail: R91) -/

theorem test_rom8_ill_formed : (Place.rom 8).wellFormed = false := by decide
theorem test_buf128_ill_formed : (Place.buf 128).wellFormed = false := by decide
theorem test_num256_ill_formed : (Place.num 256).wellFormed = false := by decide
theorem test_wr_value_ill_formed : (HostLine.wr .arg 256).wellFormed = false := by decide
theorem test_wr_place_ill_formed : (HostLine.wr (.rom 8) 0).wellFormed = false := by decide
theorem test_rd_ill_formed : (HostLine.rd (.buf 128)).wellFormed = false := by decide
theorem test_send_ill_formed : (HostLine.send 256).wellFormed = false ∧ (HostLine.sendPu 256).wellFormed = false := by decide
theorem test_range_ill_formed :
    (HostLine.sendn 256 0).wellFormed = false ∧ (HostLine.recvn 0 256).wellFormed = false ∧
      (HostLine.check 256 0).wellFormed = false := by decide
theorem test_loadrom_length_ill_formed : (HostLine.loadRom [0, 1, 2, 3, 4, 5, 6]).wellFormed = false := by decide
theorem test_loadrom_byte_ill_formed : (HostLine.loadRom [0, 1, 2, 3, 4, 5, 6, 256]).wellFormed = false := by decide
theorem test_commands_well_formed : (Instr.discover true true).wellFormed = true ∧ Instr.odMatch.wellFormed = true := by decide

/-! ### Decoding: every row of R96, its byte written out bit by bit -/

theorem test_decode_writeBit : decode 0b00010010 = .ok (.writeBit true false) ∧ decode 0b00010001 = .ok (.writeBit false true) := by
  decide
theorem test_decode_readBit : decode 0b00100000 = .ok .readBit := by decide
theorem test_decode_reset : decode 0b00110000 = .ok .reset := by decide
theorem test_decode_writeByte : decode 0b01000000 = .ok (.writeByte false) ∧ decode 0b01000001 = .ok (.writeByte true) := by decide
theorem test_decode_readByte : decode 0b01010000 = .ok .readByte := by decide
theorem test_decode_writeBytes : decode 0b01100000 = .ok .writeBytes := by decide
theorem test_decode_readBytes : decode 0b01110000 = .ok .readBytes := by decide
theorem test_decode_releasePullup : decode 0b10000000 = .ok .releasePullup := by decide
theorem test_decode_romSingle : decode 0b10010000 = .ok .romSingle := by decide
theorem test_decode_romMatch : decode 0b10010001 = .ok .romMatch := by decide
theorem test_decode_romSkip : decode 0b10010010 = .ok .romSkip := by decide
theorem test_decode_odMatch : decode 0b10010101 = .ok .odMatch := by decide
theorem test_decode_odSkip : decode 0b10010110 = .ok .odSkip := by decide
theorem test_decode_crc8Check : decode 0b10100000 = .ok .crc8Check := by decide
theorem test_decode_crc8Rom : decode 0b10100001 = .ok .crc8Rom := by decide
theorem test_decode_discover : decode 0b10110010 = .ok (.discover true false) ∧ decode 0b10110001 = .ok (.discover false true) := by
  decide

/-- V36: bytes that encode no command. -/
theorem test_decode_none : [0x01, 0x0F, 0x14, 0x18, 0x1F, 0x21, 0x31, 0x42, 0x48, 0x51, 0x61, 0x71, 0x81, 0x93, 0x94, 0x97, 0x98, 0x9F,
    0xA2, 0xAF, 0xB4, 0xB8, 0xBF, 0xC0, 0xD0, 0xE0, 0xF0, 0xFF].all (fun w => decodeTableWord 8 w == none) = true := by decide

/-- V35, V36: such a byte is refused with code 1. -/
theorem test_refuse_code1 : statusByte (stepped (doing (.write 0x00 0xF0))) = 0x21 ∧ (stepped (doing (.write 0x00 0xF0))).cmd = 0xF0 := by
  decide

theorem test_withFetchWord : statusByte (stepped (State.reset.withFetchWord 8 0x10)) = 0x08 := by decide

/-! ### Bit Transport -/

/-- V1. -/
theorem test_V1_write0 : (after (.writeBit false false) State.reset).trace =
    [.enterCritical, .driveLow, .setDriven, .delay 65, .driveHigh, .delay 5, .setFloating, .exitCritical] ∧
    statusByte (after (.writeBit false false) State.reset) = 0x08 := by decide

/-- V4 (with V2's events less the last). -/
theorem test_V4_write1_hold : (after (.writeBit true true) State.reset).trace =
    [.enterCritical, .driveLow, .setDriven, .delay 10, .driveHigh, .delay 55, .setFloating] ∧
    statusByte (after (.writeBit true true) State.reset) = 0x0A := by decide

/-- V5. -/
theorem test_V5_read : (after .readBit (on (.script [false] true))).trace =
    [.enterCritical, .driveLow, .setDriven, .delay 5, .setFloating, .delay 10, .readPin false, .exitCritical, .delay 55] ∧
    (after .readBit (on (.script [false] true))).result = 0x00 ∧ statusByte (after .readBit (on (.script [false] true))) = 0x00 := by
  decide

/-- V6, V7: the critical hold is cleared, no mark. -/
theorem test_V7_read_after_hold : (after .readBit (after (.writeBit true true) (on idleBus))).result = 0x01 ∧
    statusByte (after .readBit (after (.writeBit true true) (on idleBus))) = 0x00 ∧
    (after .readBit (after (.writeBit true true) (on idleBus))).holdViolation = false := by decide

/-! ### Bus Sequencer -/

/-- V10. -/
theorem test_V10_reset : (after .reset (on (.script [false, false, true, false] true))).trace =
    [.setFloating, .readPin false, .delay 5, .readPin false, .delay 5, .readPin true, .enterCritical, .driveLow, .setDriven,
      .delay 480, .setFloating, .delay 60, .readPin false, .exitCritical, .delay 420] ∧
    (after .reset (on (.script [false, false, true, false] true))).result = 0x01 := by decide

/-- V11. -/
theorem test_V11_reset_dead : (after .reset (on shorted { retry := 3 })).trace =
    [.setFloating, .readPin false, .delay 5, .readPin false, .delay 5, .readPin false, .delay 5] ∧
    (after .reset (on shorted { retry := 3 })).result = 0x00 := by decide

/-- V13. -/
theorem test_V13_writeByte : (after (.writeByte false) { State.reset with arg := 0xA5 }).trace.length = 64 ∧
    busTime (after (.writeByte false) { State.reset with arg := 0xA5 }).trace = 540 ∧
    ((after (.writeByte false) { State.reset with arg := 0xA5 }).trace.take 16) =
      writeSlot {} true false ++ writeSlot {} false false := by decide +kernel

/-- V14, V15: with and without the FET. -/
theorem test_V14_pullup : statusByte (after (.writeByte true) { State.reset with arg := 0x44 }) = 0x0E ∧
    (after (.writeByte true) { State.reset with arg := 0x44 }).trace.drop 56 =
      [.enterCritical, .driveLow, .setDriven, .delay 65, .driveHigh, .delay 5, .setFloating, .driveHigh, .setDriven] ∧
    statusByte (after (.writeByte true) { on .free fet with arg := 0x44 }) = 0x1A ∧
    (after (.writeByte true) { on .free fet with arg := 0x44 }).trace.length = 64 := by decide +kernel

/-- V16 (b), (c). -/
theorem test_V16_release :
    (after .releasePullup { on .free fet with crit := true, out := true, pu := true }).trace =
      [.pullupOff, .setFloating, .exitCritical] ∧
    statusByte (after .releasePullup { on .free fet with crit := true, out := true, pu := true }) = 0x08 ∧
    (after .releasePullup State.reset).trace = [.setFloating, .exitCritical] ∧
    statusByte (after .releasePullup State.reset) = 0x00 := by decide

/-- V17. -/
theorem test_V17_readByte :
    (after .readByte (on (.script [true, false, true, false, false, true, false, true] true))).result = 0xA5 ∧
    (after .readByte (on (.script [true, false, true, false, false, true, false, true] true))).trace.length = 72 := by decide +kernel

/-- V18 (a). -/
theorem test_V18_writeBytes : (after .writeBytes (holding [0x44, 0x00] 0 2)).trace.length = 128 ∧
    busTime (after .writeBytes (holding [0x44, 0x00] 0 2)).trace = 2 * 65 + 14 * 70 ∧
    statusByte (after .writeBytes (holding [0x44, 0x00] 0 2)) = 0x08 := by decide +kernel

/-- V18 (b), (e). -/
theorem test_V18_readBytes : (after .readBytes (holding [] 4 2)).mem = [(0x84, 0xFF), (0x85, 0xFF)] ∧
    (after .readBytes (holding [] 4 2)).trace.length = 144 ∧ statusByte (after .readBytes (holding [] 129 0)) = 0x61 ∧
    statusByte (after .readBytes (holding [] 128 0)) = 0x00 := by decide +kernel

/-! ### ROM commands -/

/-- V30: 0x33 after the reset, no register shows the presence. -/
theorem test_V30_romSingle : (after .romSingle (on (.script [true, false] true))).trace =
    resetEvents {} 0 false ++ [true, true, false, false, true, true, false, false].flatMap (writeSlot {} · false) ∧
    (after .romSingle (on (.script [true, false] true))).result = 0x00 := by decide +kernel

/-- V31, its first 139 events. -/
theorem test_V31_romMatch :
    ((after .romMatch { on (.script [true, false] true) with rom := idA }).trace.drop 11).take 128 =
      [true, false, true, false, true, false, true, false, false, false, false, true, false, true, false, false].flatMap
        (writeSlot {} · false) := by decide +kernel

/-- V33: a dead line does not stop it. -/
theorem test_V33_romSkip : (after .romSkip (on shorted { retry := 2 })).trace.length = 69 ∧
    (after .romSkip (on shorted { retry := 2 })).trace.contains (.delay 480) = false := by decide +kernel

/-- V34. -/
theorem test_V34_odSkip : statusByte (after .odSkip State.reset) = 0x41 ∧ (after .odSkip State.reset).trace = [] := by decide
theorem test_V34_odMatch : statusByte (after .odMatch State.reset) = 0x41 ∧ (after .odMatch State.reset).trace = [] := by decide

/-! ### CRC-8 -/

/-- V20 to V23. -/
theorem test_V20_rounds : (List.range 9).map (fun n => crcRounds n 0x01) =
    [0x01, 0x8C, 0x46, 0x23, 0x9D, 0xC2, 0x61, 0xBC, 0x5E] ∧ crcStep 0x00 0x80 = 0x8C ∧ crcStep 0x00 0xFF = 0x35 ∧
    crcStep 0x00 0xA5 = 0x90 := by decide +kernel

/-- V25, V26, V27, D15 (C, X and the all-zero identifier). -/
theorem test_V25_crc8Rom : (after .crc8Rom { State.reset with rom := idA }).result = 0x01 ∧
    (after .crc8Rom { State.reset with rom := idA.set 7 0x79 }).result = 0x00 ∧
    (after .crc8Rom { State.reset with rom := idX }).result = 0x00 ∧ (after .crc8Rom State.reset).result = 0x01 := by
  decide +kernel

/-- V28 (b), V29. -/
theorem test_V28_crc8Check :
    (after .crc8Check (holding [0x50, 0x05, 0x4B, 0x46, 0x7F, 0xFF, 0x0C, 0x10, 0x1C] 0 8)).result = 0x01 ∧
    (after .crc8Check (holding [0x51, 0x05, 0x4B, 0x46, 0x7F, 0xFF, 0x0C, 0x10, 0x1C] 0 8)).result = 0x00 ∧
    statusByte (after .crc8Check (holding [] 121 7)) = 0x61 ∧ statusByte (after .crc8Check (holding [] 128 0)) = 0x61 := by
  decide +kernel

/-! ### The enumerator -/

/-- V40, V41, V50. -/
theorem test_V40_no_sink : (after (.discover false true) { on shorted with count := 7 }).count = 0 ∧
    (after (.discover false true) { on shorted with count := 7 }).trace = [] ∧
    (after (.discover true false) (on (bus []))).trace = resetEvents {} 0 true ∧
    (after (.discover true false) (on shorted { retry := 3 })).trace.length = 7 := by decide +kernel

/-- V44: three devices, 3 resets and 384 read slots; V46: nobody is alarmed. -/
theorem test_V44_discover : (after (.discover true false) (on (bus [idA, idB, idC]))).count = 3 ∧
    (after (.discover true false) (on (bus [idA, idB, idC]))).pinReads = 3 * 2 + 384 ∧
    (after (.discover true true) (on (bus [idA, idB, idC]))).trace.length = 93 ∧
    (after (.discover true true) (on (bus [idA, idB, idC]))).count = 0 := by decide +kernel

/-- V47: an invalid identifier is not counted; V49: the devices vanish. -/
theorem test_V47_invalid : (after (.discover true false) (on (bus [idA, idX]))).count = 1 := by decide +kernel
theorem test_V49_vanish : (after (.discover true false) (on (bus [idA, idB, idC] (some 2)))).count = 2 ∧
    (after (.discover true false) (on (bus [idA, idB, idC] (some 2)))).pinReads = 3 * 2 + 256 := by decide +kernel

/-! ### Host port and marks -/

/-- V38 (b), (c). -/
theorem test_V38_refusal_keeps_hold :
    statusByte (after .odSkip (after (.writeByte true) { State.reset with arg := 0x44 })) = 0x4F ∧
    (after .odSkip (after (.writeByte true) { State.reset with arg := 0x44 })).holdViolation = false := by decide +kernel
theorem test_V38_ignored_writes : [0x03, 0x04, 0x05, 0x07, 0x10, 0x40].all (fun a =>
    stepped (doing (.write a 0xFF)) == State.reset) = true ∧ (stepped (doing (.read 0x40))).hostOut = [0x00] := by decide +kernel

/-- V39. -/
theorem test_V39_views : featuresByte {} = 0x01 ∧ featuresByte fet = 0x03 ∧ featuresByte { hasApu := true } = 0x01 ∧
    featuresByte { hasEnum := false } = 0x00 ∧ (stepped (doing (.read 0x10) (on .free { retry := 1000 }))).hostOut = [0xE8] ∧
    (stepped (doing (.read 0x11) (on .free { retry := 1000 }))).hostOut = [0x03] := by decide +kernel
theorem test_V39_no_enumerator : statusByte (after (.discover true false) (on .free { hasEnum := false })) = 0x81 := by decide

/-- P1 line 7 replaced by `READ_BIT`: the mark of R285 is set and the line is not defined any more; with `RELEASE_PULLUP` in its place
neither happens. -/
theorem test_P1_hold_violation :
    (after .readBit (after (.writeByte true) { on idleBus with arg := 0x44 })).holdViolation = true ∧
    (after .readBit (after (.writeByte true) { on idleBus with arg := 0x44 })).env = .free ∧
    (after .releasePullup (after (.writeByte true) { on idleBus with arg := 0x44 })).holdViolation = false ∧
    (after .releasePullup (after (.writeByte true) { on idleBus with arg := 0x44 })).env = idleBus := by
  decide +kernel

/-- R102: `CHECK 0, 8` and the last access of `LOADROM`. -/
theorem test_pseudo : (expandLine (.check 0 8)).flatMap accessBytes = [0x02, 0x00, 0x01, 0x08, 0x00, 0xA0] ∧
    (expandLine (.loadRom [0x28, 0xFF, 0x4B, 0x46, 0x92, 0x16, 0x04, 0x78])).getLast? = some (.write 0x0F 0x78) := by decide

/-- R270: reset in a pull-up hold clears it and emits nothing. -/
theorem test_hardware_reset : statusByte (hardwareReset { State.reset with crit := true, mode := .driven, rcode := 3 }) = 0x00 ∧
    (hardwareReset { State.reset with trace := [.pullupOn] }).trace = [.pullupOn] := by decide

theorem test_reset_memory : State.reset.mem.wf ∧ statusByte State.reset = 0x00 := by decide

/-! ### Witnesses: states and operands that meet the hypotheses of each statement, at the ends of each range -/

theorem witness_DecodeEncodeAgree : (Instr.discover true true).wellFormed = true ∧ decode 0xB3 = .ok (.discover true true) := by decide

theorem witness_StepRunsDecodedCommand : (doing (.write 0x00 0x10)).hostIn = [.write 0x00 0x10] ∧
    decode 0x10 = .ok (.writeBit false false) ∧ decode (BitVec.ofNat 8 0xB3) = .ok (.discover true true) ∧ State.reset.hostIn = [] := by
  decide

/-- One byte, and the ends, of each group R97 names. -/
theorem witness_UnmatchedByteRefused : (doing (.write 0x00 0xF0)).hostIn = [.write 0x00 0xF0] ∧
    [0x00, 0x01, 0x0F, 0xC0, 0xFF, 0x14, 0x1F, 0xB4, 0xBF, 0x93, 0x94, 0x97, 0x98, 0x9F, 0xA2, 0xAF, 0x21, 0x8F].all (fun v =>
      opcodeRows.all (fun r => r.holds v == false)) = true := by decide

theorem witness_HostRead_registers : [0x00, 0x07, 0x08, 0x0F, 0x10, 0x11, 0x12, 0x7F].all (fun a =>
      (doing (.read a)).hostIn == [.read a]) = true ∧
    (0x08 : Byte).toNat = 0x08 + (0 : Fin 8).val ∧ (0x0F : Byte).toNat = 0x08 + (7 : Fin 8).val := by decide
theorem witness_HostRead_buffer : (doing (.read 0x80) (holding [0x44] 0 0)).mem.lookup (0x80 : Byte).toNat = some 0x44 ∧
    (doing (.read 0xFF) { State.reset with mem := [(0xFF, 0x45)] }).mem.lookup (0xFF : Byte).toNat = some 0x45 := by decide
theorem witness_HostReadRepeats : ({ State.reset with hostIn := [.read 0x80, .read 0x80] } : State).hostIn =
    .read 0x80 :: .read 0x80 :: [] := by decide

theorem witness_HostWrite : [0x00, 0x01, 0x02, 0x03, 0x07, 0x08, 0x0F, 0x10, 0x7F, 0x80, 0xFF].all (fun a =>
      (doing (.write a 0x20)).hostIn == [.write a 0x20]) = true ∧
    decode 0x20 = .ok .readBit ∧ decode 0x21 = .error (.noSuchCommand 0x21) := by decide

theorem witness_ResetOnScript : 199 < (State.reset.cfg.retry).toNat ∧ 0 < (State.reset.cfg.retry).toNat ∧
    (on (.script (List.replicate 199 false ++ true :: false :: []) true)).env =
      .script (List.replicate 199 false ++ true :: false :: []) true ∧
    (on (.script [true, true] true)).lineDefined ∧ (on (.script [true, true] true)).env = .script (List.replicate 0 false ++ true :: true :: []) true ∧
    (on (.script [false, false] true) { retry := 2 }).env =
      .script (List.replicate (on (.script [false, false] true) { retry := 2 }).cfg.retry.toNat false ++ []) true := by decide +kernel

theorem witness_ReadByteOnScript : (on (.script [true, false, true, false, false, true, false, true] true)).lineDefined ∧ (on (.script [true, false, true, false, false, true, false, true] true)).env =
    .script ((List.range 8).map (0xA5 : Byte).getLsbD ++ []) true := by decide
/-- From reset, and from a critical hold, which is no pull-up hold. -/
theorem witness_LoopbackRoundTrip : (on (.loopback [])).env = .loopback [] ∧ (on (.loopback [])).lineDefined ∧
    ({ on (.loopback []) with crit := true } : State).lineDefined := by decide

/-- The empty run at offset 128, and the whole buffer. -/
theorem witness_buffer_ranges : (holding [] 128 0).ptr.toNat + (holding [] 128 0).arg.toNat ≤ 128 ∧ (holding [] 128 0).arg = 0 ∧
    (holding [] 0 128).ptr.toNat + (holding [] 0 128).arg.toNat ≤ 128 ∧ (holding [] 0 128).arg ≠ 0 := by decide
/-- One byte read into `BUF[127]`; addresses before and after the stored byte. -/
theorem witness_ReadBytes_frame : (holding [] 127 1).ptr.toNat + (holding [] 127 1).arg.toNat ≤ 128 ∧
    0xFE < 0x80 + (holding [] 127 1).ptr.toNat ∧ 0x80 + (holding [] 127 1).ptr.toNat + (holding [] 127 1).arg.toNat ≤ 0x100 ∧
    (after .readBytes (holding [] 127 1)).mem = [(0xFF, 0xFF)] := by decide +kernel
theorem witness_Crc8Check : (holding [] 0 127).ptr.toNat + (holding [] 0 127).arg.toNat + 1 ≤ 128 ∧
    (holding [] 127 0).ptr.toNat + (holding [] 127 0).arg.toNat + 1 ≤ 128 := by decide
theorem witness_BufferRangeRefused : (holding [] 1 128).ptr.toNat + (holding [] 1 128).arg.toNat > 128 ∧
    (holding [] 121 7).ptr.toNat + (holding [] 121 7).arg.toNat + 1 > 128 := by decide

theorem witness_ReleasePullup : ({ on .free fet with pu := true } : State).pu = true ∧ fet.apu = true := by decide
theorem witness_RomSingleAndSkip : (Instr.romSingle = .romSingle ∧ (0x33 : Byte) = 0x33) ∧
    (Instr.romSkip = .romSkip ∧ (0xCC : Byte) = 0xCC) := by decide
theorem witness_CrcDetects : 7 < idA.toList.length ∧ crc8 idA.toList = 0x00 ∧ 7 < 8 ∧ 0 < idA.toList.length := by decide +kernel

/-- Each refusal code a command can leave, and an accepted one. -/
theorem witness_refusals : exec .odMatch State.reset = .next (after .odMatch State.reset) ∧ (after .odMatch State.reset).rcode = 2 ∧
    exec .readBytes (holding [] 129 0) = .next (after .readBytes (holding [] 129 0)) ∧
    (after .readBytes (holding [] 129 0)).rcode = 3 ∧ (after .crc8Check (holding [] 128 0)).rcode = 3 ∧
    (after (.discover true false) (on .free { hasEnum := false })).rcode = 4 ∧ (after .readBytes (holding [] 128 0)).rcode = 0 :=
  ⟨rfl, rfl, rfl, rfl, rfl, rfl, rfl⟩

theorem witness_hasEnum : State.reset.cfg.hasEnum = true ∧ (on .free { hasEnum := false }).cfg.hasEnum = false := by decide
/-- The reset that begins a pass fails on a shorted line and on an empty bus, and succeeds on a bus of one device. -/
theorem witness_DiscoverBeginsWithReset : (resetAndPresenceDetect (on shorted { retry := 3 })).1 = false ∧
    (resetAndPresenceDetect (on (bus []))).1 = false ∧ (resetAndPresenceDetect (on (bus [idA]))).1 = true := by decide
theorem witness_DiscoverSingleDevice : (on (bus [idA])).lineDefined ∧ 0 < (on (bus [idA])).cfg.retry.toNat ∧ (on (bus [idA])).cfg.hasEnum = true ∧
    (on (bus [idA])).env = .deviceBus { devs := [{ id := idA, alarmed := false, state := .off }] } := by decide

theorem idC_before_idA : idBefore idC idA := ⟨3, by decide⟩
theorem idA_before_idB : idBefore idA idB := ⟨48, by decide⟩

/-- Two devices, the later one first on the bus; with and without a vanishing. -/
theorem witness_DiscoverFindsTheDevices : (on (bus [idB, idA])).lineDefined ∧ (on (bus [idB, idA])).cfg.hasEnum = true ∧ 0 < (on (bus [idB, idA])).cfg.retry.toNat ∧
    (on (bus [idB, idA] (some 1))).env =
      .deviceBus { devs := [{ id := idB, alarmed := false }, { id := idA, alarmed := false }], vanish := some 1 } ∧
    [idA, idB].Perm (participants false { devs := [{ id := idB, alarmed := false }, { id := idA, alarmed := false }] }) ∧
    [idA, idB].Pairwise idBefore :=
  ⟨by decide, rfl, by decide, rfl, List.Perm.swap _ _ _, by simpa using idA_before_idB⟩
theorem witness_DiscoverCost : (on (bus [idC])).lineDefined ∧ (on (bus [idC])).cfg.hasEnum = true ∧ 0 < (on (bus [idC])).cfg.retry.toNat ∧
    (on (bus [idC])).env = .deviceBus { devs := [{ id := idC, alarmed := false }] } ∧
    ({ devs := [{ id := idC, alarmed := false }] } : DeviceBus).vanish = none ∧
    [idC].Perm (participants false { devs := [{ id := idC, alarmed := false }] }) ∧ [idC].Pairwise idBefore ∧ [idC] ≠ [] :=
  ⟨by decide, rfl, by decide, rfl, rfl, List.Perm.refl _, by simp, by simp⟩
theorem witness_AlarmSearch : (on (bus [idA])).lineDefined ∧ (on (bus [idA])).cfg.hasEnum = true ∧ (on (bus [idA])).env = .deviceBus { devs := [{ id := idA, alarmed := false }] } ∧
    ({ devs := [{ id := idA, alarmed := false }] } : DeviceBus).present = true ∧
    (∀ d ∈ [({ id := idA, alarmed := false } : Device)], d.alarmed = false) ∧ 0 < (on (bus [idA])).cfg.retry.toNat := by decide
theorem witness_StuckLowLine : (on (.script [true] false) { retry := 1 }).lineDefined ∧ (on (.script [true] false) { retry := 1 }).env = .script [true] false ∧
    0 < (on (.script [true] false) { retry := 1 }).cfg.retry.toNat := by decide
/-- A pass at its start, and the three kinds of pair at the two ends of the depths. -/
theorem witness_SearchFollowsThePair :
    [idleBus, .script [false, true] true, .script [true, false] true, .script [false, false] true].all (fun v =>
      { on v with enum := some (Enumeration.start false) }.enum == some (Enumeration.start false)) = true ∧ 0 < 64 ∧ 63 < 64 ∧
    idleBus.answer .slot 0 = true ∧ (idleBus.afterRead .slot).answer .slot 1 = true ∧
    (Env.script [false, true] true).answer .slot 0 ≠ ((Env.script [false, true] true).afterRead .slot).answer .slot 1 ∧
    ((Env.script [false, false] true).afterRead .slot).answer .slot 1 = false := by decide
theorem witness_SearchKeepsLowerBits : 0 ≤ 64 ∧ 63 < 64 - 0 ∧ 63 ≤ 64 ∧ 0 < 64 - 63 := by decide

theorem reset_inv : State.reset.Inv :=
  ⟨by decide, by decide, by decide, by decide, by decide, .inr (.inl (by decide)), by decide⟩
theorem witness_StepKeepsInvariant : State.reset.Inv ∧ step State.reset = .next State.reset ∧
    step (doing (.write 0x00 0x13)) = .next (stepped (doing (.write 0x00 0x13))) := ⟨reset_inv, rfl, rfl⟩
/-- A state the invariant rules out is not idle and in no hold. -/
theorem test_inv_refuses : ¬({ State.reset with crit := true, mode := .driven } : State).Inv := by
  rintro ⟨-, -, -, -, -, h, -⟩
  revert h; decide

/-- A command that changes registers, memory and events, and one whose outcome meets each premise. -/
theorem witness_exec_next : exec .readBit (on idleBus) = .next (after .readBit (on idleBus)) ∧ (on idleBus).idle ∧
    Instr.readBit ≠ .writeByte true ∧ (∀ v, Instr.readBit ≠ .writeBit true v) ∧ Instr.readBit ≠ .releasePullup ∧
    (∀ al, Instr.readBit ≠ .discover true al) ∧ pullupHeld (on idleBus) = false :=
  ⟨rfl, by decide, by simp, by simp, by simp, by simp, rfl⟩
theorem witness_registers_kept : Instr.writeByte false ∉ [Instr.readBit, .reset, .readByte, .crc8Check, .crc8Rom] ∧
    Instr.writeByte false ≠ .readBytes ∧ ∀ sink alarm, Instr.writeByte false ≠ .discover sink alarm := by simp
theorem witness_StepOnlyAppends : step (doing (.read 0x03)) = .next (stepped (doing (.read 0x03))) ∧
    ({ State.reset with holdViolation := true, unwrittenRead := true } : State).holdViolation = true := ⟨rfl, rfl⟩
theorem witness_HoldViolation : exec .readBit { on idleBus with mode := .driven } =
      .next (after .readBit { on idleBus with mode := .driven }) ∧
    (after .readBit { on idleBus with mode := .driven }).holdViolation = true ∧
    (after .odSkip { on idleBus with mode := .driven }).holdViolation = false := ⟨rfl, rfl, rfl⟩
/-- The nominal figures and a bus of one device. -/
theorem witness_NominalDurations : nominal (on (bus [idA])).cfg ∧ (on (bus [idA])).lineDefined ∧ (on (bus [idA])).cfg.hasEnum = true ∧
    0 < (on (bus [idA])).cfg.retry.toNat ∧
    (on (bus [idA])).env = .deviceBus { devs := [{ id := idA, alarmed := false, state := .off }] } := by decide

/-- R291's figures for a write slot of each level and for the byte 0xFF. -/
theorem test_R291 : busTime (after (.writeBit true true) (on idleBus)).trace = 65 ∧
    busTime (after (.writeBit false false) (on idleBus)).trace = 70 ∧
    busTime (after (.writeByte true) { on idleBus with arg := 0xFF }).trace = 520 := by decide +kernel

/-- States that differ in flags only: where the same environment answers both, where both are marked, and where only one is. -/
theorem witness_FlagsAreNotConsulted :
    lineEnv { on idleBus with crit := true, out := true, rcode := 2, refused := true } = lineEnv (on idleBus) ∧
    lineEnv { on idleBus with mode := .driven } = lineEnv { on idleBus with pu := true } ∧
    lineEnv { on idleBus with mode := .driven } ≠ lineEnv (on idleBus) ∧
    (after .crc8Rom State.reset).trace = State.reset.trace := by decide

/-- A run that takes the mark, one that has free answers, and a clean one that used the bus. -/
theorem witness_MarkedRunHasNoKnownLine :
    exec .readBit { on idleBus with pu := true } = .next (after .readBit { on idleBus with pu := true }) ∧
    (after .readBit { on idleBus with pu := true }).holdViolation = true ∧
    (after .readBit { on idleBus with pu := true }).trace ≠ ({ on idleBus with pu := true } : State).trace ∧
    Instr.readBit ≠ .releasePullup ∧ (on .free).env = .free ∧
    (after .readBit (on idleBus)).clean ∧ (after .readBit (on idleBus)).trace ≠ (on idleBus).trace := ⟨rfl, rfl, by decide, by simp, rfl, by decide, by decide⟩
theorem witness_ResetValues : State.reset = State.reset ∧ State.reset.trace = [] ∧ 7 < 8 ∧ 127 < 128 := by decide
/-- A complete identifier with a right CRC, and one with a wrong one. -/
theorem witness_SearchEndsAtDepth64 : ({ State.reset with enum := some { Enumeration.start false with id := idA } } : State).enum =
      some { Enumeration.start false with id := idA } ∧ crc8 idA.toList = 0x00 ∧ crc8 idX.toList ≠ 0x00 := by decide +kernel

end Sys2Proof.Tests
end

section
/-! A step only appends to the records (R13, R39, R285): one transitive relation, met by every command and every host access. -/

namespace Sys2Proof.Machine

/-- From `s` to `t` the configuration is kept, the records only grow and no mark is cleared. -/
structure OnlyAppends (s t : State) : Prop where
  trace : s.trace <+: t.trace
  cfg : t.cfg = s.cfg
  hostOut : s.hostOut <+: t.hostOut
  pinReads : s.pinReads ≤ t.pinReads
  holdViolation : s.holdViolation = true → t.holdViolation = true
  unwrittenRead : s.unwrittenRead = true → t.unwrittenRead = true

theorem OnlyAppends.trans {s t u : State} (h : OnlyAppends s t) (k : OnlyAppends t u) : OnlyAppends s u where
  trace := h.trace.trans k.trace
  cfg := k.cfg.trans h.cfg
  hostOut := h.hostOut.trans k.hostOut
  pinReads := h.pinReads.trans k.pinReads
  holdViolation := k.holdViolation ∘ h.holdViolation
  unwrittenRead := k.unwrittenRead ∘ h.unwrittenRead

/-- A change of registers and memory alone leaves every record as it is. -/
theorem OnlyAppends.of_eq {s t : State} (htrace : t.trace = s.trace) (hcfg : t.cfg = s.cfg) (hout : t.hostOut = s.hostOut)
    (hpin : t.pinReads = s.pinReads) (hhold : t.holdViolation = s.holdViolation)
    (hread : t.unwrittenRead = s.unwrittenRead) : OnlyAppends s t where
  trace := htrace ▸ List.prefix_rfl
  cfg := hcfg
  hostOut := hout ▸ List.prefix_rfl
  pinReads := hpin.ge
  holdViolation := hhold.trans
  unwrittenRead := hread.trans

theorem OnlyAppends.refl (s : State) : OnlyAppends s s := .of_eq rfl rfl rfl rfl rfl rfl

/-- R285: the mark is sticky, whether the command emitted an event or not. -/
theorem Ran.holdViolation_sticky {i : Instr} {s t : State} (h : Ran i s t) (hs : s.holdViolation = true) :
    t.holdViolation = true := by
  by_cases hquiet : t.trace = s.trace
  · obtain ⟨-, -, -, -, hmark⟩ := h.quiet hquiet
    exact hmark.trans hs
  · obtain ⟨hmark, -⟩ := h.busy hquiet
    rw [hmark, hs, Bool.true_or]

theorem Ran.onlyAppends {i : Instr} {s t : State} (h : Ran i s t) : OnlyAppends s t where
  trace := h.trace
  cfg := h.cfg
  hostOut := h.hostOut ▸ List.prefix_rfl
  pinReads := h.pinReads
  holdViolation := h.holdViolation_sticky
  unwrittenRead := h.unwrittenRead

theorem refuse_onlyAppends (c : BitVec 3) (s : State) : OnlyAppends s (refuse c s) := .of_eq rfl rfl rfl rfl rfl rfl

theorem exec_onlyAppends {i : Instr} {s t : State} (h : exec i s = .next t) : OnlyAppends s t := by
  rcases exec_cases h with ⟨c, -, rfl⟩ | ⟨-, hran⟩
  · exact refuse_onlyAppends c s
  · exact hran.onlyAppends

/-- A write to `CMD`, whether its byte encodes a command or is refused with code 1. -/
theorem runCommand_onlyAppends {v : Byte} {s t : State} (h : runCommand v s = .next t) : OnlyAppends s t := by
  have hcmd : OnlyAppends s { s with cmd := v } := .of_eq rfl rfl rfl rfl rfl rfl
  unfold runCommand at h
  split at h
  · exact hcmd.trans (exec_onlyAppends h)
  · cases h
    exact hcmd.trans (refuse_onlyAppends _ _)

theorem writeRegister_onlyAppends (a v : Byte) (s : State) : OnlyAppends s (writeRegister a v s) := by
  unfold writeRegister
  split_ifs
  case neg => exact .refl s
  all_goals exact .of_eq rfl rfl rfl rfl rfl rfl

theorem hostRead_onlyAppends (a : Byte) (s : State) : OnlyAppends s (hostRead a s) where
  trace := List.prefix_rfl
  cfg := rfl
  hostOut := List.prefix_append _ _
  pinReads := le_rfl
  holdViolation := id
  unwrittenRead := fun h => by simp [hostRead, h]

theorem hostAccess_onlyAppends {x : HostAccess} {s t : State} (h : hostAccess x s = .next t) : OnlyAppends s t := by
  cases x with
  | read a =>
    cases h
    exact hostRead_onlyAppends a s
  | write a v =>
    simp only [hostAccess, hostWrite] at h
    split at h
    · exact runCommand_onlyAppends h
    · cases h
      exact writeRegister_onlyAppends a v s

theorem step_onlyAppends {s t : State} (h : step s = .next t) : OnlyAppends s t := by
  unfold step hostStep at h
  split at h
  · cases h
    exact .refl s
  next x rest _ =>
    have htake : OnlyAppends s { s with hostIn := rest } := .of_eq rfl rfl rfl rfl rfl rfl
    exact htake.trans (hostAccess_onlyAppends h)

/-- Settles O55: every step meets `OnlyAppends`, because a command that is not refused is `Ran`, and the rest of the host port
touches only registers, memory and the marks it sets. -/
theorem stepOnlyAppendsToTrace : Obligations.StepOnlyAppendsToTrace := by
  intro s t h
  obtain ⟨htrace, hcfg, hout, hpin, hhold, hread⟩ := step_onlyAppends h
  exact ⟨htrace, hcfg, hout, hpin, hhold, hread⟩

end Sys2Proof.Machine
end

section
/-! What an accepted command does once it has been accepted: one function of the command, so that a fact about every command
is one case split over it (R95, R246, R285). -/

namespace Sys2Proof.Machine

/-- Does a command that starts here use the line, so that it is accepted by `acceptBus` (R285)? -/
def usesLine (i : Instr) (s : State) : Bool :=
  match i with
  | .writeBytes | .readBytes => lengthOperand s != 0
  | .discover sink _ => sink
  | .releasePullup | .odMatch | .odSkip | .crc8Check | .crc8Rom => false
  | .writeBit _ _ | .readBit | .reset | .writeByte _ | .readByte | .romSingle | .romMatch | .romSkip => true

/-- Acceptance of a command that is not refused. -/
def acceptFor (i : Instr) (s : State) : State := if usesLine i s then acceptBus s else accept s

/-- What a command does after its acceptance. The two overdrive commands are never accepted. -/
def effect (i : Instr) (s : State) : State :=
  match i with
  | .writeBit h v => writeBit v h s
  | .readBit => { (readBit s).2 with result := zextBit (readBit s).1 }
  | .reset => { (resetAndPresenceDetect s).2 with result := zextBit (resetAndPresenceDetect s).1 }
  | .writeByte p => writeByte (dataOperand s) p s
  | .readByte => { (readByte s).2 with result := (readByte s).1 }
  | .writeBytes => writeBytes (offsetOperand s) (lengthOperand s) s
  | .readBytes => readBytes (offsetOperand s) (lengthOperand s) s
  | .releasePullup => releaseActivePullup s
  | .romSingle => romCommand 0x33 s
  | .romMatch => sendRun (romAddr 0) 8 (romCommand 0x55 s)
  | .romSkip => romCommand 0xCC s
  | .odMatch | .odSkip => s
  | .crc8Check =>
    let e := bufAddr (offsetOperand s + lengthOperand s)
    let r := readRun (bufAddr (offsetOperand s)) (lengthOperand s) s
    { touch e r.2 with result := zextBit (crc8Valid r.1 (peek e r.2)) }
  | .crc8Rom =>
    let r := readRun (romAddr 0) 7 s
    { touch (romAddr 7) r.2 with result := zextBit (crc8Valid r.1 (peek (romAddr 7) r.2)) }
  | .discover sink alarm =>
    { (discoverDevices sink alarm s).2 with count := saturate (discoverDevices sink alarm s).1 }

/-- A buffer command is accepted by its length (R285). -/
theorem acceptBuffer_eq (s : State) : acceptBuffer s = if lengthOperand s != 0 then acceptBus s else accept s := by
  by_cases h : lengthOperand s = 0 <;> simp [acceptBuffer, h]

/-- Acceptance leaves the operands of a buffer command alone. -/
theorem acceptBuffer_operands (s : State) :
    offsetOperand (acceptBuffer s) = offsetOperand s ∧ lengthOperand (acceptBuffer s) = lengthOperand s := by
  unfold acceptBuffer
  split <;> exact ⟨rfl, rfl⟩

/-- Every command that is not refused is its acceptance, then its effect. -/
theorem exec_eq_effect {i : Instr} {s : State} (h : refusalOf i s = none) : exec i s = .next (effect i (acceptFor i s)) := by
  cases i with
  | writeBytes =>
    obtain ⟨hp, hn⟩ := acceptBuffer_operands s
    have hr : outOfBuffer s = false := by simpa [refusalOf] using h
    have ha : acceptFor .writeBytes s = acceptBuffer s := (acceptBuffer_eq s).symm
    simp [exec, execWriteBytes, hr, ha, effect, hp, hn]
  | readBytes =>
    obtain ⟨hp, hn⟩ := acceptBuffer_operands s
    have hr : outOfBuffer s = false := by simpa [refusalOf] using h
    have ha : acceptFor .readBytes s = acceptBuffer s := (acceptBuffer_eq s).symm
    simp [exec, execReadBytes, hr, ha, effect, hp, hn]
  | crc8Check =>
    have hr : outOfBufferCheck s = false := by simpa [refusalOf] using h
    simp only [exec, execCrc8Check, hr, Bool.false_eq_true, if_false]
    rfl
  | discover sink alarm =>
    have hr : s.cfg.hasEnum = true := by simpa [refusalOf] using h
    simp only [exec, execDiscover, hr, if_true]
    rfl
  | odMatch => simp [refusalOf] at h
  | odSkip => simp [refusalOf] at h
  | writeBit | readBit | reset | writeByte | readByte | releasePullup | romSingle | romMatch | romSkip | crc8Rom => rfl

/-- Everything a command can do, as a function: it is refused, or it is accepted and takes effect. -/
theorem exec_next_cases {i : Instr} {s t : State} (h : exec i s = .next t) :
    (∃ c, refusalOf i s = some c ∧ t = refuse c s) ∨
      (refusalOf i s = none ∧ Ran i s t ∧ t = effect i (acceptFor i s)) := by
  rcases exec_cases h with hrefused | ⟨hn, hran⟩
  · exact .inl hrefused
  · rw [exec_eq_effect hn] at h
    cases h
    exact .inr ⟨hn, hran, rfl⟩

end Sys2Proof.Machine
end

section
/-! With the mark the line is free (R285, Log 8): acceptance brings this about, and no effect undoes it. -/

namespace Sys2Proof.Machine

/-- The line clause of the invariant. -/
def MarkFreesLine (s : State) : Prop := s.holdViolation = true → s.env = .free

/-- From `s` to `t` the mark stays as it is, and answers that were free stay free. -/
def KeepsLine (s t : State) : Prop := t.holdViolation = s.holdViolation ∧ StaysFree s t

theorem KeepsLine.refl (s : State) : KeepsLine s s := ⟨rfl, id⟩

theorem KeepsLine.trans {s t u : State} (h : KeepsLine s t) (k : KeepsLine t u) : KeepsLine s u :=
  ⟨k.1.trans h.1, h.2.trans k.2⟩

theorem KeepsLine.of_eq {s t : State} (hmark : t.holdViolation = s.holdViolation) (henv : t.env = s.env) : KeepsLine s t :=
  ⟨hmark, .of_eq henv⟩

theorem BusFrame.keepsLine {s t : State} (h : BusFrame s t) (hfree : StaysFree s t) : KeepsLine s t :=
  ⟨h.holdViolation, hfree⟩

theorem KeepsLine.markFreesLine {s t : State} (h : KeepsLine s t) (hs : MarkFreesLine s) : MarkFreesLine t := by
  obtain ⟨hmark, hfree⟩ := h
  exact fun ht => hfree (hs (hmark ▸ ht))

theorem reset_keepsLine (s : State) : KeepsLine s (resetAndPresenceDetect s).2 :=
  (reset_frame s).keepsLine (reset_staysFree s)

theorem writeByte_keepsLine (x : Byte) (p : Bool) (s : State) : KeepsLine s (writeByte x p s) := by
  refine ⟨?_, writeByte_staysFree x p s⟩
  cases p with
  | false => rw [writeByte_eq]
  | true => rw [writeByte_hold_eq]

theorem sendRun_keepsLine (a n : Nat) (s : State) : KeepsLine s (sendRun a n s) := by
  refine ⟨?_, sendRun_staysFree a n s⟩
  rw [sendRun_eq]
  split <;> rfl

theorem readBytes_keepsLine (p n : Nat) (s : State) : KeepsLine s (readBytes p n s) := by
  refine ⟨?_, readBytes_staysFree p n s⟩
  obtain ⟨lss, o, c, m, e, k, -, -, -, -, he⟩ := readBytes_spec p n s
  rw [he]

theorem romCommand_keepsLine (x : Byte) (s : State) : KeepsLine s (romCommand x s) :=
  (reset_keepsLine s).trans (writeByte_keepsLine x false _)

theorem discoverDevices_keepsLine (sink alarm : Bool) (s : State) : KeepsLine s (discoverDevices sink alarm s).2 := by
  cases sink with
  | false => exact .refl s
  | true =>
    have hpass := (discoverPass_frame { s with enum := some (Enumeration.start alarm) }).keepsLine (discoverPass_staysFree _)
    exact hpass

/-- No effect touches the mark or brings a known environment back. -/
theorem effect_keepsLine (i : Instr) (s : State) : KeepsLine s (effect i s) := by
  cases i with
  | writeBit h v => exact (writeBit_frame v h s).keepsLine (writeBit_staysFree v h s)
  | readBit => exact (readBit_frame s).keepsLine (readBit_staysFree s)
  | reset => exact reset_keepsLine s
  | writeByte p => exact writeByte_keepsLine _ p s
  | readByte => exact (readByte_frame s).keepsLine (readByte_staysFree s)
  | writeBytes => exact sendRun_keepsLine _ _ s
  | readBytes => exact readBytes_keepsLine _ _ s
  | releasePullup => rw [effect, releaseActivePullup_eq]; exact .of_eq rfl rfl
  | romSingle => exact romCommand_keepsLine _ s
  | romMatch => exact (romCommand_keepsLine _ s).trans (sendRun_keepsLine _ _ _)
  | romSkip => exact romCommand_keepsLine _ s
  | odMatch => exact .refl s
  | odSkip => exact .refl s
  | crc8Check => simp only [effect, readRun_eq]; exact .of_eq rfl rfl
  | crc8Rom => simp only [effect, readRun_eq]; exact .of_eq rfl rfl
  | discover sink alarm => exact discoverDevices_keepsLine sink alarm s

theorem acceptFor_markFreesLine {s : State} (i : Instr) (hs : MarkFreesLine s) : MarkFreesLine (acceptFor i s) := by
  unfold acceptFor
  split
  · exact lineEnv_undefined
  · exact hs

theorem exec_markFreesLine {i : Instr} {s t : State} (h : exec i s = .next t) (hs : MarkFreesLine s) : MarkFreesLine t := by
  rcases exec_next_cases h with ⟨c, -, rfl⟩ | ⟨-, -, rfl⟩
  · exact hs
  · exact (effect_keepsLine i _).markFreesLine (acceptFor_markFreesLine i hs)

end Sys2Proof.Machine
end

section
/-! The hold a command leaves at its end (R33). -/

namespace Sys2Proof.Machine

theorem pullupHeld_eq_false {s : State} : pullupHeld s = false ↔ s.pu = false ∧ s.mode = .floating := by
  have hmode : s.mode ≠ .driven ↔ s.mode = .floating := by cases s.mode <;> simp
  simp [pullupHeld, hmode]

/-- `PU` is raised by `WRITE_BYTE` with `p = 1` only (R144). -/
theorem Ran.pu_low {i : Instr} {s t : State} (h : Ran i s t) (hpu : s.pu = false) (hi : i ≠ .writeByte true) :
    t.pu = false := by
  rw [h.pu, if_neg hi, hpu, Bool.and_false, ite_self]

/-- A command that used no port event leaves the hold it found. -/
theorem Ran.hold_of_quiet {i : Instr} {s t : State} (h : Ran i s t) (hquiet : t.trace = s.trace) :
    (s.idle → t.idle) ∧ (s.criticalHold → t.criticalHold) ∧ (s.pullupHold → t.pullupHold) := by
  obtain ⟨hmode, hout, hcrit, hpu, -⟩ := h.quiet hquiet
  simp only [State.idle, State.criticalHold, State.pullupHold, hmode, hout, hcrit, hpu, h.cfg]
  exact ⟨id, id, id⟩

/-- R33: the hold after a command that emitted an event and started with `PU` and `MODE` released. -/
theorem Ran.hold_of_busy {i : Instr} {s t : State} (h : Ran i s t) (hbusy : t.trace ≠ s.trace) (hheld : pullupHeld s = false) :
    t.idle ∨ t.criticalHold ∨ t.pullupHold := by
  obtain ⟨hpu, -⟩ := pullupHeld_eq_false.1 hheld
  obtain ⟨-, ⟨rfl, hmode, hout, hcrit⟩ | ⟨⟨v, rfl⟩, hmode, hcrit⟩ | ⟨hi, -, hmode, -⟩⟩ := h.busy hbusy
  · have hpu' : t.pu = s.cfg.apu := by rw [h.pu, if_pos rfl, hpu, Bool.or_false]
    refine .inr (.inr ⟨hcrit, ?_⟩)
    rw [h.cfg, hpu', hmode]
    cases s.cfg.apu <;> simp [hout]
  · exact .inr (.inl ⟨hmode, hcrit, h.pu_low hpu (by simp)⟩)
  · have hpu' := h.pu_low hpu hi
    cases hcrit : t.crit with
    | false => exact .inl ⟨hmode, hcrit, hpu'⟩
    | true => exact .inr (.inl ⟨hmode, hcrit, hpu'⟩)

/-- `RELEASE_PULLUP` ends every hold, where `PU` needs `APU` (R29, R151). -/
theorem Ran.idle_of_releasePullup {s t : State} (h : Ran .releasePullup s t) (hbusy : t.trace ≠ s.trace)
    (hapu : s.pu = true → s.cfg.apu = true) : t.idle := by
  have hpu : t.pu = false := by
    rw [h.pu, if_neg (by simp), if_pos rfl]
    cases hs : s.pu with
    | false => simp
    | true => simp [hapu hs]
  obtain ⟨-, ⟨hi, -⟩ | ⟨⟨v, hi⟩, -⟩ | ⟨-, -, hmode, hcrit | ⟨-, hi⟩⟩⟩ := h.busy hbusy
  · cases hi
  · cases hi
  · exact ⟨hmode, hcrit, hpu⟩
  · exact absurd rfl hi

/-- R33 with R285: a command that ran leaves the block idle or in a hold, or the mark is set. -/
theorem Ran.hold {i : Instr} {s t : State} (h : Ran i s t) (hapu : s.pu = true → s.cfg.apu = true)
    (hs : s.holdViolation = true ∨ s.idle ∨ s.criticalHold ∨ s.pullupHold) :
    t.holdViolation = true ∨ t.idle ∨ t.criticalHold ∨ t.pullupHold := by
  by_cases hquiet : t.trace = s.trace
  · obtain ⟨hidle, hcritical, hpullup⟩ := h.hold_of_quiet hquiet
    exact hs.imp h.holdViolation_sticky (Or.imp hidle (Or.imp hcritical hpullup))
  by_cases hi : i = .releasePullup
  · subst hi
    exact .inr (.inl (h.idle_of_releasePullup hquiet hapu))
  cases hheld : pullupHeld s with
  | false => exact .inr (h.hold_of_busy hquiet hheld)
  | true =>
    obtain ⟨hmark, -⟩ := h.busy hquiet
    exact .inl (by simp [hmark, hi, hheld])

end Sys2Proof.Machine
end

section
/-! The invariant of a command boundary (R20, R25, R28, R29, R33, R247, R285). -/

namespace Sys2Proof.Machine

/-- The invariant reads no register but memory, and none of the host's lists. -/
theorem State.Inv.of_registers {s t : State} (hs : s.Inv) (hmem : t.mem.wf) (h : t = { s with
    cmd := t.cmd, arg := t.arg, ptr := t.ptr, rom := t.rom, romWritten := t.romWritten, mem := t.mem, hostIn := t.hostIn,
    hostOut := t.hostOut, unwrittenRead := t.unwrittenRead }) : t.Inv := by
  rw [h]
  exact { hs with mem_wf := hmem }

theorem State.Inv.withCmd {s : State} (hs : s.Inv) (v : Byte) : ({ s with cmd := v } : State).Inv := hs.of_registers hs.mem_wf rfl

/-- A refusal with one of the codes of R247. -/
theorem State.Inv.refuse {s : State} (hs : s.Inv) {c : BitVec 3} (hne : c ≠ 0) (hle : c.toNat ≤ 4) : (refuse c s).Inv :=
  { hs with refused_iff := iff_of_true rfl hne, rcode_le := hle }

theorem refusalOf_code {i : Instr} {s : State} {c : BitVec 3} (h : refusalOf i s = some c) : c ≠ 0 ∧ c.toNat ≤ 4 := by
  have hc : c = 2 ∨ c = 3 ∨ c = 4 := by cases i <;> grind [refusalOf]
  rcases hc with rfl | rfl | rfl <;> decide

theorem Ran.enum_none {i : Instr} {s t : State} (h : Ran i s t) (hs : s.enum = none) : t.enum = none := by
  rcases h.enum with heq | ⟨hnone, -⟩
  · exact heq.trans hs
  · exact hnone

theorem Ran.pu_apu {i : Instr} {s t : State} (h : Ran i s t) (hs : s.pu = true → s.cfg.apu = true) (ht : t.pu = true) :
    t.cfg.apu = true := by
  rw [h.cfg]
  by_cases hi : i = .writeByte true
  · rw [h.pu, if_pos hi, Bool.or_eq_true] at ht
    exact ht.elim id hs
  · refine hs ?_
    by_contra hpu
    exact absurd ht (by simp [h.pu_low (by simpa using hpu) hi])

theorem Ran.inv {i : Instr} {s t : State} (h : Ran i s t) (hline : MarkFreesLine t) (hs : s.Inv) : t.Inv where
  mem_wf := h.mem_wf hs.mem_wf
  pu_apu := h.pu_apu hs.pu_apu
  refused_iff := by simp [h.refused, h.rcode]
  rcode_le := by simp [h.rcode]
  enum_none := h.enum_none hs.enum_none
  hold := h.hold hs.pu_apu hs.hold
  line := hline

theorem exec_inv {i : Instr} {s t : State} (h : exec i s = .next t) (hs : s.Inv) : t.Inv := by
  rcases exec_cases h with ⟨c, hc, rfl⟩ | ⟨-, hran⟩
  · obtain ⟨hne, hle⟩ := refusalOf_code hc
    exact hs.refuse hne hle
  · exact hran.inv (exec_markFreesLine h hs.line) hs

theorem runCommand_inv {v : Byte} {s t : State} (h : runCommand v s = .next t) (hs : s.Inv) : t.Inv := by
  unfold runCommand at h
  split at h
  · exact exec_inv h (hs.withCmd v)
  · cases h
    exact (hs.withCmd v).refuse (by decide) (by decide)

theorem writeRegister_inv (a v : Byte) {s : State} (hs : s.Inv) : (writeRegister a v s).Inv := by
  unfold writeRegister
  split_ifs with harg hptr hrom hbuf
  · exact hs.of_registers hs.mem_wf rfl
  · exact hs.of_registers hs.mem_wf rfl
  · exact hs.of_registers hs.mem_wf rfl
  · have haddr : 0x80 ≤ a.toNat ∧ a.toNat < 0x100 := by
      simp only [isBuf, Bool.and_eq_true, decide_eq_true_eq] at hbuf
      exact ⟨hbuf.1, a.isLt⟩
    exact hs.of_registers (Memory.store_wf v hs.mem_wf haddr) rfl
  · exact hs

theorem hostAccess_inv {x : HostAccess} {s t : State} (h : hostAccess x s = .next t) (hs : s.Inv) : t.Inv := by
  cases x with
  | read a =>
    cases h
    exact hs.of_registers hs.mem_wf rfl
  | write a v =>
    simp only [hostAccess, hostWrite] at h
    split at h
    · exact runCommand_inv h hs
    · cases h
      exact writeRegister_inv a v hs

theorem step_inv {s t : State} (h : step s = .next t) (hs : s.Inv) : t.Inv := by
  unfold step hostStep at h
  split at h
  · cases h
    exact hs
  · exact hostAccess_inv h (hs.of_registers hs.mem_wf rfl)

/-- Settles O49: an access of the host keeps the invariant, a command by `exec_inv`, any other by `State.Inv.of_registers`. -/
theorem stepKeepsInvariant : Obligations.StepKeepsInvariant := fun _ _ hs h => step_inv h hs

/-- Settles O48: the reset state is idle, with empty memory and no mark. -/
theorem resetMeetsInvariant : Obligations.ResetMeetsInvariant where
  mem_wf := ⟨.nil, by simp [State.reset]⟩
  pu_apu := by simp [State.reset]
  refused_iff := by simp [State.reset]
  rcode_le := by simp [State.reset]
  enum_none := rfl
  hold := .inr (.inl ⟨rfl, rfl, rfl⟩)
  line := fun _ => rfl

end Sys2Proof.Machine
end

section
/-! Idle commands and holding commands (R33). -/

namespace Sys2Proof.Machine

/-- R33 (a): a command that ran and is none of the two holding forms ends idle if it started idle. -/
theorem Ran.idle {i : Instr} {s t : State} (h : Ran i s t) (hs : s.idle) (hbit : ∀ v, i ≠ .writeBit true v)
    (hbyte : i ≠ .writeByte true) : t.idle := by
  by_cases hquiet : t.trace = s.trace
  · exact (h.hold_of_quiet hquiet).1 hs
  obtain ⟨-, hcrit, hpu⟩ := hs
  obtain ⟨-, ⟨hi, -⟩ | ⟨⟨v, hi⟩, -⟩ | ⟨-, -, hmode, hleft⟩⟩ := h.busy hquiet
  · exact absurd hi hbyte
  · exact absurd hi (hbit v)
  · refine ⟨hmode, ?_, h.pu_low hpu hbyte⟩
    rcases hleft with hleft | ⟨hleft, -⟩
    · exact hleft
    · exact hleft.trans hcrit

/-- Settles O51: a refused command touches no pin, and one that ran meets `Ran.idle`. -/
theorem idleCommandsEndIdle : Obligations.IdleCommandsEndIdle := by
  intro i s t h hs hbit hbyte
  rcases exec_cases h with ⟨c, -, rfl⟩ | ⟨-, hran⟩
  · exact hs
  · exact hran.idle hs hbit hbyte

/-- A held write slot leaves the critical hold (R33 b, R121). -/
theorem writeBit_criticalHold (v : Bool) {s : State} (hpu : s.pu = false) : (writeBit v true s).criticalHold := by
  rw [writeBit_eq]
  exact ⟨rfl, rfl, hpu⟩

/-- A byte with the pull-up requested leaves the pull-up hold, by the FET or by the driven pin (R33 c, R144). -/
theorem writeByte_pullupHold (x : Byte) {s : State} (hpu : s.pu = false) : (writeByte x true s).pullupHold := by
  rw [writeByte_hold_eq]
  refine ⟨rfl, ?_⟩
  cases s.cfg.apu with
  | true => exact .inl ⟨rfl, rfl, rfl⟩
  | false => exact .inr ⟨rfl, rfl, rfl, hpu⟩

/-- Settles O52: both commands start with `PU` low, which their last slot relies on. -/
theorem holdingCommandsHold : Obligations.HoldingCommandsHold := by
  intro s hheld
  obtain ⟨hpu, -⟩ := pullupHeld_eq_false.1 hheld
  exact ⟨fun v => ⟨_, rfl, writeBit_criticalHold v hpu⟩, _, rfl, writeByte_pullupHold _ hpu⟩

end Sys2Proof.Machine
end

section
/-! What a command can write, and what it can report (R21, R22, R23, R28, R31). -/

namespace Sys2Proof.Machine

theorem Ran.enum_kept {i : Instr} {s t : State} (h : Ran i s t) (hi : ∀ sink alarm, i ≠ .discover sink alarm) :
    t.enum = s.enum := by
  rcases h.enum with heq | ⟨-, sink, alarm, hd⟩
  · exact heq
  · exact absurd hd (hi sink alarm)

/-- Settles O50: a refused command writes `REFUSED` and `RCODE` only; for one that ran, `Ran` lists what stays, and a byte reads as
before because memory and `ROM` do. -/
theorem commandsWriteOnlyTheirRegisters : Obligations.CommandsWriteOnlyTheirRegisters := by
  intro i s t h
  rcases exec_cases h with ⟨c, -, rfl⟩ | ⟨-, hran⟩
  · exact ⟨rfl, rfl, rfl, rfl, rfl, rfl, rfl, rfl, fun _ => rfl, fun _ => ⟨rfl, rfl⟩, fun _ _ => ⟨rfl, rfl⟩⟩
  · exact ⟨hran.cmd, hran.arg, hran.ptr, hran.rom, hran.romWritten, hran.cfg, hran.hostIn, hran.hostOut, hran.result,
      fun hi => ⟨hran.count hi, hran.enum_kept hi⟩,
      fun hi a => ⟨peek_congr a hran.rom (hran.mem hi), unwritten_congr a hran.romWritten (hran.mem hi)⟩⟩

/-- From `s` to `t` no identifier left by the sink. -/
theorem Emits.reports_eq {s t : State} (h : Emits (fun es => reports es = []) s t) : reports t.trace = reports s.trace := by
  obtain ⟨es, htrace, hes⟩ := h
  rw [htrace, reports_append, hes, List.append_nil]

theorem reports_writeBit (v h : Bool) (s : State) : reports (writeBit v h s).trace = reports s.trace := by
  rw [writeBit_eq, reports_append, reports_writeSlot, List.append_nil]

/-- A byte with the pull-up requested emits its slots, then the pull-up's own events (R142, R144). -/
theorem reports_writeByte_hold (x : Byte) (s : State) : reports (writeByte x true s).trace = reports s.trace := by
  have hslots := reports_flatMap_nil (fun v => writeSlot s.cfg v false) (fun v => reports_writeSlot _ v false)
    ((wireBits x).take 7)
  rw [writeByte_hold_eq, reports_append, reports_append, reports_append, hslots, reports_writeSlot]
  cases s.cfg.apu <;> exact List.append_nil _

theorem reports_releaseActivePullup (s : State) : reports (releaseActivePullup s).trace = reports s.trace := by
  rw [releaseActivePullup_eq, reports_append]
  cases s.cfg.apu <;> exact List.append_nil _

/-- Settles O56: the three commands that hold or release emit slots and pin events, every other one but `DISCOVER SINK` slots and
resets (`exec_emits`), and none of these is a report. -/
theorem onlyDiscoverReports : Obligations.OnlyDiscoverReports := by
  intro i s t h hdiscover
  by_cases hbit : ∃ v, i = .writeBit true v
  · obtain ⟨v, rfl⟩ := hbit
    cases h
    exact reports_writeBit v true (acceptBus s)
  by_cases hbyte : i = .writeByte true
  · subst hbyte
    cases h
    exact reports_writeByte_hold _ (acceptBus s)
  by_cases hrelease : i = .releasePullup
  · subst hrelease
    cases h
    exact reports_releaseActivePullup (accept s)
  · have hsink : (∃ alarm, i = .discover true alarm) → ∀ id, reports [.report id] = [] :=
      fun ⟨alarm, hi⟩ => absurd hi (hdiscover alarm)
    exact (exec_emits closed_reports h hsink (fun v hi => hbit ⟨v, hi⟩) hbyte hrelease).reports_eq

end Sys2Proof.Machine
end

section
/-! No command consults a flag (R37): acceptance clears the status flags, and no effect looks at the pins. -/

namespace Sys2Proof.Machine

variable {s u : State}

theorem sim_operands (h : Sim s u) :
    dataOperand u = dataOperand s ∧ offsetOperand u = offsetOperand s ∧ lengthOperand u = lengthOperand s := by
  obtain ⟨m, o, c, p, v, rfl⟩ := h.elim
  exact ⟨rfl, rfl, rfl⟩

theorem sim_releaseActivePullup (h : Sim s u) : Sim (releaseActivePullup s) (releaseActivePullup u) := by
  obtain ⟨m, o, c, p, v, rfl⟩ := h.elim
  simp only [releaseActivePullup_eq]
  exact rfl

theorem sim_romCommand (x : Byte) (h : Sim s u) : Sim (romCommand x s) (romCommand x u) :=
  sim_writeByte x false (sim_reset h).2

theorem sim_enum (e : Option Enumeration) (h : Sim s u) : Sim { s with enum := e } { u with enum := e } := by
  obtain ⟨m, o, c, p, v, rfl⟩ := h.elim
  exact rfl

theorem sim_count (n : Half) (h : Sim s u) : Sim { s with count := n } { u with count := n } := by
  obtain ⟨m, o, c, p, v, rfl⟩ := h.elim
  exact rfl

theorem sim_discoverDevices (sink alarm : Bool) (h : Sim s u) :
    (discoverDevices sink alarm u).1 = (discoverDevices sink alarm s).1 ∧
      Sim (discoverDevices sink alarm s).2 (discoverDevices sink alarm u).2 := by
  cases sink with
  | false => exact ⟨rfl, h⟩
  | true =>
    have hpass := sim_pass (sim_enum (some (Enumeration.start alarm)) h)
    exact ⟨congrArg Enumeration.count (sim_enumOf hpass), sim_enum none hpass⟩

theorem sim_effect (i : Instr) (h : Sim s u) : Sim (effect i s) (effect i u) := by
  obtain ⟨hdata, hoffset, hlength⟩ := sim_operands h
  cases i with
  | writeBit hd v => exact sim_writeBit v hd h
  | readBit =>
    obtain ⟨hlevel, hstate⟩ := sim_readBit h
    simp only [effect, hlevel]
    exact sim_result _ hstate
  | reset =>
    obtain ⟨hok, hstate⟩ := sim_reset h
    simp only [effect, hok]
    exact sim_result _ hstate
  | writeByte p => simp only [effect, hdata]; exact sim_writeByte _ p h
  | readByte => exact sim_readByte_result h
  | writeBytes => simp only [effect, hoffset, hlength]; exact sim_send _ _ h
  | readBytes => simp only [effect, hoffset, hlength]; exact sim_readBytes _ _ h
  | releasePullup => exact sim_releaseActivePullup h
  | romSingle => exact sim_romCommand _ h
  | romMatch => exact sim_send _ _ (sim_romCommand _ h)
  | romSkip => exact sim_romCommand _ h
  | odMatch => exact h
  | odSkip => exact h
  | crc8Check =>
    obtain ⟨m, o, c, p, v, rfl⟩ := h.elim
    simp only [effect, readRun_eq]
    exact rfl
  | crc8Rom =>
    obtain ⟨m, o, c, p, v, rfl⟩ := h.elim
    simp only [effect, readRun_eq]
    exact rfl
  | discover sink alarm =>
    obtain ⟨hcount, hstate⟩ := sim_discoverDevices sink alarm h
    simp only [effect, hcount]
    exact sim_count _ hstate

end Sys2Proof.Machine
end

section
/-! A command that uses the line emits an event (R285), so a quiet one asks nobody. -/

namespace Sys2Proof.Machine

/-- From `s` to `t` at least one port event was emitted. -/
def Busy (s t : State) : Prop := s.trace <+: t.trace ∧ t.trace ≠ s.trace

theorem Busy.of_append {s t : State} {es : List PortEvent} (h : t.trace = s.trace ++ es) (hne : es ≠ []) : Busy s t := by
  rw [Busy, h]
  exact ⟨List.prefix_append _ _, List.self_ne_append hne⟩

/-- What follows only appends. -/
theorem Busy.mono {s t u : State} (h : Busy s t) (k : t.trace <+: u.trace) : Busy s u := by
  obtain ⟨hgrow, hne⟩ := h
  exact ⟨hgrow.trans k, ne_of_prefix hgrow hne k⟩

theorem busy_writeBit (v h : Bool) (s : State) : Busy s (writeBit v h s) :=
  .of_append (by rw [writeBit_eq]) (writeSlot_ne_nil _ v h)

theorem busy_readBit (s : State) : Busy s (readBit s).2 :=
  .of_append (by rw [readBit_eq]) (by simp [readSlot])

theorem busy_reset (s : State) : Busy s (resetAndPresenceDetect s).2 := ⟨(reset_frame s).trace, reset_emits s⟩

theorem busy_writeByte (x : Byte) (p : Bool) (s : State) : Busy s (writeByte x p s) := by
  cases p with
  | false => exact .of_append (by rw [writeByte_eq]) (writeByteEvents_ne_nil _ x)
  | true => exact .of_append (by rw [writeByte_hold_eq]) (by simp [writeSlot])

theorem flatMap_ne_nil {α : Type} {f : α → List PortEvent} (hf : ∀ a, f a ≠ []) {l : List α} (hl : l ≠ []) :
    l.flatMap f ≠ [] := by
  obtain ⟨a, ha⟩ := List.exists_mem_of_ne_nil l hl
  exact fun h => hf a (List.flatMap_eq_nil_iff.1 h a ha)

theorem readSlot_ne_nil (c : Config) (l : Level) : readSlot c l ≠ [] := by simp [readSlot]

theorem busy_readByte (s : State) : Busy s (readByte s).2 := by
  obtain ⟨ls, e, k, hlen, he⟩ := readByte_spec s
  have hls : ls ≠ [] := List.ne_nil_of_length_pos (by omega)
  exact .of_append (by rw [he]) (flatMap_ne_nil (readSlot_ne_nil s.cfg) hls)

theorem busy_sendRun (a : Nat) {n : Nat} (hn : n ≠ 0) (s : State) : Busy s (sendRun a n s) := by
  have hpeeks : peeks a n s ≠ [] := by simp [peeks, hn]
  exact .of_append (by rw [sendRun_eq, if_neg hn]) (flatMap_ne_nil (writeByteEvents_ne_nil s.cfg) hpeeks)

theorem busy_readBytes (p : Nat) {n : Nat} (hn : n ≠ 0) (s : State) : Busy s (readBytes p n s) := by
  obtain ⟨lss, o, c, m, e, k, hlen, hbits, -, -, he⟩ := readBytes_spec p n s
  obtain ⟨ls, hls⟩ := List.exists_mem_of_ne_nil lss (List.ne_nil_of_length_pos (by omega))
  obtain ⟨l, hl⟩ := List.exists_mem_of_ne_nil ls (List.ne_nil_of_length_pos (by have := hbits ls hls; omega))
  have hflat : lss.flatten ≠ [] := List.ne_nil_of_mem (List.mem_flatten_of_mem hls hl)
  exact .of_append (by rw [he]) (flatMap_ne_nil (readSlot_ne_nil s.cfg) hflat)

theorem busy_romCommand (x : Byte) (s : State) : Busy s (romCommand x s) :=
  (busy_reset s).mono (writeByte_frame x _).trace

theorem busy_discoverPass (s : State) : Busy s (discoverPass s) := by
  unfold discoverPass
  simp only
  split
  · exact (busy_reset s).mono ((writeByte_frame _ _).trans (search_frame 64 _ le_rfl)).trace
  · exact busy_reset s

theorem busy_effect {i : Instr} {s : State} (h : usesLine i s = true) : Busy s (effect i s) := by
  cases i with
  | writeBit hd v => exact busy_writeBit v hd s
  | readBit => exact busy_readBit s
  | reset => exact busy_reset s
  | writeByte p => exact busy_writeByte _ p s
  | readByte => exact busy_readByte s
  | writeBytes => exact busy_sendRun _ (by simpa [usesLine] using h) s
  | readBytes => exact busy_readBytes _ (by simpa [usesLine] using h) s
  | romSingle => exact busy_romCommand _ s
  | romMatch => exact (busy_romCommand _ s).mono (busy_sendRun _ (by decide) _).1
  | romSkip => exact busy_romCommand _ s
  | discover sink alarm =>
    obtain rfl : sink = true := h
    exact busy_discoverPass { s with enum := some (Enumeration.start alarm) }
  | releasePullup | odMatch | odSkip | crc8Check | crc8Rom => simp [usesLine] at h

theorem usesLine_acceptFor (i : Instr) (s : State) : usesLine i (acceptFor i s) = usesLine i s := by
  unfold acceptFor
  split <;> cases i <;> rfl

theorem acceptFor_trace (i : Instr) (s : State) : (acceptFor i s).trace = s.trace := by
  unfold acceptFor
  split <;> rfl

/-- An accepted command that emits nothing does not use the line. -/
theorem usesLine_of_quiet {i : Instr} {s : State} (h : (effect i (acceptFor i s)).trace = s.trace) : usesLine i s = false := by
  by_contra huse
  have huse' : usesLine i (acceptFor i s) = true := (usesLine_acceptFor i s).trans (by simpa using huse)
  obtain ⟨-, hne⟩ := busy_effect huse'
  exact hne (h.trans (acceptFor_trace i s).symm)

end Sys2Proof.Machine
end

section
/-! Two runs of one command from states that differ in flags only (R37). -/

namespace Sys2Proof.Machine

/-- `t` is `s` but for the flags, the status flags and the mark. -/
def DiffersInFlags (s t : State) : Prop :=
  t = { s with
    mode := t.mode, out := t.out, crit := t.crit, pu := t.pu, refused := t.refused, rcode := t.rcode,
    holdViolation := t.holdViolation }

/-- Refusal and the use of the line are decided by the operands and the configuration. -/
theorem DiffersInFlags.decisions {s t : State} (h : DiffersInFlags s t) (i : Instr) :
    refusalOf i t = refusalOf i s ∧ usesLine i t = usesLine i s := by
  rw [h]
  cases i <;> exact ⟨rfl, rfl⟩

theorem DiffersInFlags.sim_refuse {s t : State} (h : DiffersInFlags s t) (c : BitVec 3) : Sim (refuse c s) (refuse c t) := by
  rw [h]
  exact rfl

/-- Acceptance levels the status flags; what the mark does to the line matters to a command that uses it only. -/
theorem DiffersInFlags.sim_acceptFor {s t : State} (h : DiffersInFlags s t) {i : Instr}
    (hline : usesLine i s = true → lineEnv t = lineEnv s) : Sim (acceptFor i s) (acceptFor i t) := by
  unfold acceptFor
  rw [(h.decisions i).2]
  cases huse : usesLine i s with
  | false =>
    rw [h]
    exact rfl
  | true =>
    simp only [if_true, Sim, acceptBus, hline huse]
    rw [h]
    rfl

/-- Settles O53: both runs are refused alike, or both are accepted into states that differ in flags only, which every effect
keeps (`sim_effect`). -/
theorem flagsAreNotConsulted : Obligations.FlagsAreNotConsulted := by
  intro i s s' m o c p r v q hs'
  have hflags : DiffersInFlags s s' := by rw [hs']; exact rfl
  obtain ⟨hrefusal, -⟩ := hflags.decisions i
  cases hr : refusalOf i s with
  | some code =>
    exact ⟨_, _, exec_refused i s code hr, exec_refused i s' code (hrefusal.trans hr), fun _ => hflags.sim_refuse code⟩
  | none =>
    refine ⟨_, _, exec_eq_effect hr, exec_eq_effect (hrefusal.trans hr), fun h => ?_⟩
    refine sim_effect i (hflags.sim_acceptFor fun huse => ?_)
    rcases h with rfl | hquiet | hline
    · simp [usesLine] at huse
    · simp [usesLine_of_quiet hquiet] at huse
    · exact hline

end Sys2Proof.Machine
end

section
/-! The step, the status byte and the values of reset (R24, R25, R26, R38, R63). -/

namespace Sys2Proof.Machine

/-- A step whose access is a write to `CMD` starts the command of that byte (R24, R63). -/
theorem step_writeCmd {s : State} {v : Byte} {rest : List HostAccess} (h : s.hostIn = .write 0x00 v :: rest) :
    step s = runCommand v { s with hostIn := rest } := by
  rw [step, hostStep, h]
  rfl

theorem runCommand_of_decode {v : Byte} {i : Instr} (h : decode v = .ok i) (s : State) :
    runCommand v s = exec i { s with cmd := v } := by
  rw [runCommand, h]

theorem step_idle {s : State} (h : s.hostIn = []) : step s = .next s := by
  rw [step, hostStep, h]

/-- Settles O4: the step starts the command byte (`step_writeCmd`), which runs what it decodes to. -/
theorem stepRunsDecodedCommand : Obligations.StepRunsDecodedCommand := by
  refine ⟨fun s v i rest hin hdec => ?_, fun s n w i hdec => ?_, fun s => step_idle⟩
  · rw [step_writeCmd hin, runCommand_of_decode hdec]
  · rw [step_writeCmd (s := s.withFetchWord n w) rfl, runCommand_of_decode hdec]
    rfl

theorem drivenBit_eq_true {m : PinMode} : drivenBit m = true ↔ m = .driven := by cases m <;> simp [drivenBit]

/-- Where the concatenation of `STATUS` puts its fields (R25). -/
theorem statusByte_bits (s : State) :
    (statusByte s).getLsbD 0 = s.refused ∧ (statusByte s).getLsbD 1 = s.crit ∧
      (statusByte s).getLsbD 2 = drivenBit s.mode ∧ (statusByte s).getLsbD 3 = s.out ∧ (statusByte s).getLsbD 4 = s.pu ∧
      (statusByte s).extractLsb' 5 3 = s.rcode := by
  rw [statusByte]
  generalize s.rcode = code, s.pu = pu, s.out = out, drivenBit s.mode = driven, s.crit = crit, s.refused = refused
  revert code pu out driven crit refused
  decide

/-- `FEATURES` is its two bits, and zeros above (R26, D18). -/
theorem featuresByte_bits (c : Config) :
    (featuresByte c).getLsbD 0 = c.hasEnum ∧ (featuresByte c).getLsbD 1 = c.apu ∧ (featuresByte c).extractLsb' 2 6 = 0 := by
  rw [featuresByte]
  cases c.apu <;> cases c.hasEnum <;> decide

/-- Settles O9: each field of the two bytes is where the concatenation puts it. -/
theorem statusAndFeaturesBits : Obligations.StatusAndFeaturesBits := by
  intro s
  obtain ⟨hrefused, hcrit, hdriven, hout, hpu, hcode⟩ := statusByte_bits s
  obtain ⟨henum, hapu, hzero⟩ := featuresByte_bits s.cfg
  exact ⟨hrefused, hcrit, by rw [hdriven, drivenBit_eq_true], hout, hpu, hcode, henum, hapu, hzero⟩

theorem hardwareReset_rom_unwritten (s : State) {i : Nat} (hi : i < 8) : unwritten (0x08 + i) (hardwareReset s) = true := by
  have haddr : isRom (0x08 + i) = true := by simp [isRom]; omega
  simp [unwritten, haddr, hardwareReset, State.reset, Vector.getD, hi]

theorem hardwareReset_buf_unwritten (s : State) {i : Nat} (hi : i < 128) : unwritten (0x80 + i) (hardwareReset s) = true := by
  have haddr : isBuf (0x80 + i) = true := by simp [isBuf]; omega
  simp [unwritten, haddr, hardwareReset, State.reset]

theorem hardwareReset_status (s : State) : statusByte (hardwareReset s) = 0x00 := by
  have h : statusByte (hardwareReset s) = statusByte State.reset := rfl
  rw [h]
  decide

/-- Settles O47: `State.reset` is itself a hardware reset, so only `hardwareReset` has to be looked at. -/
theorem resetValues : Obligations.ResetValues := by
  refine ⟨fun s t h => ?_, fun s => rfl⟩
  obtain ⟨r, rfl, htrace⟩ : ∃ r, t = hardwareReset r ∧ r.trace = s.trace := by
    rcases h with rfl | ⟨rfl, hnil⟩
    · exact ⟨s, rfl, rfl⟩
    · exact ⟨State.reset, rfl, hnil.symm⟩
  exact ⟨rfl, rfl, rfl, rfl, rfl, rfl, rfl, rfl, rfl, rfl, rfl, rfl, htrace, ⟨rfl, rfl, rfl⟩, hardwareReset_status r,
    fun _ => hardwareReset_rom_unwritten r, fun _ => hardwareReset_buf_unwritten r⟩

end Sys2Proof.Machine
end

section
/-! The host port address by address (R61 to R64): what a read returns, and what a write to a register, `ROM` or `BUF` leaves. -/

namespace Sys2Proof.Machine

theorem step_read {s : State} {a : Byte} {rest : List HostAccess} (h : s.hostIn = .read a :: rest) :
    step s = .next { s with
      hostIn := rest, hostOut := s.hostOut ++ [hostByte a s], unwrittenRead := s.unwrittenRead || unwritten a.toNat s } := by
  rw [step, hostStep, h]
  rfl

theorem step_write {s : State} {a : Byte} {rest : List HostAccess} (v : Byte) (h : s.hostIn = .write a v :: rest)
    (ha : a ≠ 0x00) : step s = .next (writeRegister a v { s with hostIn := rest }) := by
  rw [step, hostStep, h]
  exact if_neg ha

/-- R97: a byte that encodes no command is refused with code 1. -/
theorem runCommand_of_decode_error {v : Byte} {r : DecodeReject} (h : decode v = .error r) (s : State) :
    runCommand v s = .next { s with cmd := v, refused := true, rcode := 1 } := by
  rw [runCommand, h]
  rfl

theorem isRom_iff {a : Nat} : isRom a = true ↔ 0x08 ≤ a ∧ a ≤ 0x0F := by simp [isRom]

theorem isBuf_iff {a : Nat} : isBuf a = true ↔ 0x80 ≤ a ∧ a ≤ 0xFF := by simp [isBuf]

theorem isRom_eq_false_of_ge {a : Nat} (h : 0x10 ≤ a) : isRom a = false := by
  rw [Bool.eq_false_iff, ne_eq, isRom_iff]
  omega

/-- R69: the lower address holds the low half of a 16-bit register. -/
theorem lowByte_toNat (x : Half) : (lowByte x).toNat = x.toNat % 256 := by simp [lowByte]

theorem highByte_toNat (x : Half) : (highByte x).toNat = x.toNat / 256 := by
  have hx := x.isLt
  simp only [highByte, BitVec.extractLsb'_toNat, Nat.shiftRight_eq_div_pow]
  omega

/-- The addresses of `ROM` read the identifier registers (R61). -/
theorem hostByte_rom {a : Byte} (s : State) (i : Fin 8) (h : a.toNat = 0x08 + i.val) : hostByte a s = s.rom[i] := by
  have hlow : ∀ n, n < 0x08 → a ≠ BitVec.ofNat 8 n := fun n hn => ne_of_toNat_lt (by omega) hn
  have hne : a ≠ 16#8 ∧ a ≠ 17#8 := by constructor <;> bv_omega
  have hrom : isRom a.toNat = true := isRom_iff.2 (by omega)
  have hpeek : peek a.toNat s = s.rom[i] := by rw [h, peek_rom]
  simp [hostByte, hlow 0, hlow 1, hlow 2, hlow 3, hlow 4, hlow 5, hlow 6, hlow 7, hne, hrom, hpeek]

/-- Settles O6: the byte returned is `hostByte`; each clause of the map is what `hostByte` gives there. -/
theorem hostReadReturnsMappedByte : Obligations.HostReadReturnsMappedByte := by
  intro s a rest hin
  refine ⟨hostByte a s, step_read hin, ?cmd, ?arg, ?ptr, ?status, ?result, ?countLow, ?countHigh, ?features,
    hostByte_rom s, ?retryLow, ?retryHigh, ?reserved, ?buf⟩
  case cmd | arg | ptr | status | result | features => rintro rfl; rfl
  case countLow | retryLow => rintro rfl; exact lowByte_toNat _
  case countHigh | retryHigh => rintro rfl; exact highByte_toNat _
  case reserved => exact fun ⟨hlow, hhigh⟩ => hostByte_reserved s hlow hhigh
  case buf =>
    intro x ha hx
    rw [hostByte_buf s ha, peek_buf s ha, hx, Option.getD_some]

/-- Settles O7: the first read changes only what `hostByte` does not look at (`hostByte_congr`). -/
theorem hostReadRepeats : Obligations.HostReadRepeats := by
  intro s a rest hin
  refine ⟨_, _, hostByte a s, step_read hin, step_read rfl, ?_⟩
  refine (congrArg (s.hostOut ++ [hostByte a s] ++ [·]) (hostByte_congr (s := s) a ?_)).trans (List.append_assoc ..)
  rfl

theorem peek_pokeBuf_same {a : Nat} (x : Byte) (s : State) (h : 0x80 ≤ a) : peek a (pokeBuf a x s) = x := by
  simp [peek_buf _ h]

theorem unwritten_pokeBuf_same {a : Nat} (x : Byte) (s : State) (h : 0x80 ≤ a) : unwritten a (pokeBuf a x s) = false := by
  simp [unwritten, isRom_eq_false_of_ge (a := a) (by omega)]

theorem peek_pokeBuf_other {a b : Nat} (x : Byte) (s : State) (h : b ≠ a) : peek b (pokeBuf a x s) = peek b s := by
  simp [peek, Memory.lookup_store_other s.mem x h]

theorem unwritten_pokeBuf_other {a b : Nat} (x : Byte) (s : State) (h : b ≠ a) :
    unwritten b (pokeBuf a x s) = unwritten b s := by
  simp [unwritten, Memory.lookup_store_other s.mem x h]

theorem pokeRom_eq (i : Fin 8) (x : Byte) (s : State) :
    pokeRom (0x08 + i.val) x s = { s with rom := s.rom.set i x, romWritten := s.romWritten.set i true } := by
  have hi : 0x08 + i.val - 0x08 = i.val := Nat.add_sub_cancel_left _ _
  simp [pokeRom, hi, Vector.setIfInBounds, Vector.set, Array.setIfInBounds]

theorem writeRegister_rom {a : Byte} (v : Byte) (s : State) (i : Fin 8) (h : a.toNat = 0x08 + i.val) :
    writeRegister a v s = pokeRom a.toNat v s := by
  have hlow : ∀ n, n < 0x08 → a ≠ BitVec.ofNat 8 n := fun n hn => ne_of_toNat_lt (by omega) hn
  have hrom : isRom a.toNat = true := isRom_iff.2 (by omega)
  simp [writeRegister, hlow 1, hlow 2, hrom]

theorem writeRegister_buf {a : Byte} (v : Byte) (s : State) (h : 0x80 ≤ a.toNat) :
    writeRegister a v s = pokeBuf a.toNat v s := by
  have hlow : ∀ n, n < 0x80 → a ≠ BitVec.ofNat 8 n := fun n hn => ne_of_toNat_lt h hn
  have hrom : isRom a.toNat = false := isRom_eq_false_of_ge (by omega)
  have hbuf : isBuf a.toNat = true := isBuf_iff.2 ⟨h, Nat.le_of_lt_succ a.isLt⟩
  simp [writeRegister, hlow 1, hlow 2, hrom, hbuf]

/-- R63, R64: the other addresses ignore a write. -/
theorem writeRegister_ignored {a : Byte} (v : Byte) (s : State)
    (h : (0x03 ≤ a.toNat ∧ a.toNat ≤ 0x07) ∨ (0x10 ≤ a.toNat ∧ a.toNat ≤ 0x7F)) : writeRegister a v s = s := by
  have hlow : ∀ n, n < 0x03 → a ≠ BitVec.ofNat 8 n := fun n hn => ne_of_toNat_lt (by omega) hn
  have hrom : ¬ isRom a.toNat = true := by rw [isRom_iff]; omega
  have hbuf : ¬ isBuf a.toNat = true := by rw [isBuf_iff]; omega
  simp [writeRegister, hlow 1, hlow 2, hrom, hbuf]

/-- Settles O8: a write to `CMD` is `runCommand`, any other is `writeRegister`, which is looked at address by address. -/
theorem hostWriteTakesEffect : Obligations.HostWriteTakesEffect := by
  intro s a v rest hin
  have hreg (hne : a ≠ 0x00) : step s = .next (writeRegister a v { s with hostIn := rest }) := step_write v hin hne
  have hpos (hlt : 0 < a.toNat) : a ≠ 0x00 := ne_of_toNat_lt (n := 0) hlt Nat.zero_lt_one
  refine ⟨?command, ?noCommand, ?arg, ?ptr, ?rom, ?buf, ?ignored⟩
  case command =>
    rintro rfl i hdec
    rw [step_writeCmd hin, runCommand_of_decode hdec]
  case noCommand =>
    rintro rfl r hdec
    rw [step_writeCmd hin, runCommand_of_decode_error hdec]
  case arg | ptr =>
    rintro rfl
    exact hreg (by decide)
  case rom =>
    intro i hi
    rw [hreg (hpos (by omega)), writeRegister_rom v _ i hi, hi, pokeRom_eq]
  case buf =>
    intro ha
    refine ⟨pokeBuf a.toNat v { s with hostIn := rest }, ?_, rfl, peek_pokeBuf_same v _ ha, unwritten_pokeBuf_same v _ ha,
      fun b hb => ⟨peek_pokeBuf_other v _ hb, unwritten_pokeBuf_other v _ hb⟩⟩
    rw [hreg (hpos (by omega)), writeRegister_buf v _ ha]
  case ignored =>
    intro ha
    rw [hreg (hpos (by omega)), writeRegister_ignored v _ ha]

end Sys2Proof.Machine
end

section
/-! The refusal of a range that leaves the buffer (R71, R148, R150, R188). -/

namespace Sys2Proof.Machine

theorem outOfBuffer_iff {s : State} : outOfBuffer s = true ↔ s.ptr.toNat + s.arg.toNat > 128 := by
  simp [outOfBuffer, offsetOperand, lengthOperand, bufSize]

theorem outOfBufferCheck_iff {s : State} : outOfBufferCheck s = true ↔ s.ptr.toNat + s.arg.toNat + 1 > 128 := by
  simp [outOfBufferCheck, offsetOperand, lengthOperand, bufSize]

/-- Settles O32: the range check decides the refusal (`refusalOf`), and a refused command does nothing else (`exec_refused`). -/
theorem bufferRangeRefused : Obligations.BufferRangeRefused := by
  intro s
  refine ⟨fun hrange => ?_, fun hrange => ?_⟩
  · have hout : outOfBuffer s = true := outOfBuffer_iff.2 hrange
    exact ⟨exec_refused .writeBytes s 3 (if_pos hout), exec_refused .readBytes s 3 (if_pos hout)⟩
  · have hout : outOfBufferCheck s = true := outOfBufferCheck_iff.2 hrange
    exact exec_refused .crc8Check s 3 (if_pos hout)

end Sys2Proof.Machine
end

section
/-! The opcode table and the encoder (R91, R95 to R97): the rows are disjoint, so `decode` takes the one row that matches, and the bytes
that match a row are the codes of the commands. -/

namespace Sys2Proof.Machine

/-- A byte that matches two rows agrees with both patterns wherever both masks look. -/
theorem pattern_agree_of_holds {r q : OpcodeRow} {c : Byte} (hr : r.holds c = true) (hq : q.holds c = true) :
    r.pattern &&& q.mask = q.pattern &&& r.mask := by
  have hr' : c &&& r.mask = r.pattern := beq_iff_eq.1 hr
  have hq' : c &&& q.mask = q.pattern := beq_iff_eq.1 hq
  rw [← hr', ← hq', BitVec.and_assoc, BitVec.and_assoc, BitVec.and_comm r.mask]

/-- Any two rows of R96 ask for different values of some bit that both look at. -/
theorem opcodeRows_patterns_differ :
    opcodeRows.Pairwise (fun r q => r.pattern &&& q.mask ≠ q.pattern &&& r.mask) := by decide

/-- Settles O2: two rows that match one byte would agree where both look, and no two rows do. -/
theorem opcodeRowsDisjoint : Obligations.OpcodeRowsDisjoint :=
  opcodeRows_patterns_differ.imp fun hne _ hboth => hne (pattern_agree_of_holds hboth.1 hboth.2)

/-- R95: at most one row matches. -/
theorem opcodeRow_unique {r q : OpcodeRow} {c : Byte} (hr : r ∈ opcodeRows) (hq : q ∈ opcodeRows)
    (hrc : r.holds c = true) (hqc : q.holds c = true) : r = q := by
  by_contra hne
  have hsymm : Std.Symm (fun r q : OpcodeRow => r.pattern &&& q.mask ≠ q.pattern &&& r.mask) := ⟨fun _ _ => Ne.symm⟩
  exact opcodeRows_patterns_differ.forall hr hq hne (pattern_agree_of_holds hrc hqc)

/-- The row `decode` looks up is the one that matches. -/
theorem find?_holds_eq_some_iff {c : Byte} {r : OpcodeRow} :
    opcodeRows.find? (·.holds c) = some r ↔ r ∈ opcodeRows ∧ r.holds c = true := by
  have found {q : OpcodeRow} (h : opcodeRows.find? (·.holds c) = some q) : q ∈ opcodeRows ∧ q.holds c = true :=
    ⟨List.mem_of_find?_eq_some h, by simpa using List.find?_some h⟩
  refine ⟨found, fun ⟨hr, hrc⟩ => ?_⟩
  have hsome : (opcodeRows.find? (·.holds c)).isSome := List.find?_isSome.2 ⟨r, hr, by simpa using hrc⟩
  obtain ⟨q, hfind⟩ := Option.isSome_iff_exists.1 hsome
  obtain ⟨hq, hqc⟩ := found hfind
  rw [hfind, opcodeRow_unique hq hr hqc hrc]

/-- The decoder answers a command exactly when a row that builds it matches (R95). -/
theorem decode_eq_ok_iff_row {c : Byte} {i : Instr} :
    decode c = .ok i ↔ ∃ r ∈ opcodeRows, r.holds c = true ∧ r.build c = i := by
  have hfind : decode c = .ok i ↔ ∃ r, opcodeRows.find? (·.holds c) = some r ∧ r.build c = i := by
    unfold decode
    cases opcodeRows.find? (·.holds c) with
    | none => simp
    | some r => simp
  simp only [hfind, find?_holds_eq_some_iff, and_assoc]

/-- The code of each command matches the row that builds the command. -/
theorem encode_fits (i : Instr) : Laws.EncodeFits.Statement i := by
  cases i with
  | writeBit h v => exact Laws.EncodeFits.writeBit h v
  | readBit => exact Laws.EncodeFits.readBit
  | reset => exact Laws.EncodeFits.reset
  | writeByte p => exact Laws.EncodeFits.writeByte p
  | readByte => exact Laws.EncodeFits.readByte
  | writeBytes => exact Laws.EncodeFits.writeBytes
  | readBytes => exact Laws.EncodeFits.readBytes
  | releasePullup => exact Laws.EncodeFits.releasePullup
  | romSingle => exact Laws.EncodeFits.romSingle
  | romMatch => exact Laws.EncodeFits.romMatch
  | romSkip => exact Laws.EncodeFits.romSkip
  | odMatch => exact Laws.EncodeFits.odMatch
  | odSkip => exact Laws.EncodeFits.odSkip
  | crc8Check => exact Laws.EncodeFits.crc8Check
  | crc8Rom => exact Laws.EncodeFits.crc8Rom
  | discover s a => exact Laws.EncodeFits.discover s a

@[simp] theorem decode_encode (i : Instr) : decode (encode i) = .ok i := decode_eq_ok_iff_row.2 (encode_fits i)

@[simp] theorem decodeTableWord_encode (i : Instr) : decodeTableWord 8 (encode i).toNat = some i := by
  simp [decodeTableWord, (encode i).isLt]

/-- A byte is the bits its row fixes and the flag field the row leaves free. -/
theorem eq_pattern_or_flags {r : OpcodeRow} {c : Byte} (h : r.holds c = true) : r.pattern ||| (c &&& ~~~r.mask) = c := by
  have h' : c &&& r.mask = r.pattern := beq_iff_eq.1 h
  rw [← h', ← BitVec.and_or_distrib_left, BitVec.or_not_self, BitVec.and_allOnes]

/-- A flag field is its own bit of the command byte (R91). -/
theorem flagAt_getLsbD (k : Nat) (c : Byte) : flagAt k (c.getLsbD k) = c &&& 1#8 <<< k := (BitVec.and_twoPow c k).symm

/-- The encoder puts a row's pattern and its flag field back together. -/
theorem encode_build {r : OpcodeRow} {c : Byte} (hr : r ∈ opcodeRows) :
    encode (r.build c) = r.pattern ||| (c &&& ~~~r.mask) := by
  have hall : ∀ r ∈ opcodeRows, encode (r.build c) = r.pattern ||| (c &&& ~~~r.mask) := by
    simp [opcodeRows, encode, -BitVec.getLsbD_eq_getElem, flagAt_getLsbD, BitVec.or_assoc, ← BitVec.and_or_distrib_left]
  exact hall r hr

theorem encode_build_of_holds {r : OpcodeRow} {c : Byte} (hr : r ∈ opcodeRows) (h : r.holds c = true) :
    encode (r.build c) = c := by
  rw [encode_build hr, eq_pattern_or_flags h]

/-- The decoder and the encoder are inverse (R91, R96). -/
theorem decode_eq_ok_iff_encode {c : Byte} {i : Instr} : decode c = .ok i ↔ encode i = c := by
  constructor
  · intro h
    obtain ⟨r, hr, hrc, rfl⟩ := decode_eq_ok_iff_row.1 h
    exact encode_build_of_holds hr hrc
  · rintro rfl
    exact decode_encode i

theorem encode_injective : Function.Injective encode := fun i _ h =>
  Except.ok.inj ((decode_encode i).symm.trans (decode_eq_ok_iff_encode.2 h.symm))

/-- Settles O1: each command's code matches the row that builds it, and the row's pattern and flag field make up the whole byte. -/
theorem decodeEncodeAgree : Obligations.DecodeEncodeAgree :=
  ⟨fun i _ => ⟨decode_encode i, decodeTableWord_encode i⟩, fun _ _ => decode_eq_ok_iff_encode.1⟩

/-! The commands, each once, and the count of the bytes that encode them. -/

/-- Every command, the rows with flag fields once for each value of the flags. -/
def allCommands : List Instr :=
  [.writeBit false false, .writeBit false true, .writeBit true false, .writeBit true true, .readBit, .reset,
    .writeByte false, .writeByte true, .readByte, .writeBytes, .readBytes, .releasePullup, .romSingle, .romMatch, .romSkip,
    .odMatch, .odSkip, .crc8Check, .crc8Rom,
    .discover false false, .discover false true, .discover true false, .discover true true]

theorem allCommands_nodup : allCommands.Nodup := by decide

theorem mem_allCommands (i : Instr) : i ∈ allCommands := by
  cases i with
  | writeBit h v => cases h <;> cases v <;> decide
  | writeByte p => cases p <;> decide
  | discover s a => cases s <;> cases a <;> decide
  | _ => decide

/-- A fact about every command can be looked up command by command. -/
theorem forall_command {P : Instr → Prop} (h : ∀ i ∈ allCommands, P i) (i : Instr) : P i := h i (mem_allCommands i)

/-- The byte `c` decodes to a command that `p` holds of. -/
def decodesTo (p : Instr → Bool) (c : Nat) : Bool :=
  match decode (BitVec.ofNat 8 c) with
  | .ok i => p i
  | .error _ => false

theorem decodesTo_iff {p : Instr → Bool} {c : Nat} :
    decodesTo p c = true ↔ ∃ i, p i = true ∧ encode i = BitVec.ofNat 8 c := by
  simp only [← decode_eq_ok_iff_encode, decodesTo]
  cases decode (BitVec.ofNat 8 c) with
  | ok i => simp
  | error r => simp

/-- As many bytes decode to a command with `p` as there are commands with `p`: their codes are those bytes, each once. -/
theorem countP_decodesTo (p : Instr → Bool) : (List.range 256).countP (decodesTo p) = allCommands.countP p := by
  have hinj : Function.Injective (fun i => (encode i).toNat) := fun i j h => encode_injective (BitVec.eq_of_toNat_eq h)
  have hperm : ((List.range 256).filter (decodesTo p)).Perm ((allCommands.filter p).map (fun i => (encode i).toNat)) := by
    refine (List.perm_ext_iff_of_nodup (List.nodup_range.filter _) ((allCommands_nodup.filter _).map hinj)).2 fun c => ?_
    simp only [List.mem_filter, List.mem_range, decodesTo_iff, List.mem_map]
    constructor
    · rintro ⟨hc, i, hp, hi⟩
      exact ⟨i, ⟨mem_allCommands i, hp⟩, by rw [hi, BitVec.toNat_ofNat, Nat.mod_eq_of_lt hc]⟩
    · rintro ⟨i, ⟨-, hp⟩, rfl⟩
      exact ⟨(encode i).isLt, i, hp, ((BitVec.ofNat_toNat 8 _).trans (BitVec.setWidth_eq _)).symm⟩
  rw [List.countP_eq_length_filter, hperm.length_eq, List.length_map, ← List.countP_eq_length_filter]

/-- The bytes that decode to no command are the rest of the 256. -/
theorem countP_decode_error : (List.range 256).countP (fun c => !decodesTo (fun _ => true) c) = 233 := by
  have htotal := List.length_eq_countP_add_countP (decodesTo fun _ => true) (l := List.range 256)
  have hok : (List.range 256).countP (decodesTo fun _ => true) = 23 := (countP_decodesTo _).trans (by decide)
  simp only [hok, List.length_range, decide_not, Bool.decide_eq_true] at htotal
  omega

/-- Settles O3: each code of the table is the code `encode` gives its command; the bytes are counted by the commands they encode. -/
theorem opcodeMapDecodes : Obligations.OpcodeMapDecodes := by
  refine ⟨fun h v => ?writeBit, decode_encode .readBit, decode_encode .reset, fun p => ?writeByte, decode_encode .readByte,
    decode_encode .writeBytes, decode_encode .readBytes, decode_encode .releasePullup, decode_encode .romSingle,
    decode_encode .romMatch, decode_encode .romSkip, decode_encode .odMatch, decode_encode .odSkip, decode_encode .crc8Check,
    decode_encode .crc8Rom, fun s a => ?discover, ?accepted, ?reserved, ?none⟩
  case writeBit => exact decode_eq_ok_iff_encode.2 (by cases h <;> cases v <;> rfl)
  case writeByte => exact decode_eq_ok_iff_encode.2 (by cases p <;> rfl)
  case discover => exact decode_eq_ok_iff_encode.2 (by cases s <;> cases a <;> rfl)
  case accepted => exact (countP_decodesTo fun i => !reserved i).trans (by decide)
  case reserved => exact (countP_decodesTo reserved).trans (by decide)
  case none =>
    rw [← countP_decode_error]
    refine List.countP_congr fun c _ => ?_
    unfold decodesTo
    cases decode (BitVec.ofNat 8 c) with
    | ok i => simp
    | error r => simp

/-- Settles O5: a byte that decodes to nothing is refused with code 1; a byte that matches a row is the code of a command, and none of
the 23 codes is in a group that R97 names. -/
theorem unmatchedByteRefused : Obligations.UnmatchedByteRefused := by
  refine ⟨fun s v rest hin hrows => ?refused, fun v hnamed r hr => ?named⟩
  case refused => rw [step_writeCmd hin, runCommand_of_decode_error (decode_of_no_row hrows)]
  case named =>
    by_contra hmatch
    have hcode : encode (r.build v) = v := encode_build_of_holds hr (Bool.not_eq_false _ ▸ hmatch)
    rw [← hcode] at hnamed
    generalize r.build v = i at hnamed
    revert i
    refine forall_command ?_
    decide

end Sys2Proof.Machine
end

section
/-! The two commands of the Bit Transport, each an accepted bus command followed by one slot (R120 to R123, R285). -/

namespace Sys2Proof.Machine

/-- R121: `WRITE_BIT` is accepted as a bus command and runs one write slot. -/
theorem exec_writeBit (h v : Bool) (s : State) : exec (.writeBit h v) s = .next (writeBit v h (acceptBus s)) := rfl

/-- R123: `READ_BIT` is accepted as a bus command, runs one read slot and puts the sampled level in `RESULT`. -/
theorem exec_readBit (s : State) : exec .readBit s =
    .next { (readBit (acceptBus s)).2 with result := zextBit (readBit (acceptBus s)).1 } := rfl

/-- The level a bus command samples first is the answer of its line: free in a pull-up hold or with the mark (R34, R285). -/
theorem pinLevel_acceptBus (k : SampleKind) (s : State) : pinLevel k (acceptBus s) = (lineEnv s).answer k s.pinReads := rfl

/-- Settles O10: acceptance sets the mark and the line of R285, and the slot does the rest (`writeBit_eq`). -/
theorem writeBitEffect : Obligations.WriteBitEffect := by
  intro h v s
  rw [exec_writeBit, writeBit_eq, writeSlot, ← List.append_assoc]
  rfl

/-- Settles O11: the level is the one the line answers after acceptance, and the slot does the rest (`readBit_eq`). -/
theorem readBitEffect : Obligations.ReadBitEffect := by
  intro s
  refine ⟨(lineEnv s).answer .slot s.pinReads, rfl, ?_⟩
  rw [exec_readBit, readBit_eq, pinLevel_acceptBus, zextBit_eq]
  rfl

end Sys2Proof.Machine
end

section
/-! `RESET`: acceptance, the idle wait and the pulse, in any environment and on a script (R140, R141, R242). -/

namespace Sys2Proof.Machine

/-- R141: `RESET` is accepted as a bus command and puts the presence flag in `RESULT`. -/
theorem exec_reset (s : State) : exec .reset s = .next { (resetAndPresenceDetect (acceptBus s)).2 with
    result := zextBit (resetAndPresenceDetect (acceptBus s)).1 } := rfl

/-- The presence flag is the inverse of the presence sample (R140). -/
theorem zextBit_not (p : Level) : zextBit (!p) = if p then 0x00 else 0x01 := by revert p; decide

/-- Settles O12: a bus reset has two outcomes (`resetAndPresenceDetect_spec`); the command adds acceptance and `RESULT`. -/
theorem resetOutcomes : Obligations.ResetOutcomes := by
  intro s
  obtain ⟨es, ok, o, c, e, k, houtcome, heq⟩ := resetAndPresenceDetect_spec (acceptBus s)
  rw [exec_reset, heq]
  refine ⟨_, rfl, rfl, ?_⟩
  rcases houtcome with ⟨rfl, rfl, rfl, rfl, -⟩ | ⟨j, p, hj, rfl, rfl, rfl, rfl, -⟩
  · exact .inr ⟨rfl, rfl, rfl, rfl⟩
  · exact .inl ⟨j, p, hj, zextBit_not p, rfl, rfl, rfl⟩

/-- R140 on a script whose line goes high at sample `j + 1`: the wait ends there, and the next answer is the presence sample. -/
theorem resetAndPresenceDetect_script {s : State} {j : Nat} {p d : Level} {ls : List Level}
    (henv : s.env = .script (List.replicate j false ++ true :: p :: ls) d) (hj : j < s.cfg.retry.toNat) :
    resetAndPresenceDetect s = (!p, { s with
      mode := .floating, out := false, crit := false, env := .script ls d, pinReads := s.pinReads + j + 2,
      trace := s.trace ++ resetEvents s.cfg j p }) := by
  have hpoll := pollIdle_script s.cfg.retry.toNat j (p :: ls) d (setFloating s) henv hj
  simp only [resetAndPresenceDetect, setFloating_cfg, hpoll, if_true, resetPulse_eq]
  simp [resetEvents, pinLevel, Env.answer, Env.afterRead]

/-- R140 on a script that is low for `RETRY` samples: nothing but the wait happens. -/
theorem resetAndPresenceDetect_script_low {s : State} {d : Level} {ls : List Level}
    (henv : s.env = .script (List.replicate s.cfg.retry.toNat false ++ ls) d) :
    resetAndPresenceDetect s = (false, { s with
      mode := .floating, env := .script ls d, pinReads := s.pinReads + s.cfg.retry.toNat,
      trace := s.trace ++ deadResetEvents s.cfg }) := by
  have hpoll := pollIdle_script_low s.cfg.retry.toNat ls d (setFloating s) henv
  simp only [resetAndPresenceDetect, setFloating_cfg, hpoll]
  simp [deadResetEvents]

/-- Where the line is defined, a bus command is answered by the environment of the state it starts in (Log 8). -/
theorem acceptBus_env_of_lineDefined {s : State} {e : Env} (hline : s.lineDefined) (henv : s.env = e) :
    (acceptBus s).env = e := (lineEnv_defined hline).trans henv

/-- Settles O13: where the line is defined the script answers, and each of the two kinds of script fixes the whole reset. -/
theorem resetOnScript : Obligations.ResetOnScript := by
  refine ⟨fun s j p d ls hline hj henv => ?_, fun s d ls hline henv => ?_⟩
  · rw [exec_reset, resetAndPresenceDetect_script (acceptBus_env_of_lineDefined hline henv) hj, zextBit_not]
    rfl
  · have hreset := resetAndPresenceDetect_script_low (s := acceptBus s) (acceptBus_env_of_lineDefined hline henv)
    rw [exec_reset, hreset]
    rfl

end Sys2Proof.Machine
end

section
/-! `WRITE_BYTE` with and without pull-up, and `RELEASE_PULLUP` (R142 to R144, R151, R152). -/

namespace Sys2Proof.Machine

/-- R143: `WRITE_BYTE` is accepted as a bus command and sends `ARG`. -/
theorem exec_writeByte (p : Bool) (s : State) : exec (.writeByte p) s = .next (writeByte s.arg p (acceptBus s)) := rfl

/-- Settles O14: acceptance, then eight slots that hold nothing (`writeByte_eq`). -/
theorem writeByteEffect : Obligations.WriteByteEffect := by
  intro s
  rw [exec_writeByte, writeByte_eq]
  rfl

/-- Seven slots that hold nothing and an eighth that holds are the eight slots of which only the last holds (R142). -/
theorem writeSlots_last_holds (c : Config) (x : Byte) :
    ((wireBits x).take 7).flatMap (fun v => writeSlot c v false) ++ writeSlot c (x.getLsbD 7) true =
      (List.range 8).flatMap (fun i => writeSlot c (x.getLsbD i) (i == 7)) := by
  simp [wireBits, List.range_succ]

/-- Settles O15: acceptance, then seven plain slots, a holding one and the pull-up (`writeByte_hold_eq`). -/
theorem writeBytePullupEffect : Obligations.WriteBytePullupEffect := by
  intro s
  have hpu : (s.cfg.apu || s.pu) = if s.cfg.apu then true else s.pu := by cases s.cfg.apu <;> rfl
  rw [exec_writeByte, writeByte_hold_eq, writeSlots_last_holds, ← List.append_assoc]
  simp only [acceptBus_cfg, acceptBus_pu, hpu]
  rfl

/-- R152: `RELEASE_PULLUP` is accepted without a look at the mark of R285. -/
theorem exec_releasePullup (s : State) : exec .releasePullup s = .next (releaseActivePullup (accept s)) := rfl

/-- Settles O21: the operation is unconditional (`releaseActivePullup_eq`); where only `APU` can raise `PU`, `PU` is 0 after it. -/
theorem releasePullupEffect : Obligations.ReleasePullupEffect := by
  intro s
  have hpu : (!s.cfg.apu && s.pu) = if s.cfg.apu then false else s.pu := by cases s.cfg.apu <;> rfl
  rw [exec_releasePullup, releaseActivePullup_eq, ← List.append_assoc]
  simp only [accept_cfg, accept_pu, hpu]
  refine ⟨rfl, fun hapu => ⟨_, rfl, rfl, rfl, ?_⟩⟩
  by_cases ha : s.cfg.apu = true
  · exact if_pos ha
  · exact (if_neg ha).trans (Bool.eq_false_iff.2 (ha ∘ hapu))

end Sys2Proof.Machine
end

section
/-! `READ_BYTE` in any environment, on a script and on the loopback bus (R145, R146, 95_test_vectors S1). -/

namespace Sys2Proof.Machine

/-- R146: `READ_BYTE` is accepted as a bus command and puts the byte in `RESULT`. -/
theorem exec_readByte (s : State) : exec .readByte s =
    .next { (readByte (acceptBus s)).2 with result := (readByte (acceptBus s)).1 } := rfl

/-- A byte is the sum of the weights of its wire bits (R67). -/
theorem sum_wireBits (x : Byte) :
    BitVec.ofNat 8 ((List.range 8).map (fun i => if (wireBits x).getD i false then 2 ^ i else 0)).sum = x := by
  revert x; decide

theorem byteOfWire_eq_sum {ls : List Level} (h : ls.length = 8) :
    byteOfWire ls = BitVec.ofNat 8 ((List.range 8).map (fun i => if ls.getD i false then 2 ^ i else 0)).sum := by
  have hsum := sum_wireBits (byteOfWire ls)
  rw [wireBits_byteOfWire h] at hsum
  exact hsum.symm

/-- Settles O16: a byte read takes eight answers, whatever they are, and spells its byte of them (`readByte_spec`). -/
theorem readByteEffect : Obligations.ReadByteEffect := by
  intro s
  obtain ⟨ls, e, k, hlen, heq⟩ := readByte_spec (acceptBus s)
  have hk : k = s.pinReads + 8 := by simpa [heq] using readByte_pinReads (acceptBus s)
  subst hk
  refine ⟨ls, e, hlen, ?_⟩
  rw [exec_readByte, heq, byteOfWire_eq_sum hlen]
  rfl

/-- Putting the wire bits of a byte in their places gives the byte back (R67, R145). -/
theorem foldl_setBitOf_wireBits (x : Byte) :
    ([0, 1, 2, 3, 4, 5, 6, 7].zip (wireBits x)).foldl (fun y q => setBitOf y q.1 q.2) 0x00 = x := by
  rw [foldl_setBitOf _ (wireBits_length x), byteOfWire_wireBits]

theorem readByte_script {s : State} {x : Byte} {ls : List Level} {d : Level} (henv : s.env = .script (wireBits x ++ ls) d) :
    (readByte s).1 = x ∧ (readByte s).2.env = .script ls d := by
  have h := readBitsInto_script [0, 1, 2, 3, 4, 5, 6, 7] 0x00 (wireBits x) ls d s henv rfl
  rwa [foldl_setBitOf_wireBits] at h

theorem readByte_loopback {s : State} {x : Byte} (henv : s.env = .loopback (wireBits x)) :
    (readByte s).1 = x ∧ (readByte s).2.env = .loopback [] := by
  have h := readBitsInto_loopback [0, 1, 2, 3, 4, 5, 6, 7] 0x00 (wireBits x) s henv rfl
  rwa [foldl_setBitOf_wireBits] at h

/-- Settles O17: where the line is defined the script answers, and `readByte` reads the byte it spells. -/
theorem readByteOnScript : Obligations.ReadByteOnScript := by
  intro s x ls d hline henv
  exact ⟨_, exec_readByte s, readByte_script (acceptBus_env_of_lineDefined hline henv)⟩

/-- The loopback bus queues the bits written to it (95_test_vectors section 2). -/
theorem afterWrites_loopback (bs vs : List Level) : (Env.loopback bs).afterWrites vs = .loopback (bs ++ vs) := by
  induction vs generalizing bs with
  | nil => simp [Env.afterWrites]
  | cons v vs ih => simpa [Env.afterWrites, Env.afterWrite] using ih (bs ++ [v])

/-- A byte written without pull-up, on a line that was defined, leaves the line defined: the pin floats and `PU` is as it was. -/
theorem writeByte_lineDefined {s : State} (x : Byte) (hline : s.lineDefined) : (writeByte x false (acceptBus s)).lineDefined := by
  obtain ⟨hmark, hheld⟩ := hline
  have hpu : s.pu = false := (Bool.or_eq_false_iff.1 hheld).1
  rw [writeByte_eq]
  exact ⟨Bool.or_eq_false_iff.2 ⟨hmark, hheld⟩, Bool.or_eq_false_iff.2 ⟨hpu, rfl⟩⟩

/-- Settles O18: the write leaves the bits of `ARG` in the queue and the line defined, and the read takes them out again. -/
theorem loopbackRoundTrip : Obligations.LoopbackRoundTrip := by
  intro s hline henv
  have hqueue : (writeByte s.arg false (acceptBus s)).env = .loopback (wireBits s.arg) := by
    rw [writeByte_eq]
    exact (congrArg _ (acceptBus_env_of_lineDefined hline henv)).trans (afterWrites_loopback [] _)
  have hread := acceptBus_env_of_lineDefined (writeByte_lineDefined s.arg hline) hqueue
  exact ⟨_, _, exec_writeByte false s, exec_readByte _, readByte_loopback hread⟩

end Sys2Proof.Machine
end

section
/-! `WRITE_BYTES` and `READ_BYTES` in range (R71, R147 to R150). -/

namespace Sys2Proof.Machine

/-- R71: a range that stays within the buffer is not refused. -/
theorem not_outOfBuffer_of_le {s : State} (h : s.ptr.toNat + s.arg.toNat ≤ 128) : ¬ outOfBuffer s = true := by
  rw [outOfBuffer_iff]
  omega

theorem exec_writeBytes_of_le {s : State} (h : s.ptr.toNat + s.arg.toNat ≤ 128) :
    exec .writeBytes s = .next (sendRun (0x80 + s.ptr.toNat) s.arg.toNat (acceptBuffer s)) :=
  congrArg Host.Outcome.next (if_neg (not_outOfBuffer_of_le h))

theorem exec_readBytes_of_le {s : State} (h : s.ptr.toNat + s.arg.toNat ≤ 128) :
    exec .readBytes s = .next (readBytes s.ptr.toNat s.arg.toNat (acceptBuffer s)) :=
  congrArg Host.Outcome.next (if_neg (not_outOfBuffer_of_le h))

theorem toNat_arg_eq_zero_iff {s : State} : s.arg.toNat = 0 ↔ s.arg = 0 := (BitVec.toNat_eq (x := s.arg) (y := 0)).symm

/-- R285: a buffer command of length 0 is accepted without a look at the mark. -/
theorem acceptBuffer_of_arg_eq_zero {s : State} (h : s.arg = 0) : acceptBuffer s = accept s :=
  if_pos (toNat_arg_eq_zero_iff.2 h)

theorem acceptBuffer_of_arg_ne_zero {s : State} (h : s.arg ≠ 0) : acceptBuffer s = acceptBus s :=
  if_neg (h ∘ toNat_arg_eq_zero_iff.1)

theorem peeks_flatMap {α : Type} (a n : Nat) (s : State) (f : Byte → List α) :
    (peeks a n s).flatMap f = (List.range n).flatMap (fun j => f (peek (a + j) s)) := List.flatMap_map ..

/-- Settles O19: of length 0 nothing is sent; else the bytes go out as `sendRun_eq` says, and acceptance has not touched them. -/
theorem writeBytesEffect : Obligations.WriteBytesEffect := by
  intro s hrange
  rw [exec_writeBytes_of_le hrange]
  refine ⟨fun hzero => ?_, fun hne => ?_⟩
  · rw [acceptBuffer_of_arg_eq_zero hzero, toNat_arg_eq_zero_iff.2 hzero]
    rfl
  · refine ⟨(lineEnv s).afterWrites ((peeks (0x80 + s.ptr.toNat) s.arg.toNat s).flatMap wireBits), ?_⟩
    rw [acceptBuffer_of_arg_ne_zero hne, sendRun_eq, if_neg (hne ∘ toNat_arg_eq_zero_iff.1),
      peeks_flatMap _ _ _ (writeByteEvents _)]
    rfl

/-- What a byte of memory reads as rests on what is listed at its own address. -/
theorem peek_of_lookup {s t : State} {a : Nat} (hrom : t.rom = s.rom) (hmem : t.mem.lookup a = s.mem.lookup a) :
    peek a t = peek a s := by
  simp [peek, hrom, hmem]

theorem unwritten_of_lookup {s t : State} {a : Nat} (hrom : t.romWritten = s.romWritten)
    (hmem : t.mem.lookup a = s.mem.lookup a) : unwritten a t = unwritten a s := by
  simp [unwritten, hrom, hmem]

/-- A listed byte of `BUF` reads as it is listed, and has been written (R28, R61). -/
theorem listed_buf {s : State} {a : Nat} {x : Byte} (ha : 0x80 ≤ a) (hmem : s.mem.lookup a = some x) :
    peek a s = x ∧ unwritten a s = false := by
  have hrom : isRom a = false := isRom_eq_false_of_ge (by omega)
  simp [peek, unwritten, hrom, hmem]

/-- `storeRun` lists its `j`-th byte at `BUF[p + j]`. -/
theorem storeRun_lookup_getElem (p : Nat) (xs : List Byte) (m : Memory) (j : Nat) (h : j < xs.length) :
    (storeRun p xs m).lookup (0x80 + p + j) = some xs[j] := by
  have hpos : 0x80 + p + j - bufAddr p = j := Nat.add_sub_cancel_left ..
  rw [storeRun_lookup, if_pos (by simp only [bufAddr]; omega), hpos, List.getElem?_eq_getElem h]

theorem storeRun_lookup_outside (p : Nat) (xs : List Byte) (m : Memory) {a : Nat}
    (h : a < 0x80 + p ∨ 0x80 + p + xs.length ≤ a) : (storeRun p xs m).lookup a = m.lookup a := by
  rw [storeRun_lookup, if_neg (by simp only [bufAddr]; omega)]

/-- Settles O20: of length 0 nothing is read; else the memory is that of `storeRun` (`readBytes_spec`), read address by address. -/
theorem readBytesEffect : Obligations.ReadBytesEffect := by
  intro s hrange
  rw [exec_readBytes_of_le hrange]
  refine ⟨fun hzero => ?_, fun hne => ?_⟩
  · rw [acceptBuffer_of_arg_eq_zero hzero, toNat_arg_eq_zero_iff.2 hzero]
    rfl
  · obtain ⟨lss, o, c, m, e, k, hlen, hls, hpins, -, heq⟩ := readBytes_spec s.ptr.toNat s.arg.toNat (acceptBus s)
    obtain ⟨rfl, rfl, rfl⟩ := hpins (hne ∘ toNat_arg_eq_zero_iff.1)
    rw [acceptBuffer_of_arg_ne_zero hne, heq]
    refine ⟨_, lss, rfl, hlen, hls, rfl, fun j hj => ?_, fun a ha => ?_⟩
    · have hmem := storeRun_lookup_getElem s.ptr.toNat (lss.map byteOfWire) s.mem j (by simpa using hj)
      exact listed_buf (by omega) (hmem.trans (congrArg some (List.getElem_map ..)))
    · have hmem := storeRun_lookup_outside s.ptr.toNat (lss.map byteOfWire) s.mem (a := a) (by simpa [hlen] using ha)
      exact ⟨peek_of_lookup rfl hmem, unwritten_of_lookup rfl hmem⟩

end Sys2Proof.Machine
end

section
/-! The ROM Command Issuer: a bus reset whose result is ignored, then the command byte (R170 to R177). -/

namespace Sys2Proof.Machine

/-- R171: `ROM_SINGLE` is accepted as a bus command and sends 0x33. -/
theorem exec_romSingle (s : State) : exec .romSingle s = .next (romCommand 0x33 (acceptBus s)) := rfl

/-- R172: `ROM_MATCH` is accepted as a bus command and sends 0x55, then the eight bytes of `ROM`. -/
theorem exec_romMatch (s : State) : exec .romMatch s = .next (sendRun 0x08 8 (romCommand 0x55 (acceptBus s))) := rfl

/-- R173: `ROM_SKIP` is accepted as a bus command and sends 0xCC. -/
theorem exec_romSkip (s : State) : exec .romSkip s = .next (romCommand 0xCC (acceptBus s)) := rfl

/-- Everything a ROM command does up to its command byte (R170): the reset moves the pins, the environment and the trace only, and
the eight slots after it put the pins in one place whatever its result was. -/
theorem romCommand_spec (x : Byte) (s : State) :
    ∃ (es : List PortEvent) (ok : Bool) (e : Env) (k : Nat), isReset s.cfg es ok ∧ romCommand x s = { s with
      mode := .floating, out := true, crit := false, env := e, pinReads := k,
      trace := s.trace ++ es ++ writeByteEvents s.cfg x } := by
  obtain ⟨es, hreset, htrace⟩ := reset_isReset s
  have hframe := reset_frame s
  refine ⟨es, _, (resetAndPresenceDetect s).2.env.afterWrites (wireBits x), (resetAndPresenceDetect s).2.pinReads, hreset, ?_⟩
  rw [romCommand, writeByte_eq, hframe.cfg, htrace, hframe.eq, reset_enum]

/-- R172: the eight bytes of `ROM` go out in order, and each that the host never wrote is marked (U6). -/
theorem sendRun_rom_eq (s : State) : sendRun 0x08 8 s = { s with
    mode := .floating, out := true, crit := false, env := s.env.afterWrites (s.rom.toList.flatMap wireBits),
    unwrittenRead := s.unwrittenRead || s.romWritten.toList.any (!·),
    trace := s.trace ++ s.rom.toList.flatMap (writeByteEvents s.cfg) } := by
  rw [sendRun_eq, if_neg (by decide), peeks_romBytes, anyUnwritten_romBytes]

/-- Settles O22: acceptance does what R95 and R285 say, and `romCommand_spec` is the rest for either byte. -/
theorem romSingleAndSkipSend : Obligations.RomSingleAndSkipSend := by
  intro s i x hcommand
  obtain ⟨es, ok, e, k, hreset, hsent⟩ := romCommand_spec x (acceptBus s)
  refine ⟨es, ok, e, k, hreset, ?_⟩
  rcases hcommand with ⟨rfl, rfl⟩ | ⟨rfl, rfl⟩
  case inl => rw [exec_romSingle, hsent]; rfl
  case inr => rw [exec_romSkip, hsent]; rfl

/-- Settles O23: the identifier follows the command byte (`sendRun_rom_eq`), and neither acceptance nor the reset has touched `ROM`. -/
theorem romMatchSends : Obligations.RomMatchSends := by
  intro s
  obtain ⟨es, ok, e, k, hreset, hsent⟩ := romCommand_spec 0x55 (acceptBus s)
  refine ⟨es, ok, e.afterWrites (s.rom.toList.flatMap wireBits), k, hreset, ?_⟩
  rw [exec_romMatch, hsent, sendRun_rom_eq]
  rfl

/-- Settles O24: the block always refuses an overdrive command, and a refused command does nothing else (`exec_refused`). -/
theorem overdriveRefused : Obligations.OverdriveRefused := fun s =>
  ⟨exec_refused .odSkip s codeOverdrive rfl, exec_refused .odMatch s codeOverdrive rfl⟩

end Sys2Proof.Machine
end

section
/-! The CRC-8 Validator: validation is equality of checksums, and a check reads its bytes, writes its verdict to `RESULT` and leaves
the rest (R185 to R192). -/

namespace Sys2Proof.Machine

/-! ### The checksum -/

theorem crc8Valid_iff_crcStep (d : List Byte) (e : Byte) : crc8Valid d e = true ↔ crcStep (crc8 d) e = 0 := beq_iff_eq

/-- R187: the source's fold to zero is equality with the checksum. -/
theorem crc8Valid_iff (d : List Byte) (e : Byte) : crc8Valid d e = true ↔ crc8 d = e :=
  (crc8Valid_iff_crcStep d e).trans crcStep_eq_zero

/-- Data and a byte after it fold to zero exactly when that byte is the checksum of the data (R187, R191). -/
theorem crc8_concat_eq_zero_iff (d : List Byte) (e : Byte) : crc8 (d ++ [e]) = 0 ↔ crc8 d = e := by
  rw [crc8_append]
  exact crcStep_eq_zero

theorem crc8_replicate_zero (n : Nat) : crc8 (List.replicate n 0x00) = 0x00 := by
  induction n with
  | zero => rfl
  | succ n ih =>
    rw [List.replicate_succ']
    exact (crc8_concat_eq_zero_iff _ 0).2 ih

/-- Different bytes in one place give different checksums: `crcStep` tells them apart, and the bytes after that place keep the two
apart. -/
theorem crc8_set_injective {d : List Byte} {j : Nat} (hj : j < d.length) : Function.Injective (fun x => crc8 (d.set j x)) := by
  intro x y h
  simp only [List.set_eq_take_append_cons_drop, if_pos hj, crc8_append, List.foldl_cons] at h
  exact crcStep_right_injective _ (foldl_crcStep_injective _ h)

theorem oneHot_ne_zero {k : Nat} (hk : k < 8) : 1#8 <<< k ≠ 0 := by
  interval_cases k <;> decide

/-- Settles O25: the first form is the definition, and `crcStep` is zero only on equal bytes (`crcStep_eq_zero`). -/
theorem crcValidIffEqual : Obligations.CrcValidIffEqual := fun d e => ⟨crc8Valid_iff_crcStep d e, crc8Valid_iff d e⟩

/-- Settles O26: were the changed sequence's checksum 0 too, the changed byte would be the old one (`crc8_set_injective`), but an
inverted bit changes its byte. -/
theorem crcDetectsSingleBitErrors : Obligations.CrcDetectsSingleBitErrors := by
  refine ⟨fun d => (crc8_concat_eq_zero_iff d _).2 rfl, fun d j k hj hvalid hk herror => ?_⟩
  have hsame : crc8 (d.set j (d[j] ^^^ (1#8 <<< k))) = crc8 (d.set j d[j]) := by
    rw [herror, List.set_getElem_self, hvalid]
  have hbyte : d[j] ^^^ (1#8 <<< k) = d[j] := crc8_set_injective hj hsame
  exact oneHot_ne_zero hk (xor_left_eq_self_iff.1 hbyte)

/-- Settles O27: a zero byte keeps the checksum 0, and the identifier is valid because its eight bytes fold to 0 (`idValid_iff`). -/
theorem crcOfZeros : Obligations.CrcOfZeros :=
  ⟨crc8_replicate_zero, (idValid_iff zeroId).2 (crc8_replicate_zero 8)⟩

/-! ### The two commands -/

theorem peeks_last (a n : Nat) (s : State) : peeks a (n + 1) s = peeks a n s ++ [peek (a + n) s] := by
  simp [peeks, List.range_succ]

theorem zextBit_crc8Valid (d : List Byte) (e : Byte) : zextBit (crc8Valid d e) = if crc8 d = e then 0x01 else 0x00 := by
  simp only [zextBit_eq, crc8Valid_iff]

/-- Everything a check of `n` data bytes from `a` and the checksum after them does (R188, R189). -/
theorem checkRun_eq (a n : Nat) (s : State) :
    { touch (a + n) (readRun a n s).2 with
      result := zextBit (crc8Valid (readRun a n s).1 (peek (a + n) (readRun a n s).2)) } = { s with
        result := if crc8 (peeks a n s) = peek (a + n) s then 0x01 else 0x00,
        unwrittenRead := s.unwrittenRead || anyUnwritten a (n + 1) s } := by
  rw [readRun_eq, zextBit_crc8Valid, anyUnwritten_last, ← Bool.or_assoc]
  rfl

/-- Settles O28: the command is not refused, and its effect after acceptance is `checkRun_eq` on `BUF[p..p+n]`. -/
theorem crc8CheckEffect : Obligations.Crc8CheckEffect := by
  intro s hrange
  have haccepted : refusalOf .crc8Check s = none := if_neg (mt outOfBufferCheck_iff.1 hrange.not_gt)
  refine ⟨_, _, rfl, rfl, ?_⟩
  rw [exec_eq_effect haccepted, effect, bufAddr, ← Nat.add_assoc]
  exact congrArg _ (checkRun_eq (0x80 + s.ptr.toNat) s.arg.toNat (accept s))

/-- Settles O29: the command is never refused; its effect is `checkRun_eq` on `ROM[0..7]`, whose last byte is the checksum of the
others exactly when all eight fold to 0. -/
theorem crc8RomEffect : Obligations.Crc8RomEffect := by
  intro s
  have hvalid : crc8 s.rom.toList = 0 ↔ crc8 (peeks 8 7 s) = peek 15 s := by
    rw [← peeks_romBytes, peeks_last]
    exact crc8_concat_eq_zero_iff _ _
  simp only [hvalid, ← anyUnwritten_romBytes]
  rw [exec_eq_effect (i := .crc8Rom) rfl]
  exact congrArg _ (checkRun_eq 8 7 (accept s))

end Sys2Proof.Machine
end

section
/-! The search step by step: the trace of its parts, and one equation for each pair that can be read (R203 to R208). -/

namespace Sys2Proof.Machine

theorem readPair_levels (s : State) : (readPair s).1 =
    (s.env.answer .slot s.pinReads, (s.env.afterRead .slot).answer .slot (s.pinReads + 1)) := by
  rw [readPair_eq]

theorem readPair_trace (s : State) :
    (readPair s).2.trace = s.trace ++ readSlot s.cfg (readPair s).1.1 ++ readSlot s.cfg (readPair s).1.2 := by
  rw [readPair_eq]

@[simp] theorem readPair_cfg (s : State) : (readPair s).2.cfg = s.cfg := (readPair_frame s).cfg

@[simp] theorem readPair_enum (s : State) : (readPair s).2.enum = s.enum := by rw [readPair_eq]

theorem readPair_env (s : State) : (readPair s).2.env = (s.env.afterRead .slot).afterRead .slot := by rw [readPair_eq]

theorem takeBranch_env (d : Nat) (v : Level) (s : State) : (takeBranch d v s).env = s.env.afterWrite v := by
  rw [takeBranch, writeBit_eq]
  rfl

theorem takeBranch_trace (d : Nat) (v : Level) (s : State) :
    (takeBranch d v s).trace = s.trace ++ writeSlot s.cfg v false := by
  rw [takeBranch, writeBit_eq]
  rfl

/-- A pair of slots that reads `p`, then the write slot of a branch (R203). -/
theorem takeBranch_readPair_trace (d : Nat) (v : Level) {p : Level × Level} {s : State} (h : (readPair s).1 = p) :
    (takeBranch d v (readPair s).2).trace =
      s.trace ++ readSlot s.cfg p.1 ++ readSlot s.cfg p.2 ++ writeSlot s.cfg v false := by
  rw [takeBranch_trace, readPair_trace, readPair_cfg, h]

@[simp] theorem takeBranch_cfg (d : Nat) (v : Level) (s : State) : (takeBranch d v s).cfg = s.cfg :=
  (takeBranch_frame d v s).cfg

theorem takeBranch_enum (d : Nat) (v : Level) (s : State) :
    (takeBranch d v s).enum = s.enum.map (fun e => { e with id := setIdBit e.id d v }) := by
  rw [takeBranch, writeBit_eq]
  rfl

theorem setDepth_enum {s : State} {e : Enumeration} (h : s.enum = some e) (d : Nat) :
    (setDepth d s).enum = some { e with depth := d } := by
  rw [setDepth, modEnum_enum, h, Option.map_some]

@[simp] theorem writeBit_enum (v h : Bool) (s : State) : (writeBit v h s).enum = s.enum := by rw [writeBit_eq]

theorem getbit_eq {s : State} {e : Enumeration} (h : s.enum = some e) (k : Nat) : getbit k s = idBit e.id k := by
  rw [getbit, enumOf, h, Option.getD_some]

theorem getbit_congr {s t : State} (h : t.enum = s.enum) (k : Nat) : getbit k t = getbit k s := by
  rw [getbit, enumOf, h]
  rfl

/-- At depth 64 only the terminal step is left: the frame of the call goes again (`search_eq_plain`). -/
theorem search_zero (s : State) : search 0 s = searchTerminal (setDepth 64 s) := by
  rw [search_eq_plain, searchPlain]

/-- A pair 1, 1 is a dead end (R205). -/
theorem search_succ_dead {n : Nat} {s : State} (h : (readPair (setDepth (63 - n) s)).1 = (true, true)) :
    search (n + 1) s = (readPair (setDepth (63 - n) s)).2 := by
  simp only [search_eq_plain, searchPlain, h]

/-- On a pair that agrees the search follows the bit it read (R206). -/
theorem search_succ_agree {n : Nat} {a : Level} {s : State} (h : (readPair (setDepth (63 - n) s)).1 = (a, !a)) :
    search (n + 1) s = search n (takeBranch (63 - n) a (readPair (setDepth (63 - n) s)).2) := by
  cases a <;> simp only [search_eq_plain, searchPlain, h, Bool.not_false, Bool.not_true]

/-- On a collision the 0 branch comes first (R207). -/
def zeroBranch (n : Nat) (s : State) : State := search n (takeBranch (63 - n) false (readPair (setDepth (63 - n) s)).2)

/-- After the 0 branch of a collision comes a bus reset and, if it succeeds, the 1 branch (R208 to R210). -/
theorem search_succ_collision {n : Nat} {s : State} (h : (readPair (setDepth (63 - n) s)).1 = (false, false)) :
    search (n + 1) s = if (resetAndPresenceDetect (zeroBranch n s)).1
      then search n (reenter (63 - n) (resetAndPresenceDetect (zeroBranch n s)).2)
      else (resetAndPresenceDetect (zeroBranch n s)).2 := by
  simp only [zeroBranch, search_eq_plain, searchPlain, h]

end Sys2Proof.Machine
end

section
/-! The end of a search at depth 64 (R204). -/

namespace Sys2Proof.Machine

/-- Step 6 of R203 in a running pass: a valid identifier is reported and counted, an invalid one is not. -/
theorem searchTerminal_eq {s : State} {e : Enumeration} (h : s.enum = some e) :
    searchTerminal s = { s with
      trace := s.trace ++ (if crc8 e.id.toList = 0x00 then [.report e.id] else []),
      enum := some { e with count := e.count + (if crc8 e.id.toList = 0x00 then 1 else 0) } } := by
  have hid : enumOf s = e := by rw [enumOf, h, Option.getD_some]
  by_cases hvalid : crc8 e.id.toList = 0x00
  · rw [searchTerminal, hid, if_pos ((idValid_iff e.id).2 hvalid)]
    simp [hvalid, modEnum, report, emit, h]
  · rw [searchTerminal, hid, if_neg (mt (idValid_iff e.id).1 hvalid)]
    cases s
    simp_all

/-- Settles O41: at depth 64 a search is its terminal step (`search_zero`, `searchTerminal_eq`). -/
theorem searchEndsAtDepth64 : Obligations.SearchEndsAtDepth64 := by
  intro s e h
  rw [search_zero, searchTerminal_eq (setDepth_enum h 64)]
  rfl

end Sys2Proof.Machine
end

section
/-! What a search records in the identifier (R203, R206, R212). -/

namespace Sys2Proof.Machine

/-- From `s` to `t` the identifier bits below `d` are kept. -/
def KeepsBitsBelow (d : Nat) (s t : State) : Prop := ∀ k < d, getbit k t = getbit k s

theorem KeepsBitsBelow.of_enum {d : Nat} {s t : State} (h : t.enum = s.enum) : KeepsBitsBelow d s t := fun k _ => getbit_congr h k

theorem KeepsBitsBelow.modEnum {d : Nat} {f : Enumeration → Enumeration} (hf : ∀ e, (f e).id = e.id) (s : State) :
    KeepsBitsBelow d s (modEnum f s) := by
  intro k _
  cases he : s.enum <;> simp [getbit, enumOf, he, hf]

/-- `setbit` records its bit if a pass runs, and keeps the others (R211). -/
theorem setbit_keepsBitsBelow {d0 d : Nat} (v : Level) (s : State) (hd0 : d0 ≤ d) (hd : d < 64) :
    KeepsBitsBelow d0 s (setbit d v s) := by
  intro k hk
  cases he : s.enum with
  | none => simp [setbit, getbit, enumOf, he]
  | some e =>
    have hset : (setbit d v s).enum = some { e with id := setIdBit e.id d v } := by rw [setbit, modEnum_enum, he, Option.map_some]
    rw [getbit_eq hset, getbit_eq he, idBit_setIdBit _ _ _ _ hd (by omega), if_neg (by omega)]

theorem searchTerminal_keepsBitsBelow (d : Nat) (s : State) : KeepsBitsBelow d s (searchTerminal s) := by
  unfold searchTerminal
  split
  · exact .modEnum (f := fun e => { e with count := e.count + 1 }) (fun _ => rfl) (report _ s)
  · exact fun _ _ => rfl

/-- R212 (b), by the induction of `search_rel`: only `setbit` writes the identifier, and it is called from depth `d` up. -/
theorem search_keepsBitsBelow {n d : Nat} (h : n + d ≤ 64) (s : State) : KeepsBitsBelow d s (search n s) :=
  search_rel (R := KeepsBitsBelow d) d (fun _ _ _ => rfl) (fun h k j hj => (k j hj).trans (h j hj))
    (fun s => .of_enum (by rw [readBit_eq])) (fun v s => .of_enum (by rw [writeBit_eq]))
    (fun x s => .of_enum (by rw [writeByte_eq])) (fun s => .of_enum (reset_enum s))
    (fun _ s => .modEnum (by intro e; rfl) s) (fun s => .modEnum (by intro e; rfl) s) (fun _ s => .modEnum (by intro e; rfl) s)
       (fun _ v s => setbit_keepsBitsBelow v s) (searchTerminal_keepsBitsBelow d) n s h

/-- Settles O43: bit `k` lies below the depth `64 - n` the search starts at. -/
theorem searchKeepsLowerBits : Obligations.SearchKeepsLowerBits :=
  fun n _ s hn hk => search_keepsBitsBelow (d := 64 - n) (by omega) s _ hk

/-- A search that begins by recording `v` at depth `d` ends with `v` there. -/
theorem getbit_search_takeBranch {n : Nat} (hn : n < 64) (v : Level) {s : State} {e : Enumeration} (h : s.enum = some e) :
    getbit (63 - n) (search n (takeBranch (63 - n) v s)) = v := by
  have hrecorded : (takeBranch (63 - n) v s).enum = some { e with id := setIdBit e.id (63 - n) v } := by
    rw [takeBranch_enum, h, Option.map_some]
  rw [search_keepsBitsBelow (d := 64 - n) (by omega) _ (63 - n) (by omega), getbit_eq hrecorded,
    idBit_setIdBit _ _ _ _ (by omega) (by omega), if_pos rfl]

/-- A search that takes a branch next has emitted the pair's slots and the branch's write slot, whatever it does after that. -/
theorem search_takeBranch_trace {n : Nat} (hn : n < 64) {p : Level × Level} {s : State} (h : (readPair s).1 = p) (v : Level) :
    s.trace ++ readSlot s.cfg p.1 ++ readSlot s.cfg p.2 ++ writeSlot s.cfg v false <+:
      (search n (takeBranch (63 - n) v (readPair s).2)).trace := by
  rw [← takeBranch_readPair_trace (63 - n) v h]
  exact (search_frame n _ (by omega)).trace

theorem search_succ_collision_trace {n : Nat} (hn : n < 64) {s : State}
    (h : (readPair (setDepth (63 - n) s)).1 = (false, false)) : (zeroBranch n s).trace <+: (search (n + 1) s).trace := by
  refine (reset_frame _).trace.trans ?_
  rw [search_succ_collision h]
  split
  · exact ((reenter_frame _ _).trans (search_frame n _ (by omega))).trace
  · exact List.prefix_rfl

/-- Settles O42: each pair has its equation; where the search goes on, what it does after the bit is written only appends to the
trace and leaves that bit alone. -/
theorem searchFollowsThePair : Obligations.SearchFollowsThePair := by
  intro s e d hd henum
  obtain ⟨n, hn, rfl⟩ : ∃ n, n < 64 ∧ d = 63 - n := ⟨63 - d, by omega, by omega⟩
  rw [show 64 - (63 - n) = n + 1 by omega]
  have hpairEnum : (readPair (setDepth (63 - n) s)).2.enum = some { e with depth := 63 - n } := by
    rw [readPair_enum, setDepth_enum henum]
  have hpair : (readPair (setDepth (63 - n) s)).1 =
      (s.env.answer .slot s.pinReads, (s.env.afterRead .slot).answer .slot (s.pinReads + 1)) := readPair_levels _
  refine ⟨_, _, rfl, rfl, fun ha hb => ?dead, fun hne => ?agree, fun ha hb => ?collision⟩
  case dead =>
    have hdead := hpair.trans (congrArg₂ Prod.mk ha hb)
    rw [search_succ_dead hdead, readPair_trace, hdead, ha, hb]
    exact ⟨rfl, hpairEnum⟩
  case agree =>
    have hagree := hpair.trans (congrArg (Prod.mk _) (Bool.eq_not_of_ne hne.symm))
    rw [search_succ_agree hagree]
    exact ⟨search_takeBranch_trace hn hpair _, getbit_search_takeBranch hn _ hpairEnum⟩
  case collision =>
    have hcollision := hpair.trans (congrArg₂ Prod.mk ha hb)
    exact (search_takeBranch_trace hn hcollision false).trans (search_succ_collision_trace hn hcollision)

end Sys2Proof.Machine
end

section
/-! The replay (R208, R215). -/

namespace Sys2Proof.Machine

/-- The last depth of a replay, read off from the state the others leave. -/
theorem replay_succ_last (i n : Nat) (s : State) :
    replay i (n + 1) s = writeBit (getbit (i + n) (replay i n s)) false (readPair (replay i n s)).2 := by
  induction n generalizing i s with
  | zero => rw [replay, replay, replay, getbit_congr (readPair_enum s), Nat.add_zero]
  | succ n ih =>
    rw [replay, ih, replay, Nat.add_right_comm]
    rfl

theorem replay_enum (i n : Nat) (s : State) : (replay i n s).enum = s.enum := by
  induction n with
  | zero => rfl
  | succ n ih =>
    rw [replay_succ_last, writeBit_enum, readPair_enum, ih]

/-- The pair a replay from depth 0 reads at depth `i`. -/
def replayedPair (s : State) (i : Nat) : Level × Level := (readPair (replay 0 i s)).1

theorem replay_trace (n : Nat) (s : State) :
    (replay 0 n s).trace = s.trace ++ (List.range n).flatMap (fun i =>
      readSlot s.cfg (replayedPair s i).1 ++ readSlot s.cfg (replayedPair s i).2 ++ writeSlot s.cfg (getbit i s) false) := by
  induction n with
  | zero => exact (List.append_nil _).symm
  | succ n ih =>
    have hbit : getbit (0 + n) (replay 0 n s) = getbit n s := by rw [Nat.zero_add, getbit_congr (replay_enum 0 n s)]
    have hcfg := (replay_frame 0 n s).cfg
    rw [replay_succ_last, hbit, writeBit_eq, List.range_succ, List.flatMap_append, ← List.append_assoc, ← ih]
    simp [readPair_trace, hcfg, replayedPair]

/-- Settles O45: the levels are those of `replayedPair`, and neither a pair nor a write slot touches the Enumeration State. -/
theorem replayWritesRecordedBits : Obligations.ReplayWritesRecordedBits :=
  fun d s => ⟨fun i => (replayedPair s i).1, fun i => (replayedPair s i).2, replay_trace d s, replay_enum 0 d s⟩

end Sys2Proof.Machine
end

section
/-! The loop form of the search (R213): the turns it takes and the state it ends in. -/

namespace Sys2Proof.Machine

/-- A turn of the loop of R213 after its descent: back up, and go on if a depth is resumed. -/
def resume (fuel : Nat) (pend : List Nat) (s : State) : State :=
  match (backUp pend s).1 with
  | none => (backUp pend s).2
  | some (e, pend') => searchLoop fuel (63 - e) pend' (backUp pend s).2

theorem searchLoop_succ (fuel n : Nat) (pend : List Nat) (s : State) :
    searchLoop (fuel + 1) n pend s = resume fuel (descend n pend s).1 (descend n pend s).2 := rfl

theorem resume_nil (fuel : Nat) (s : State) : resume fuel [] s = s := rfl

/-- The innermost pending depth owes its 1 branch, which the loop takes if the bus reset succeeds. -/
theorem resume_cons_ok {fuel e : Nat} {pend : List Nat} {s : State} (h : (resetAndPresenceDetect s).1 = true) :
    resume fuel (e :: pend) s = searchLoop fuel (63 - e) pend (reenter e (resetAndPresenceDetect s).2) := by
  simp only [resume, backUp, h, if_true]

theorem resume_cons_failed {fuel e : Nat} {pend : List Nat} {s : State} (h : (resetAndPresenceDetect s).1 = false) :
    resume fuel (e :: pend) s = resume fuel pend (resetAndPresenceDetect s).2 := by
  simp only [resume, backUp, h, Bool.false_eq_true, if_false]

/-! `descend` reads the pairs `search` reads: one equation for each. -/

theorem descend_succ_dead {n : Nat} (pend : List Nat) {s : State} (h : (readPair (setDepth (63 - n) s)).1 = (true, true)) :
    descend (n + 1) pend s = (pend, (readPair (setDepth (63 - n) s)).2) := by
  simp only [descend, h]

theorem descend_succ_agree {n : Nat} (pend : List Nat) {a : Level} {s : State}
    (h : (readPair (setDepth (63 - n) s)).1 = (a, !a)) :
    descend (n + 1) pend s = descend n pend (takeBranch (63 - n) a (readPair (setDepth (63 - n) s)).2) := by
  cases a <;> simp only [descend, h, Bool.not_false, Bool.not_true]

theorem descend_succ_collision {n : Nat} (pend : List Nat) {s : State}
    (h : (readPair (setDepth (63 - n) s)).1 = (false, false)) :
    descend (n + 1) pend s = descend n ((63 - n) :: pend) (takeBranch (63 - n) false (readPair (setDepth (63 - n) s)).2) := by
  simp only [descend, h]

/-- A pair is a dead end, agrees, or is a collision (R203). -/
theorem pair_cases (p : Level × Level) : p = (true, true) ∨ (∃ a, p = (a, !a)) ∨ p = (false, false) := by
  revert p; decide

/-- Descending over `n` bits and resuming what that leaves pending is the search of these bits (R203, R213); it takes fewer than
`2^n` turns of the loop, because a collision takes one turn beside those of its two branches (R240). -/
theorem resume_descend (n : Nat) (hn : n ≤ 64) (pend : List Nat) (s : State) :
    ∃ k < 2 ^ n, ∀ fuel, resume (fuel + k) (descend n pend s).1 (descend n pend s).2 = resume fuel pend (search n s) := by
  induction n generalizing pend s with
  | zero => exact ⟨0, by decide, fun fuel => by rw [search_zero]; rfl⟩
  | succ n ih =>
    have ih := ih (by omega)
    have hpow : 2 ^ (n + 1) = 2 ^ n + 2 ^ n := by rw [pow_succ, Nat.mul_two]
    rcases pair_cases (readPair (setDepth (63 - n) s)).1 with hdead | ⟨a, hagree⟩ | hcollision
    · refine ⟨0, Nat.two_pow_pos _, fun fuel => ?_⟩
      rw [search_succ_dead hdead, descend_succ_dead pend hdead, Nat.add_zero]
    · obtain ⟨k, hk, hturns⟩ := ih pend (takeBranch (63 - n) a (readPair (setDepth (63 - n) s)).2)
      refine ⟨k, by omega, fun fuel => ?_⟩
      rw [search_succ_agree hagree, descend_succ_agree pend hagree, hturns]
    · obtain ⟨k, hk, hzero⟩ : ∃ k < 2 ^ n, ∀ fuel, resume (fuel + k) (descend (n + 1) pend s).1 (descend (n + 1) pend s).2 =
          resume fuel ((63 - n) :: pend) (zeroBranch n s) := by
        rw [descend_succ_collision pend hcollision]
        exact ih _ _
      rw [search_succ_collision hcollision]
      cases hreset : (resetAndPresenceDetect (zeroBranch n s)).1 with
      | false =>
        refine ⟨k, by omega, fun fuel => ?_⟩
        rw [hzero, resume_cons_failed hreset, if_neg Bool.false_ne_true]
      | true =>
        obtain ⟨l, hl, hone⟩ := ih pend (reenter (63 - n) (resetAndPresenceDetect (zeroBranch n s)).2)
        refine ⟨l + 1 + k, by omega, fun fuel => ?_⟩
        rw [← Nat.add_assoc, hzero, resume_cons_ok hreset, ← Nat.add_assoc, searchLoop_succ, show 63 - (63 - n) = n by omega,
          hone, if_pos rfl]

/-- With `2^n` turns allowed the loop form does not run out of fuel. -/
theorem searchLoop_eq_search {n fuel : Nat} (hn : n ≤ 64) (hfuel : 2 ^ n ≤ fuel) (s : State) :
    searchLoop fuel n [] s = search n s := by
  obtain ⟨k, hk, hturns⟩ := resume_descend n hn [] s
  obtain ⟨f, rfl⟩ : ∃ f, fuel = f + k + 1 := ⟨fuel - k - 1, by omega⟩
  rw [searchLoop_succ, hturns, resume_nil]

/-- Settles O44: the loop form has fuel `2^64`, and the search of 64 bits takes fewer turns (`resume_descend`). -/
theorem loopFormAgrees : Obligations.LoopFormAgrees := fun s => searchLoop_eq_search le_rfl le_rfl s

end Sys2Proof.Machine
end

section
/-! `DISCOVER` in any environment: without a sink, without an enumerator, and a pass from its bus reset on (R201, R202, R216). -/

namespace Sys2Proof.Machine

/-- Settles O33: without a sink the command is its acceptance and `COUNT` 0; without an enumerator it is refused
(`exec_refused`). -/
theorem discoverWithoutSinkOrEnumerator : Obligations.DiscoverWithoutSinkOrEnumerator := by
  intro s alarm
  refine ⟨fun henum => ?_, fun henum sink => exec_refused (.discover sink alarm) s codeNoEnumerator ?_⟩
  · rw [exec_eq_effect (i := .discover false alarm) (by simp [refusalOf, henum])]
    rfl
  · simp [refusalOf, henum, codeNoEnumerator]

/-- The state in which a pass begins: the command accepted as a bus command, the Enumeration State at its start (R201). -/
def passStart (alarm : Bool) (s : State) : State := { acceptBus s with enum := some (Enumeration.start alarm) }

/-- `DISCOVER SINK` is a pass, after which `COUNT` takes the saturated count and the Enumeration State goes (R202, R216). -/
theorem exec_discover_sink (alarm : Bool) {s : State} (henum : s.cfg.hasEnum = true) :
    exec (.discover true alarm) s = .next { discoverPass (passStart alarm s) with
      count := saturate (enumOf (discoverPass (passStart alarm s))).count, enum := none } := by
  rw [exec_eq_effect (i := .discover true alarm) (by simp [refusalOf, henum])]
  rfl

theorem saturate_toNat (n : Nat) : (saturate n).toNat = min n 0xFFFF := by
  rw [saturate, BitVec.toNat_ofNat]
  omega

/-- A pass reports valid identifiers only, and counts its reports (R204). -/
theorem pass_counts_reports (alarm : Bool) (s : State) :
    ∃ ids, reports (discoverPass (passStart alarm s)).trace = reports s.trace ++ ids ∧ (∀ id ∈ ids, idValid id = true) ∧
      (enumOf (discoverPass (passStart alarm s))).count = ids.length := by
  obtain ⟨hrunning, ids, hreports, hvalid, hcount⟩ := discoverPass_counted (passStart alarm s) (Option.some_ne_none _)
  refine ⟨ids, hreports, hvalid, ?_⟩
  obtain ⟨e, he⟩ := Option.ne_none_iff_exists'.1 hrunning
  have hstart : passCount (passStart alarm s) = some 0 := rfl
  rw [hstart, passCount, he, Option.map_some, Option.map_some, Nat.zero_add] at hcount
  rw [enumOf, he, Option.getD_some]
  exact Option.some.inj hcount

/-- Settles O34: the pass reports and counts (`pass_counts_reports`), and beside that moves pins, environment and trace only. -/
theorem discoverCountsReports : Obligations.DiscoverCountsReports := by
  intro s alarm henum
  obtain ⟨ids, hreports, hvalid, hcount⟩ := pass_counts_reports alarm s
  have hframe := (discoverPass_frame (passStart alarm s)).eq
  have hmode := (discoverPass_idle (passStart alarm s)).1
  refine ⟨_, ids, exec_discover_sink alarm henum, hreports, fun id hid => (idValid_iff id).1 (hvalid id hid), ?_, ?_⟩
  · rw [hcount, saturate_toNat]
  · generalize discoverPass (passStart alarm s) = t at *
    rw [hframe, hmode]
    rfl

/-- A pass whose bus reset fails is over (R201). -/
theorem discoverPass_of_failed {s : State} (h : (resetAndPresenceDetect s).1 = false) :
    discoverPass s = (resetAndPresenceDetect s).2 := by
  simp only [discoverPass, h, Bool.false_eq_true, if_false]

/-- The state in which `search(0)` of a pass begins: after the bus reset and the search byte (R201, R218). -/
def searchStart (alarm : Bool) (s : State) : State :=
  writeByte (searchByte alarm) false (resetAndPresenceDetect (passStart alarm s)).2

theorem discoverPass_of_present {alarm : Bool} {s : State} (h : (resetAndPresenceDetect (passStart alarm s)).1 = true) :
    discoverPass (passStart alarm s) = search 64 (searchStart alarm s) := by
  have hbyte : (enumOf (resetAndPresenceDetect (passStart alarm s)).2).scmd = searchByte alarm := by
    rw [enumOf, reset_enum]
    rfl
  simp only [discoverPass, h, if_true, hbyte, searchStart]

theorem searchStart_enum (alarm : Bool) (s : State) : (searchStart alarm s).enum = some (Enumeration.start alarm) := by
  rw [searchStart, writeByte_eq]
  exact reset_enum _

theorem searchStart_cfg (alarm : Bool) (s : State) : (searchStart alarm s).cfg = s.cfg :=
  ((reset_frame (passStart alarm s)).trans (writeByte_frame _ _)).cfg

theorem searchStart_trace {alarm : Bool} {s : State} {es : List PortEvent}
    (h : (resetAndPresenceDetect (passStart alarm s)).2.trace = s.trace ++ es) :
    (searchStart alarm s).trace = s.trace ++ es ++ writeByteEvents s.cfg (searchByte alarm) := by
  rw [searchStart, writeByte_eq, h, (reset_frame _).cfg]
  rfl

/-- Settles O35: the first events are `reset_isReset`; then the pass is over, or the search byte follows and the search only
appends. -/
theorem discoverBeginsWithReset : Obligations.DiscoverBeginsWithReset := by
  intro s alarm henum
  obtain ⟨es, hreset, htrace⟩ := reset_isReset (passStart alarm s)
  refine ⟨_, es, _, exec_discover_sink alarm henum, hreset, fun hfailed => ?_, fun hpresent => ?_⟩
  · rw [discoverPass_of_failed hfailed, enumOf, reset_enum]
    exact ⟨htrace, rfl⟩
  · have hgrows := (search_frame 64 (searchStart alarm s) le_rfl).trace
    rwa [searchStart_trace htrace, ← discoverPass_of_present hpresent] at hgrows

end Sys2Proof.Machine
end

section
/-! A pass on a bus of well-behaved devices (R200, R203 to R206, R210, R214, R217, R218). -/

namespace Sys2Proof.Machine

section
variable {alarm : Bool} {s : State} {b : DeviceBus}

/-! ### The bus reset and the search byte -/

/-- Where the line is defined the bus answers the pass. -/
theorem passStart_env (hline : s.lineDefined) (henv : s.env = .deviceBus b) : (passStart alarm s).env = .deviceBus b :=
  acceptBus_env_of_lineDefined hline henv

/-- The bus reset of a pass, on a bus that is empty or from which the devices have vanished. -/
theorem pass_absent (hline : s.lineDefined) (henv : s.env = .deviceBus b) (hretry : 0 < s.cfg.retry.toNat)
    (habsent : (b.present && !b.devs.isEmpty) = false) :
    discoverPass (passStart alarm s) = (resetAndPresenceDetect (passStart alarm s)).2 := by
  have hreset := reset_on_bus (passStart alarm s) b (passStart_env hline henv) hretry
  exact discoverPass_of_failed (by rw [hreset, habsent])

/-- What a pass has done when its search begins, with devices present: one bus reset and the search byte. -/
structure PassBegun (alarm : Bool) (b : DeviceBus) (s : State) : Prop where
  pass : discoverPass (passStart alarm s) = search 64 (searchStart alarm s)
  atDepth : AtDepth alarm b.devs b.vanish 0 (b.resets + 1) zeroId (searchStart alarm s)
  cost : Cost s (searchStart alarm s) 2 [] 8 9
  trace : (searchStart alarm s).trace = s.trace ++ resetEvents s.cfg 0 false ++ writeByteEvents s.cfg (searchByte alarm)

theorem pass_begun (alarm : Bool) (hline : s.lineDefined) (henv : s.env = .deviceBus b) (hretry : 0 < s.cfg.retry.toNat)
    (hpresent : b.present = true) (hdevs : b.devs ≠ []) : PassBegun alarm b s := by
  have hstart := passStart_env (alarm := alarm) hline henv
  have hreset := reset_on_bus (passStart alarm s) b hstart hretry
  have hok : (b.present && !b.devs.isEmpty) = true := by simp [hpresent, hdevs]
  have hbyte : (searchStart alarm s).env =
      (resetAndPresenceDetect (passStart alarm s)).2.env.afterWrites (wireBits (searchByte alarm)) := by
    rw [searchStart, writeByte_eq]
  rw [hok, hpresent, if_pos rfl] at hreset
  refine ⟨discoverPass_of_present (by rw [hreset]), ⟨?_, ⟨_, searchStart_enum alarm s, rfl, rfl⟩, ?_⟩, ?_,
    searchStart_trace ?_⟩
  · rw [searchStart_cfg]; exact hretry
  · rw [hbyte, hreset, bus_searchByte, onPath_zero]; rfl
  · have hcost := (cost_reset b hstart hretry).trans (cost_writeByte (searchByte alarm) _)
    exact ⟨hcost.cfg, hcost.pinReads, hcost.trace⟩
  · rw [hreset]; rfl

/-- The devices that take part in the search are those on its path at depth 0. -/
theorem pathIds_eq_participants (alarm : Bool) (b : DeviceBus) (E : Identifier) :
    pathIds alarm b.devs 0 E = participants alarm b := by
  rw [pathIds, onPath_zero]
  rfl

/-! ### A search with nobody or one device on its path -/

variable {D : List Device} {V : Option Nat} {n r : Nat} {E x : Identifier}

theorem AtDepth.setDepth (h : AtDepth alarm D V (63 - n) r E s) : AtDepth alarm D V (63 - n) r E (setDepth (63 - n) s) :=
  h.modEnum (fun _ => ⟨rfl, rfl⟩)

/-- The pair read at the start of a search (R200): the line is the AND of what the devices on the path send. -/
theorem AtDepth.setDepth_pair (h : AtDepth alarm D V (63 - n) r E s) :
    (readPair (Machine.setDepth (63 - n) s)).1 =
      ((pathIds alarm D (63 - n) E).all (idBit · (63 - n)), (pathIds alarm D (63 - n) E).all (!idBit · (63 - n))) :=
  (h.setDepth.pair (by omega)).1

/-- The branch the search takes is one depth further (R203). -/
theorem AtDepth.follow (h : AtDepth alarm D V (63 - n) r E s) (hn : n < 64) (v : Level) :
    AtDepth alarm D V (64 - n) r (setIdBit E (63 - n) v)
      (Machine.takeBranch (63 - n) v (readPair (Machine.setDepth (63 - n) s)).2) := by
  have hnext := h.setDepth.takeBranch (by omega) v (f := id) (fun _ => ⟨rfl, rfl⟩)
  rwa [modEnum_id, show 63 - n + 1 = 64 - n by omega] at hnext

/-- Nobody on the path: the line stays high and the search is over (R205). -/
theorem search_nobody (h : AtDepth alarm D V (63 - n) r E s) (hpath : pathIds alarm D (63 - n) E = []) :
    (search (n + 1) s).trace = s.trace ++ readSlot s.cfg true ++ readSlot s.cfg true := by
  have hpair := h.setDepth_pair
  rw [hpath] at hpair
  rw [search_succ_dead hpair, readPair_trace, hpair]
  rfl

/-- The events of one identifier bit on the path of one device (R203, R206). -/
def bitEvents (c : Config) (x : Identifier) (k : Nat) : List PortEvent :=
  readSlot c (idBit x k) ++ readSlot c (!idBit x k) ++ writeSlot c (idBit x k) false

/-- One device on the path: each pair agrees, so the search walks its bits and ends with its identifier (R204, R206). -/
theorem search_alone (hn : n ≤ 64) (h : AtDepth alarm D V (64 - n) r E s) (hpath : pathIds alarm D (64 - n) E = [x]) :
    (search n s).trace = s.trace ++ (List.range' (64 - n) n).flatMap (bitEvents s.cfg x) ++
      if idValid x then [.report x] else [] := by
  induction n generalizing E s with
  | zero =>
    obtain rfl : x = E := id_ext (pathIds_prefix (by rw [hpath]; exact List.mem_singleton_self x))
    obtain ⟨e, he, -, rfl⟩ := h.enum
    rw [search_zero, searchTerminal_eq (setDepth_enum he 64)]
    simp [idValid_iff, setDepth]
  | succ n ih =>
    rw [show 64 - (n + 1) = 63 - n by omega] at h hpath ⊢
    have hpair := h.setDepth_pair
    simp only [hpath, List.all_cons, List.all_nil, Bool.and_true] at hpair
    have hpath' := pathIds_succ alarm D (show 63 - n < 64 by omega) E (idBit x (63 - n))
    rw [hpath, List.filter_cons_of_pos (by simp), List.filter_nil, show 63 - n + 1 = 64 - n by omega] at hpath'
    have hrest := ih (by omega) (h.follow (by omega) _) hpath'
    rw [takeBranch_readPair_trace _ _ hpair, takeBranch_cfg, readPair_cfg] at hrest
    rw [search_succ_agree hpair, hrest, List.range'_succ, show 63 - n + 1 = 64 - n by omega, List.flatMap_cons]
    simp only [bitEvents, List.append_assoc]
    rfl

/-! ### A whole pass -/

/-- The count of a pass is the number of identifiers it is known to report (R204). -/
theorem pass_count {ids : List Identifier}
    (h : reports (discoverPass (passStart alarm s)).trace = reports s.trace ++ ids) :
    (enumOf (discoverPass (passStart alarm s))).count = ids.length := by
  obtain ⟨ids', hreports, -, hcount⟩ := pass_counts_reports alarm s
  rw [hcount, List.append_cancel_left (hreports.symm.trans h)]

variable {l : List Identifier}

/-- A search on this bus walks the identifiers that take part, in the order of R214. -/
theorem PassBegun.searched (h : PassBegun alarm b s) (hperm : l.Perm (participants alarm b)) (hsorted : l.Pairwise idBefore)
    (hne : l ≠ []) : Searched alarm b.devs b.vanish 64 (b.resets + 1) zeroId l (searchStart alarm s)
      (discoverPass (passStart alarm s)) := by
  rw [h.pass]
  exact search_on_bus alarm b.devs b.vanish 64 le_rfl _ _ l _ h.atDepth (by rwa [pathIds_eq_participants]) hsorted hne

/-- Nobody takes part: the pass ends at its first pair (R205). -/
theorem PassBegun.nobody_trace (h : PassBegun alarm b s) (hnobody : participants alarm b = []) :
    (discoverPass (passStart alarm s)).trace = s.trace ++ resetEvents s.cfg 0 false ++ writeByteEvents s.cfg (searchByte alarm) ++
      readSlot s.cfg true ++ readSlot s.cfg true := by
  rw [h.pass, search_nobody (n := 63) h.atDepth (by rwa [pathIds_eq_participants]), h.trace, searchStart_cfg]

/-- The paths a pass walks on a bus that vanishes or not (R210). -/
def walkedPaths (b : DeviceBus) (l : List Identifier) : List Identifier :=
  match b.vanish with
  | none => l
  | some v => l.take (v - b.resets)

theorem walkedPaths_nil (b : DeviceBus) : walkedPaths b [] = [] := by
  cases hv : b.vanish <;> simp [walkedPaths, hv]

/-- The first path is walked before the devices can vanish at a replay reset (R210). -/
theorem walkedPaths_of_present (hpresent : b.present = true) (l : List Identifier) :
    walkedPaths b l = walked b.vanish (b.resets + 1) l := by
  cases hv : b.vanish with
  | none => simp only [walkedPaths, walked, hv]
  | some v =>
    have hlt : b.resets < v := by simpa [DeviceBus.present, hv] using hpresent
    simp only [walkedPaths, walked, hv, show 1 + (v - (b.resets + 1)) = v - b.resets by omega]

theorem walkedPaths_of_absent (habsent : b.present = false) (l : List Identifier) : walkedPaths b l = [] := by
  cases hv : b.vanish with
  | none => simp [DeviceBus.present, hv] at habsent
  | some v =>
    have hle : v ≤ b.resets := by simpa [DeviceBus.present, hv] using habsent
    simp only [walkedPaths, hv, Nat.sub_eq_zero_of_le hle, List.take_zero]

/-- A pass reports the valid identifiers among the paths it walks, in the order of R214 (R204, R210). -/
theorem pass_reports (hline : s.lineDefined) (henv : s.env = .deviceBus b) (hretry : 0 < s.cfg.retry.toNat)
    (hperm : l.Perm (participants alarm b)) (hsorted : l.Pairwise idBefore) :
    reports (discoverPass (passStart alarm s)).trace = reports s.trace ++ (walkedPaths b l).filter idValid := by
  have hempty : b.devs = [] → l = [] := fun hdevs => List.Perm.eq_nil (by rwa [participants, hdevs] at hperm)
  by_cases habsent : b.present = true ∧ b.devs ≠ []
  case neg =>
    have hwalked : walkedPaths b l = [] := by
      by_cases hdevs : b.devs = []
      · rw [hempty hdevs, walkedPaths_nil]
      · exact walkedPaths_of_absent (by simpa [hdevs] using habsent) l
    rw [hwalked, pass_absent hline henv hretry (by simpa using habsent), (cost_reset b (passStart_env hline henv) hretry).reports]
    rfl
  case pos =>
    obtain ⟨hpresent, hdevs⟩ := habsent
    have hbegun := pass_begun alarm hline henv hretry hpresent hdevs
    by_cases hl : l = []
    · subst hl
      rw [walkedPaths_nil, hbegun.nobody_trace hperm.nil_eq.symm]
      simp [reports_append, reports_readSlot, reports_writeByteEvents, (tally_reset s.cfg false).reports]
    · rw [(hbegun.searched hperm hsorted hl).reports, hbegun.cost.reports, List.append_nil, walkedPaths_of_present hpresent]

end

/-- Settles O37: the pass reports the valid identifiers of the paths it walks (`pass_reports`), and counts them. -/
theorem discoverFindsTheDevices : Obligations.DiscoverFindsTheDevices := by
  intro s b alarm l hline henum hretry henv hperm hsorted
  have hreports := pass_reports hline henv hretry hperm hsorted
  refine ⟨_, (walkedPaths b l).filter idValid, exec_discover_sink alarm henum, rfl, hreports, ?_⟩
  rw [pass_count hreports, saturate_toNat]

/-- Settles O38: to the cost of the first reset and the search byte comes that of the search, `search_on_bus`. -/
theorem discoverCost : Obligations.DiscoverCost := by
  intro s b alarm l hline henum hretry henv hvanish hperm hsorted hne
  have hpos := List.length_pos_of_ne_nil hne
  have hdevs : b.devs ≠ [] := fun hdevs => hne (List.Perm.eq_nil (by rwa [participants, hdevs] at hperm))
  have hbegun := pass_begun alarm hline henv hretry (by simp [DeviceBus.present, hvanish]) hdevs
  obtain ⟨-, hsamples, es, htrace, htally⟩ := hbegun.cost.trans ((hbegun.searched hperm hsorted hne).cost hvanish)
  refine ⟨_, es, exec_discover_sink alarm henum, htrace, ?_, ?_, ?_⟩
  · rw [hsamples]; omega
  · rw [htally.high]; omega
  · rw [htally.exits]; omega

/-- Settles O39: no device is alarmed, so nobody takes part, and the pass ends at its first pair. -/
theorem alarmSearchFindsNobody : Obligations.AlarmSearchFindsNobody := by
  intro s b hline henum hretry henv hpresent hdevs hcalm
  have hnobody : participants true b = [] := by simpa [participants, List.filter_eq_nil_iff] using hcalm
  have htrace := (pass_begun true hline henv hretry hpresent hdevs).nobody_trace hnobody
  have hreports := pass_reports (l := []) hline henv hretry (by rw [hnobody]) .nil
  refine ⟨_, exec_discover_sink true henum, ?_, htrace⟩
  rw [pass_count hreports, walkedPaths_nil]
  rfl

/-- Settles O36: the only device is alone on its path (`search_alone`), and `search_on_bus` counts the samples. -/
theorem discoverSingleDevice : Obligations.DiscoverSingleDevice := by
  intro s x al st hline henum hretry henv
  have hbegun := pass_begun false hline henv hretry rfl (List.cons_ne_nil _ _)
  have hcost := hbegun.cost.trans ((hbegun.searched (l := [x]) (.refl _) (List.pairwise_singleton _ _) (by simp)).cost rfl)
  have hreports := hcost.reports
  have htrace := search_alone le_rfl hbegun.atDepth (x := x) (pathIds_eq_participants _ _ _)
  rw [← hbegun.pass, hbegun.trace, searchStart_cfg, ← List.range_eq_range'] at htrace
  refine ⟨_, exec_discover_sink false henum, ?_, hcost.pinReads, htrace⟩
  rw [pass_count hreports]
  cases hvalid : idValid x <;> simp [hvalid, saturate]

end Sys2Proof.Machine
end

section
/-! A line that is low from its second sample on (R219): a script answers one high sample, then low ones for ever. -/

namespace Sys2Proof.Machine

/-- The answers of a line stuck low. -/
def stuckLow : Env := .script [] false

@[simp] theorem answer_stuckLow (k : SampleKind) (n : Nat) : stuckLow.answer k n = false := rfl
@[simp] theorem afterRead_stuckLow (k : SampleKind) : stuckLow.afterRead k = stuckLow := rfl
@[simp] theorem afterWrite_stuckLow (v : Level) : stuckLow.afterWrite v = stuckLow := rfl

theorem afterWrites_stuckLow (vs : List Level) : stuckLow.afterWrites vs = stuckLow := by
  induction vs with
  | nil => rfl
  | cons v vs ih => exact ih

/-- The idle wait of R140 when the first sample is high. -/
theorem pollIdle_high {n : Nat} {s : State} (hn : 0 < n) (hhigh : pinLevel .poll s = true) :
    pollIdle n s = (true, readPin .poll s) := by
  obtain ⟨m, rfl⟩ := Nat.exists_eq_succ_of_ne_zero hn.ne'
  rw [pollIdle, if_pos hhigh]

/-- A bus reset on a line that goes low for good after the idle sample takes the low level for a presence pulse (R140, R219). -/
theorem reset_goes_low {s : State} (henv : s.env = .script [true] false) (hretry : 0 < s.cfg.retry.toNat) :
    resetAndPresenceDetect s = (true, { s with
      mode := .floating, out := false, crit := false, env := stuckLow, pinReads := s.pinReads + 2,
      trace := s.trace ++ resetEvents s.cfg 0 false }) := by
  have hhigh : pinLevel .poll (setFloating s) = true := by simp [pinLevel, henv, Env.answer]
  simp only [resetAndPresenceDetect, setFloating_cfg, pollIdle_high hretry hhigh, if_true, resetPulse_eq]
  simp [pinLevel, henv, Env.answer, Env.afterRead, resetEvents, pollEvents, stuckLow]

theorem pollIdle_stuckLow (n : Nat) {s : State} (henv : s.env = stuckLow) :
    pollIdle n s = (false, { s with pinReads := s.pinReads + n, trace := s.trace ++ pollEvents s.cfg n }) := by
  induction n generalizing s with
  | zero => simp [pollIdle, pollEvents]
  | succ n ih =>
    have hlow : pinLevel .poll s = false := by simp [pinLevel, henv]
    rw [pollIdle, if_neg (by simp [hlow]), ih (by simp [henv])]
    simp [hlow, pollEvents_succ, henv]
    omega

/-- A bus reset on a line stuck low never sees idle (R140). -/
theorem reset_stuckLow {s : State} (henv : s.env = stuckLow) :
    resetAndPresenceDetect s = (false, { s with
      mode := .floating, pinReads := s.pinReads + s.cfg.retry.toNat, trace := s.trace ++ deadResetEvents s.cfg }) := by
  simp only [resetAndPresenceDetect, setFloating_cfg, pollIdle_stuckLow _ (s := setFloating s) henv]
  simp [deadResetEvents]

/-- The slots of one depth on a line stuck low: a collision, of which the 0 branch is taken. -/
def lowBitEvents (c : Config) : List PortEvent := readSlot c false ++ readSlot c false ++ writeSlot c false false

/-- What a search of `n` bits leaves of a pass with the line stuck low and zeros recorded so far: the terminal step has reported the
all-zero identifier, and each of the `n` collisions ends in a failed reset. -/
structure SearchedLow (n : Nat) (e : Enumeration) (s t : State) : Prop where
  env : t.env = stuckLow
  enum : t.enum = some { e with depth := 64, count := e.count + 1 }
  trace : t.trace = s.trace ++ (List.replicate n (lowBitEvents s.cfg)).flatten ++ [.report zeroId] ++
    (List.replicate n (deadResetEvents s.cfg)).flatten

theorem zeroBranch_cfg {n : Nat} (hn : n + 1 ≤ 64) (s : State) : (zeroBranch n s).cfg = s.cfg := by
  rw [zeroBranch, (search_frame n _ (by omega)).cfg, takeBranch_cfg, readPair_cfg]
  rfl

theorem search_stuckLow {n : Nat} (hn : n ≤ 64) {e : Enumeration} {s : State} (henv : s.env = stuckLow) (henum : s.enum = some e)
    (hid : e.id = zeroId) : SearchedLow n e s (search n s) := by
  induction n generalizing e s with
  | zero =>
    have hvalid : crc8 e.id.toList = 0x00 := by rw [hid]; exact crc8_replicate_zero 8
    rw [search_zero, searchTerminal_eq (setDepth_enum henum 64)]
    refine ⟨henv, ?_, ?_⟩
    · simp [hvalid]
    · simp [hvalid, ← hid, setDepth]
  | succ n ih =>
    have hpair : (readPair (setDepth (63 - n) s)).1 = (false, false) := by
      simp [readPair_levels, setDepth, henv]
    have hzero : setIdBit e.id (63 - n) false = e.id := by
      rw [hid, ← idBit_zeroId (63 - n), setIdBit_same (by omega)]
    obtain ⟨henv0, henum0, htrace0⟩ : SearchedLow n { e with depth := 63 - n } _ (zeroBranch n s) :=
      ih (by omega) (by simp [takeBranch_env, readPair_env, setDepth, henv])
        (by rw [takeBranch_enum, readPair_enum, setDepth_enum henum, Option.map_some, hzero]) hid
    rw [takeBranch_readPair_trace _ _ hpair, takeBranch_cfg, readPair_cfg] at htrace0
    have hreset := reset_stuckLow henv0
    rw [search_succ_collision hpair, hreset, if_neg Bool.false_ne_true]
    refine ⟨henv0, henum0, ?_⟩
    have hcfg : (zeroBranch n s).cfg = s.cfg := zeroBranch_cfg hn s
    simp only [htrace0, hcfg]
    rw [List.replicate_succ, List.flatten_cons, List.replicate_succ' (a := deadResetEvents s.cfg), List.flatten_concat]
    simp only [lowBitEvents, List.append_assoc]
    rfl

/-- Settles O40: the first reset takes the low line for a presence pulse, and the search collides at each of its 64 bits
(`search_stuckLow`). -/
theorem stuckLowLineReportsZero : Obligations.StuckLowLineReportsZero := by
  intro s hline henum hretry henv
  have hreset := reset_goes_low (s := passStart false s) (acceptBus_env_of_lineDefined hline henv) hretry
  have hpass : discoverPass (passStart false s) = search 64 (searchStart false s) := discoverPass_of_present (by rw [hreset])
  have hbegun : (searchStart false s).trace = s.trace ++ resetEvents s.cfg 0 false ++ writeByteEvents s.cfg (searchByte false) :=
    searchStart_trace (by rw [hreset]; rfl)
  have hlow : (searchStart false s).env = stuckLow := by
    rw [searchStart, writeByte_eq, hreset]
    exact afterWrites_stuckLow _
  obtain ⟨-, hcount, htrace⟩ := search_stuckLow le_rfl hlow (searchStart_enum false s) rfl
  rw [hbegun, searchStart_cfg] at htrace
  refine ⟨_, exec_discover_sink false henum, ?_, ?_⟩
  · rw [hpass, enumOf, hcount]
    rfl
  · rw [hpass]
    exact htrace

end Sys2Proof.Machine
end

section
/-! Refusals as a host sees them (R246, R247): `refusalOf` decides the status flags every command leaves, and what it answers has one
cause for each code. -/

namespace Sys2Proof.Machine

/-- R247: the causes of the three codes a command can be refused with. -/
theorem refusalOf_eq_some_iff {i : Instr} {s : State} {c : BitVec 3} :
    refusalOf i s = some c ↔
      (c = 2 ∧ (i = .odSkip ∨ i = .odMatch)) ∨
      (c = 3 ∧ (((i = .writeBytes ∨ i = .readBytes) ∧ s.ptr.toNat + s.arg.toNat > 128) ∨
        (i = .crc8Check ∧ s.ptr.toNat + s.arg.toNat + 1 > 128))) ∨
      (c = 4 ∧ (∃ sink alarm, i = .discover sink alarm) ∧ s.cfg.hasEnum = false) := by
  cases i with
  | odMatch | odSkip => simp [refusalOf, eq_comm (a := c)]
  | writeBytes | readBytes => simp [refusalOf, outOfBuffer_iff, and_comm, eq_comm (a := c)]
  | crc8Check => simp [refusalOf, outOfBufferCheck_iff, and_comm, eq_comm (a := c)]
  | discover sink alarm => simp [refusalOf, and_comm, eq_comm (a := c)]
  | writeBit | readBit | reset | writeByte | readByte | releasePullup | romSingle | romMatch | romSkip | crc8Rom =>
    simp [refusalOf]

/-- R95, R246: the status flags after any command. -/
theorem exec_status {i : Instr} {s t : State} (h : exec i s = .next t) :
    t.refused = (refusalOf i s).isSome ∧ t.rcode = (refusalOf i s).getD 0 := by
  rcases exec_cases h with ⟨c, hc, rfl⟩ | ⟨hn, hran⟩
  · rw [hc]
    exact ⟨rfl, rfl⟩
  · rw [hn]
    exact ⟨hran.refused, hran.rcode⟩

/-- A nonzero `RCODE` is the code the command was refused with. -/
theorem exec_rcode_eq_iff {i : Instr} {s t : State} (h : exec i s = .next t) {c : BitVec 3} (hc : c ≠ 0) :
    t.rcode = c ↔ refusalOf i s = some c := by
  rw [(exec_status h).2]
  cases refusalOf i s with
  | none => exact iff_of_false hc.symm (Option.some_ne_none c).symm
  | some d => simp

/-- Settles O30: a nonzero code is the one `refusalOf` answers, whose causes are `refusalOf_eq_some_iff`. -/
theorem refusalCodes : Obligations.RefusalCodes := by
  intro i s t h
  obtain ⟨hrefused, hcode⟩ := exec_status h
  refine ⟨?flag, ?overdrive, ?range, ?enumerator, ?codes⟩
  case overdrive | range | enumerator =>
    rw [exec_rcode_eq_iff h (by decide), refusalOf_eq_some_iff]
    simp
  case flag =>
    rw [hrefused, hcode]
    cases hr : refusalOf i s with
    | none => simp
    | some c => exact iff_of_true rfl (refusalOf_code hr).1
  case codes =>
    rw [hcode]
    cases hr : refusalOf i s with
    | none => simp
    | some c => rcases refusalOf_eq_some_iff.1 hr with ⟨rfl, -⟩ | ⟨rfl, -⟩ | ⟨rfl, -⟩ <;> simp

/-- Settles O31: a command is refused and sets the two flags only, or it ran and has cleared them (`exec_cases`). -/
theorem refusalIsPrecise : Obligations.RefusalIsPrecise := by
  intro i s t h
  rcases exec_cases h with ⟨c, -, rfl⟩ | ⟨-, hran⟩
  · exact .inl ⟨rfl, rfl⟩
  · exact .inr ⟨hran.refused, hran.rcode⟩

end Sys2Proof.Machine
end

section
/-! Every command and every step runs to its end (R240, R246), and leaves the critical sections it entered (R250, R286). -/

namespace Sys2Proof.Machine

/-- A report neither enters nor leaves a critical section (R31). -/
theorem report_balanced (id : Identifier) :
    [PortEvent.report id].count .enterCritical = [PortEvent.report id].count .exitCritical := rfl

/-- Settles O57: the events of such a command are slots, resets and reports (`exec_emits`), each of them balanced
(`closed_balance`). -/
theorem criticalSectionsBalance : Obligations.CriticalSectionsBalance := by
  intro i s t h hbit hbyte hrelease
  exact exec_emits closed_balance h (fun _ => report_balanced) hbit hbyte hrelease

theorem exec_completes (i : Instr) (s : State) : ∃ t, exec i s = .next t := by
  cases hr : refusalOf i s with
  | some c => exact ⟨_, exec_refused i s c hr⟩
  | none => exact ⟨_, exec_eq_effect hr⟩

theorem runCommand_completes (v : Byte) (s : State) : ∃ t, runCommand v s = .next t := by
  cases hdec : decode v with
  | ok i =>
    rw [runCommand_of_decode hdec]
    exact exec_completes i _
  | error r => exact ⟨_, runCommand_of_decode_error hdec s⟩

theorem step_completes (s : State) : ∃ t, step s = .next t := by
  match hin : s.hostIn with
  | [] => exact ⟨s, step_idle hin⟩
  | .read a :: rest => exact ⟨_, step_read hin⟩
  | .write a v :: rest =>
    by_cases ha : a = 0x00
    · subst ha
      rw [step_writeCmd hin]
      exact runCommand_completes v _
    · exact ⟨_, step_write v hin ha⟩

/-- Settles O46: a step waits, or its access is a read, a write to a register or a command, and each of these has a next state. -/
theorem everyStepCompletes : Obligations.EveryStepCompletes := ⟨step_completes, exec_completes⟩

end Sys2Proof.Machine
end

section
/-! The mark of R285 after any command, and the line of a run that carries it (Log 8). -/

namespace Sys2Proof.Machine

theorem pullupHeld_eq_true {s : State} : pullupHeld s = true ↔ s.pu = true ∨ s.mode = .driven := by
  simp [pullupHeld]

/-- R285: a quiet command leaves the mark as it was, a busy one other than `RELEASE_PULLUP` adds what it found. -/
theorem Ran.holdViolation_iff {i : Instr} {s t : State} (h : Ran i s t) : t.holdViolation = true ↔
    s.holdViolation = true ∨ (pullupHeld s = true ∧ i ≠ .releasePullup ∧ t.trace ≠ s.trace) := by
  by_cases hquiet : t.trace = s.trace
  · obtain ⟨-, -, -, -, hmark⟩ := h.quiet hquiet
    simp [hmark, hquiet]
  · obtain ⟨hmark, -⟩ := h.busy hquiet
    simp [hmark, hquiet, and_comm]

theorem exec_holdViolation_iff {i : Instr} {s t : State} (h : exec i s = .next t) : t.holdViolation = true ↔
    s.holdViolation = true ∨ (pullupHeld s = true ∧ i ≠ .releasePullup ∧ t.trace ≠ s.trace) := by
  rcases exec_cases h with ⟨c, -, rfl⟩ | ⟨-, hran⟩
  · simp [refuse]
  · exact hran.holdViolation_iff

/-- Settles O54: a refused command emits nothing and leaves the mark, and for one that ran `Ran` says both. -/
theorem holdViolationExactly : Obligations.HoldViolationExactly := by
  intro i s t h
  rw [exec_holdViolation_iff h, pullupHeld_eq_true]

/-- But for `RELEASE_PULLUP`, a command that does not use the line emits nothing. -/
theorem effect_quiet {i : Instr} {s : State} (huse : usesLine i s = false) (hi : i ≠ .releasePullup) :
    (effect i s).trace = s.trace := by
  cases i with
  | writeBytes | readBytes =>
    have hlength : lengthOperand s = 0 := by simpa [usesLine] using huse
    rw [effect, hlength]
    rfl
  | discover sink alarm =>
    obtain rfl : sink = false := huse
    rfl
  | crc8Check | crc8Rom =>
    simp only [effect, readRun_eq]
    rfl
  | odMatch | odSkip => rfl
  | releasePullup => exact absurd rfl hi
  | writeBit | readBit | reset | writeByte | readByte | romSingle | romMatch | romSkip => simp [usesLine] at huse

/-- A command that emits an event, other than `RELEASE_PULLUP`, was accepted as a bus command. -/
theorem exec_eq_of_busy {i : Instr} {s t : State} (h : exec i s = .next t) (hbusy : t.trace ≠ s.trace)
    (hi : i ≠ .releasePullup) : t = effect i (acceptBus s) := by
  rcases exec_next_cases h with ⟨c, -, rfl⟩ | ⟨-, -, rfl⟩
  · exact absurd rfl hbusy
  cases huse : usesLine i s with
  | true => rw [acceptFor, if_pos huse]
  | false =>
    have hquiet := effect_quiet ((usesLine_acceptFor i s).trans huse) hi
    exact absurd (hquiet.trans (acceptFor_trace i s)) hbusy

theorem acceptBus_markFreesLine (s : State) : MarkFreesLine (acceptBus s) := lineEnv_undefined

theorem acceptFor_staysFree (i : Instr) (s : State) : StaysFree s (acceptFor i s) := by
  unfold acceptFor
  split
  · exact lineEnv_free
  · exact id

/-- No command brings a known environment back. -/
theorem exec_staysFree {i : Instr} {s t : State} (h : exec i s = .next t) : StaysFree s t := by
  rcases exec_next_cases h with ⟨c, -, rfl⟩ | ⟨-, -, rfl⟩
  · exact id
  · exact (acceptFor_staysFree i s).trans (effect_keepsLine i _).2

/-- Marks are sticky, so a clean end had a clean start. -/
theorem OnlyAppends.clean {s t : State} (h : OnlyAppends s t) (ht : t.clean) : s.clean := by
  simp only [State.clean, Bool.eq_false_iff] at ht ⊢
  exact ht.imp (mt h.holdViolation) (mt h.unwrittenRead)

/-- Settles O59: acceptance as a bus command frees the line where it leaves the mark (`acceptBus_markFreesLine`), no effect brings it
back (`effect_keepsLine`), and a clean end has no cause of the mark behind it (`exec_holdViolation_iff`). -/
theorem markedRunHasNoKnownLine : Obligations.MarkedRunHasNoKnownLine := by
  intro i s t h
  refine ⟨fun hmark hbusy hi => ?free, exec_staysFree h, fun hclean => ⟨(exec_onlyAppends h).clean hclean, fun hbusy hi => ?defined⟩⟩
  case free =>
    rw [exec_eq_of_busy h hbusy hi] at hmark ⊢
    exact (effect_keepsLine i _).markFreesLine (acceptBus_markFreesLine s) hmark
  case defined =>
    obtain ⟨hunmarked, -⟩ := hclean
    have hnocause := mt (exec_holdViolation_iff h).2 (Bool.eq_false_iff.1 hunmarked)
    simpa [hbusy, hi] using hnocause

end Sys2Proof.Machine
end

section
/-! Durations at the nominal figures: the `Delay` arguments of slots and resets, and their sums over a command (R124, R290, R291). -/

namespace Sys2Proof.Machine

@[simp] theorem busTime_nil : busTime [] = 0 := rfl

@[simp] theorem busTime_cons (e : PortEvent) (es : List PortEvent) : busTime (e :: es) = eventTime e + busTime es := by
  simp [busTime]

@[simp] theorem busTime_append (es fs : List PortEvent) : busTime (es ++ fs) = busTime es + busTime fs := by
  simp [busTime]

/-- Sequences that take `n` each, less 5 where `b` is 1: the form in which R291 sums the slots of a byte or of a search. -/
theorem busTime_flatMap_of_bit {α : Type} {f : α → List PortEvent} {b : α → Bool} {n : Nat}
    (h : ∀ a, busTime (f a) + 5 * (b a).toNat = n) (l : List α) :
    busTime (l.flatMap f) + 5 * l.countP b = n * l.length := by
  induction l with
  | nil => rfl
  | cons a l ih =>
    have ha := h a
    have hbit : (if b a = true then 1 else 0) = (b a).toNat := by cases b a <;> rfl
    rw [List.flatMap_cons, busTime_append, List.countP_cons, hbit, List.length_cons, Nat.mul_succ]
    omega

section
variable {c : Config} (hc : nominal c)
include hc

/-- A write slot takes 70, or 65 for a 1 (R124). -/
theorem busTime_writeSlot (v h : Bool) : busTime (writeSlot c v h) + 5 * v.toNat = 70 := by
  obtain ⟨h1Low, h1Rel, h0Low, h0Rel, -⟩ := hc
  cases v <;> cases h <;> simp [writeSlot, eventTime, h1Low, h1Rel, h0Low, h0Rel]

theorem busTime_readSlot (l : Level) : busTime (readSlot c l) = 70 := by
  obtain ⟨-, -, -, -, hLow, hWait, hRest, -⟩ := hc
  simp [readSlot, eventTime, hLow, hWait, hRest]

theorem busTime_pollEvents (j : Nat) : busTime (pollEvents c j) = 5 * j := by
  obtain ⟨-, -, -, -, -, -, -, hPoll, -⟩ := hc
  induction j with
  | zero => rfl
  | succ j ih =>
    simp only [pollEvents_succ, busTime_cons, eventTime, hPoll, ih]
    omega

/-- The pulse, the wait for the presence sample and the recovery take 960 (R291). -/
theorem busTime_pulseEvents (l : Level) : busTime (pulseEvents c l) = 960 := by
  obtain ⟨-, -, -, -, -, -, -, -, hLow, hWait, hRec⟩ := hc
  simp [pulseEvents, eventTime, hLow, hWait, hRec]

theorem busTime_resetEvents (j : Nat) (l : Level) : busTime (resetEvents c j l) = 960 + 5 * j := by
  simp only [resetEvents, busTime_cons, busTime_append, busTime_pollEvents hc, busTime_pulseEvents hc, eventTime]
  omega

theorem busTime_deadResetEvents : busTime (deadResetEvents c) = 5 * c.retry.toNat := by
  simp only [deadResetEvents, busTime_cons, busTime_pollEvents hc, eventTime, Nat.zero_add]

/-- The eight slots of a byte, whichever of them hold. -/
theorem busTime_byteSlots (x : Byte) (hold : Nat → Bool) :
    busTime ((List.range 8).flatMap (fun i => writeSlot c (x.getLsbD i) (hold i))) + 5 * (List.range 8).countP x.getLsbD = 70 * 8 :=
  busTime_flatMap_of_bit (fun i => busTime_writeSlot hc (x.getLsbD i) (hold i)) (List.range 8)

theorem busTime_readSlots {ls : List Level} (h : ls.length = 8) : busTime (ls.flatMap (readSlot c)) = 560 := by
  have hsum := busTime_flatMap_of_bit (f := readSlot c) (b := fun _ => false) (busTime_readSlot hc) ls
  rwa [List.countP_false, h] at hsum

/-- The search byte has four 1 bits (R218). -/
theorem busTime_searchByte : busTime (writeByteEvents c 0xF0) = 540 := by
  have hsum := busTime_byteSlots hc 0xF0 (fun _ => false)
  have hones : (List.range 8).countP (0xF0 : Byte).getLsbD = 4 := by decide
  rw [hones] at hsum
  exact Nat.add_right_cancel hsum

/-- Two read slots and a write slot for each identifier bit (R217). -/
theorem busTime_bitEvents (x : Identifier) (k : Nat) : busTime (bitEvents c x k) + 5 * (idBit x k).toNat = 140 + 70 := by
  have hwrite := busTime_writeSlot hc (idBit x k) false
  rw [bitEvents, busTime_append, busTime_append, busTime_readSlot hc, busTime_readSlot hc]
  omega

end

/-! The clauses of R291, command by command. -/

section
variable {s : State} (hs : nominal s.cfg)
include hs

theorem exec_writeByte_time (p : Bool) : ∃ t es, exec (.writeByte p) s = .next t ∧ t.trace = s.trace ++ es ∧
    busTime es = 70 * 8 - 5 * (List.range 8).countP s.arg.getLsbD := by
  cases p with
  | false =>
    have hsum := busTime_byteSlots hs s.arg (fun _ => false)
    exact ⟨_, _, writeByteEffect s, rfl, by omega⟩
  | true =>
    have hsum := busTime_byteSlots hs s.arg (· == 7)
    refine ⟨_, _, writeBytePullupEffect s, List.append_assoc .., ?_⟩
    have hpullup : busTime (if s.cfg.apu then [.pullupOn] else [.driveHigh, .setDriven]) = 0 := by cases s.cfg.apu <;> rfl
    rw [busTime_append, hpullup]
    omega

theorem exec_reset_time : ∃ t es, exec .reset s = .next t ∧ t.trace = s.trace ++ es ∧
    ((∃ j, j < s.cfg.retry.toNat ∧ t.pinReads = s.pinReads + j + 2 ∧ busTime es = 960 + 5 * j) ∨
      (t.pinReads = s.pinReads + s.cfg.retry.toNat ∧ t.result = 0x00 ∧ busTime es = 5 * s.cfg.retry.toNat)) := by
  obtain ⟨es, ok, o, c, e, k, houtcome, heq⟩ := resetAndPresenceDetect_spec (acceptBus s)
  refine ⟨_, es, exec_reset s, by rw [heq]; rfl, ?_⟩
  rw [heq]
  rcases houtcome with ⟨rfl, rfl, -, -, rfl⟩ | ⟨j, p, hj, rfl, -, -, -, rfl⟩
  · exact .inr ⟨rfl, rfl, busTime_deadResetEvents hs⟩
  · exact .inl ⟨j, hj, rfl, busTime_resetEvents hs j p⟩

theorem exec_discover_time {x : Identifier} {al : Bool} {st : DeviceState} (hline : s.lineDefined) (henum : s.cfg.hasEnum = true)
    (hretry : 0 < s.cfg.retry.toNat) (henv : s.env = .deviceBus { devs := [{ id := x, alarmed := al, state := st }] }) :
    ∃ t es, exec (.discover true false) s = .next t ∧ t.trace = s.trace ++ es ∧
      busTime es = 960 + 540 + 64 * (140 + 70) - 5 * (List.range 64).countP (idBit x) := by
  obtain ⟨t, hexec, -, -, htrace⟩ := discoverSingleDevice s x al st hline henum hretry henv
  simp only [List.append_assoc s.trace] at htrace
  refine ⟨t, resetEvents s.cfg 0 false ++ writeByteEvents s.cfg 0xF0 ++ (List.range 64).flatMap (bitEvents s.cfg x) ++
    if idValid x then [.report x] else [], hexec, htrace, ?_⟩
  have hbits := busTime_flatMap_of_bit (busTime_bitEvents hs x) (List.range 64)
  have hreport : busTime (if idValid x then [.report x] else []) = 0 := by cases idValid x <;> rfl
  simp only [busTime_append, busTime_resetEvents hs, busTime_searchByte hs, hreport]
  rw [List.length_range] at hbits
  omega

end

/-- Settles O58: each command's events are those of its effect, summed by the lemmas above. -/
theorem nominalDurations : Obligations.NominalDurations := by
  intro s hs
  refine ⟨fun h v => ?writeBit, ?readBit, exec_reset_time hs, exec_writeByte_time hs, ?readByte,
    fun x al st => exec_discover_time hs⟩
  case writeBit =>
    have hslot := busTime_writeSlot hs v h
    refine ⟨_, _, exec_writeBit h v s, by rw [writeBit_eq]; rfl, ?_⟩
    cases v <;> simpa using hslot
  case readBit => exact ⟨_, _, exec_readBit s, by rw [readBit_eq]; rfl, busTime_readSlot hs _⟩
  case readByte =>
    obtain ⟨ls, e, hlength, hexec⟩ := readByteEffect s
    exact ⟨_, _, hexec, rfl, busTime_readSlots hs hlength⟩

end Sys2Proof.Machine
end
